-- ==== Sys2Proof/Word.lean ====
section
/-! DEFINITION. The words MT-CORE moves: 64-bit registers and entries, bytes, 17-bit aperture offsets (00 R8, R9). -/

namespace Sys2Proof

/-- A register, a memory entry, a command word or a binary64 value: `DATA_W` = 64 bits (00 R8, 10 R32). -/
abbrev Word := BitVec 64

/-- One byte lane (20 R86). -/
abbrev Byte := BitVec 8

/-- A byte offset inside the aperture: `ADDR_W` = 17 bits (00 R8, 20 R80). -/
abbrev Offset := BitVec 17

end Sys2Proof
end

