-- ==== Sys2Proof/Machine/Bytes.lean ====
section
/-! DEFINITION. Byte order: little-endian, byte lane j carries bits 8j+7:8j (20 R86). -/

namespace Sys2Proof.Machine

/-- The eight byte lanes of a word, lane 0 first (20 R86). -/
def wordBytes (v : Word) : List Byte :=
  [v.extractLsb' 0 8, v.extractLsb' 8 8, v.extractLsb' 16 8, v.extractLsb' 24 8,
   v.extractLsb' 32 8, v.extractLsb' 40 8, v.extractLsb' 48 8, v.extractLsb' 56 8]

/-- The word whose lanes are the eight bytes, lane 0 first; none for any other number of bytes (20 R86, R87). -/
def bytesWord : List Byte → Option Word
  | [b0, b1, b2, b3, b4, b5, b6, b7] => some (b7 ++ b6 ++ b5 ++ b4 ++ b3 ++ b2 ++ b1 ++ b0 : BitVec 64)
  | _ => none

end Sys2Proof.Machine
end

