-- ==== Sys2Proof/Syntax.lean ====
section
/-! DEFINITION. MT-CORE's commands: one constructor per row of spec/opcode_table.json (30 R113). -/

namespace Sys2Proof

/-- A command. A command word has no operand field (30 R112), so no constructor has an argument. -/
inductive Instr where
  /-- NOP, 42 R190. -/
  | nop
  /-- EVAL, 40 R130. -/
  | eval
  /-- GEN, 41 R160. -/
  | gen
  /-- SRST, 42 R191. -/
  | srst
  deriving DecidableEq, Repr

end Sys2Proof
end

