-- ==== Sys2Proof/Decode.lean ====
section
/-! DEFINITION. Decoding and encoding of the command word (30 R110-R117, 42 R192). -/

namespace Sys2Proof

/-- Why a 64-bit command word is no command (42 R192). -/
inductive Reserved where
  /-- Bits 63:8 are 0 and OPC is none of the four (30 R114). -/
  | badOpcode
  /-- Bits 63:8 are not all 0 (30 R115). -/
  | cmdRsvd
  deriving DecidableEq, Repr

/-- Why a run of bytes is no command. -/
inductive DecodeError where
  /-- The word is reserved. -/
  | reserved (r : Reserved)
  /-- Not one 64-bit word: each write of CMD carries exactly one command (30 R110). -/
  | notOneWord
  deriving DecidableEq, Repr

/-- The error code of a reserved word: 1 BAD_OPCODE, 2 CMD_RSVD (60 R200). -/
def Reserved.code : Reserved → BitVec 4
  | .badOpcode => 1
  | .cmdRsvd => 2

/-- OPC, bits 7:0 (30 R111). -/
def opc (c : Word) : Byte := c.extractLsb' 0 8

/-- RSVD, bits 63:8 (30 R111). -/
def rsvd (c : Word) : BitVec 56 := c.extractLsb' 8 56

/-- Format C and the opcode map (30 R111, R113): total on every 64-bit word, each reserved word rejected by name (R114, R115). -/
def decode (c : Word) : Except Reserved Instr :=
  if rsvd c ≠ 0 then .error .cmdRsvd
  else if opc c = 0x00 then .ok .nop
  else if opc c = 0x01 then .ok .eval
  else if opc c = 0x02 then .ok .gen
  else if opc c = 0x5A then .ok .srst
  else .error .badOpcode

/-- The decoder on bytes, in the order of the bus lanes (20 R86); total on any bytes. -/
def decodeBytes (bs : List Byte) : Except DecodeError Instr :=
  match Machine.bytesWord bs with
  | none => .error .notOneWord
  | some c =>
    match decode c with
    | .ok i => .ok i
    | .error r => .error (.reserved r)

/-- The decoder on a word numbered as spec/opcode_table.json numbers its bits; the bits above `nbits` are 0, and more
than 64 bits are no command word (30 R110). -/
def decodeTableWord (nbits w : Nat) : Option Instr :=
  let v := w % 2 ^ nbits
  if 2 ^ 64 ≤ v then none
  else
    match decodeBytes (Machine.wordBytes (BitVec.ofNat 64 v)) with
    | .ok i => some i
    | .error _ => none

/-- The operation code of each command (30 R113). -/
def opcOf : Instr → Byte
  | .nop => 0x00
  | .eval => 0x01
  | .gen => 0x02
  | .srst => 0x5A

/-- Format C: RSVD 0, then OPC (30 R111). -/
def encode (i : Instr) : Word := (0#56 ++ opcOf i : BitVec 64)

end Sys2Proof
end

