-- ==== Sys2Proof/Config.lean ====
section
/-! DEFINITION. What is fixed for the machine: the parameters of 00 R8, the constants of 00 R14 and R18, and the values the spec leaves free. -/

namespace Sys2Proof.Config

/-- N_MAX, the largest sample count of one EVAL (00 R8, D14; log 10). -/
def nMax : Nat := 4096

/-- LEVELS, the resolution levels of the table (00 R8). -/
def levels : Nat := 8

/-- TABLE_W, the entries per level and the abscissa entries (00 R8). -/
def tableW : Nat := 257

/-- ID: MAGIC "GOER", SRCREV 7, HWREV 1 (10 R33). -/
def idWord : Word := 0x474F455200070001#64

/-- CAP: bits 63:56 reserved, TABLEW in 55:40, LEVELS in 39:32, NMAX in 31:0 (10 R34). -/
def capWord : Word :=
  (0#8 ++ BitVec.ofNat 16 tableW ++ BitVec.ofNat 8 levels ++ BitVec.ofNat 32 nMax : BitVec 64)

/-- CNAN, the one NaN that an operation gives (00 R14). -/
def cnan : Word := 0x7FF8000000000000#64

/-- +0.0 (00 R11). -/
def zero : Word := 0x0000000000000000#64

/-- 0.5 -/
def half : Word := 0x3FE0000000000000#64

/-- 1.0 -/
def one : Word := 0x3FF0000000000000#64

/-- 2.0 -/
def two : Word := 0x4000000000000000#64

/-- 4.0 -/
def four : Word := 0x4010000000000000#64

/-- 6.0 -/
def six : Word := 0x4018000000000000#64

/-- PI64 (00 R18). -/
def pi64 : Word := 0x400921FB54442D18#64

/-- TWO_PI64 (00 R18). -/
def twoPi64 : Word := 0x401921FB54442D18#64

/-- HALF_PI64 (00 R18). -/
def halfPi64 : Word := 0x3FF921FB54442D18#64

/-- "Any value", a fresh choice of 64 bits for each index (20 R97, R98; 93 I5, I6): a free value.
State's counter `draws` gives each use an index of its own (log 4, 5, 6). -/
opaque anyWord : Nat → BitVec 64

end Sys2Proof.Config
end

