-- ==== Sys2Proof/Machine/State.lean ====
section
/-! DEFINITION. MT-CORE's state (10_state.md), the reasons a step can stop, and the state after reset (10 R65). -/

namespace Sys2Proof.Machine

/-- The three recursions of EVAL (00 R21, 40 R132). -/
inductive Regime where
  | low
  | mid
  | high
  deriving DecidableEq, Repr

/-- The engine sequencer (10 R60). -/
inductive Seq where
  /-- No command running. -/
  | idle
  /-- EVAL about to process its k-th sample. -/
  | evalIt (k : Nat)
  /-- EVAL about to combine and complete. -/
  | evalFin
  /-- GEN about to compute grid point i of level l. -/
  | genPt (l i : Nat)
  /-- GEN about to complete. -/
  | genFin
  deriving DecidableEq, Repr

/-- The fields of STATUS (10 R36). The reserved bits hold nothing. -/
structure Status where
  /-- bit 0, R37 -/
  busy : Bool
  /-- bit 1, R38 -/
  done : Bool
  /-- bit 2, R39 -/
  err : Bool
  /-- bits 7:4, R39 and 60 R200 -/
  errcode : BitVec 4
  /-- bit 8, R40 -/
  rv : Bool
  /-- bit 9, R41 -/
  tv : Bool
  /-- bits 11:10, R41 -/
  tkind : BitVec 2
  /-- bit 12, R41 -/
  zk : Bool
  /-- bits 14:13, R42 and 30 R120 -/
  regime : BitVec 2
  /-- bit 16, R43 -/
  cbusy : Bool
  /-- bit 17, R43 -/
  wbusy : Bool
  /-- bit 18, R43 -/
  buserr : Bool
  deriving DecidableEq, Repr

/-- What the host asks of the port next (10 R30, 30 R123). -/
inductive HostOp where
  /-- A write request: `req_addr`, `req_wdata`, `req_wstrb`. -/
  | write (a : Offset) (v : Word) (strb : BitVec 8)
  /-- A read request: `req_addr`. The host keeps the data under `name` (`rd T -> name`). -/
  | read (a : Offset) (name : String)
  /-- Reads of `a` until the value masked by `m` is `e`: one read each turn. -/
  | poll (a : Offset) (m e : Word)
  deriving DecidableEq, Repr

/-- Which agent moves (20 R100, 70 R230). -/
inductive Turn where
  /-- The host's next transaction. -/
  | host
  /-- The engine's next step. -/
  | engine
  /-- `rst_n` goes low. -/
  | rstLow
  /-- `rst_n` goes high. -/
  | rstHigh
  deriving DecidableEq, Repr

/-- A response: `rsp_err` and `rsp_rdata` (10 R30). -/
structure Response where
  err : Bool
  rdata : Word
  deriving DecidableEq, Repr

/-- S, X and W as bytes at their aperture offsets (20 R81), in the canonical form `Memory.wf`. -/
abbrev Memory := List Host.Cell

/-- The whole machine: MT-CORE's state (10 R32-R64), its input pin, and the model's own fields for the host and the schedule. -/
structure State where
  /-- STATUS, 10 R36 -/
  status : Status
  /-- IE, 10 R45 -/
  ie : Word
  /-- OMEGA, 10 R46 -/
  omega : Word
  /-- LEN, 10 R47 -/
  len : Word
  /-- KIND, 10 R48 -/
  kind : Word
  /-- COS_OUT, 10 R49 -/
  cosOut : Word
  /-- SIN_OUT, 10 R49 -/
  sinOut : Word
  /-- DBG_ACC, 10 R50 -/
  dbgAcc : Word
  /-- DBG_P1, 10 R50 -/
  dbgP1 : Word
  /-- DBG_P2, 10 R50 -/
  dbgP2 : Word
  /-- DBG_B, 10 R50 -/
  dbgB : Word
  /-- S, X and W, 10 R51-R53 -/
  mem : Memory
  /-- SEQ, 10 R60 -/
  seq : Seq
  /-- E_N, 10 R61 -/
  eN : Nat
  /-- E_W, 10 R61 -/
  eW : Word
  /-- E_REG, 10 R61 -/
  eReg : Regime
  /-- G_KIND, 10 R62 -/
  gKind : BitVec 32
  /-- The level of the `rst_n` pin, 10 R30 (log 11) -/
  rstN : Bool
  /-- The host's pending transactions (log 2) -/
  host : List HostOp
  /-- The coming turns (log 1) -/
  turns : List Turn
  /-- The last response the host took (log 12) -/
  lastRsp : Option Response
  /-- The names the host's reads have bound, with their values; no name twice (30 R123; log 21) -/
  names : List (String × Word)
  /-- How many free values have been drawn (log 6) -/
  draws : Nat
  deriving DecidableEq, Repr

/-- No fault stops MT-CORE: errors are recorded in STATUS and the machine goes on (60 R203), so no step raises one. -/
inductive Fault where
  deriving DecidableEq, Repr

/-- Why there is no meaning. -/
inductive Refusal where
  /-- Raised by an arm of exec that has no meaning yet; safe. No arm of this model raises it. -/
  | notModelled (mnemonic : String)
  deriving DecidableEq, Repr

/-- STATUS after reset, 0x0000000000006000 (10 R36, R65). -/
def Status.reset : Status :=
  { busy := false, done := false, err := false, errcode := 0, rv := false, tv := false, tkind := 0, zk := false,
    regime := 3, cbusy := false, wbusy := false, buserr := false }

/-- The machine right after reset (10 R65). S, X and W hold nothing defined. The latches `eN`, `eW`, `eReg` and `gKind`
are unspecified there and named by log 3; the model's own fields are empty (log 1, 2, 6, 12, 21). -/
def State.reset : State :=
  { status := Status.reset
    ie := 0, omega := 0, len := 0, kind := 0
    cosOut := 0, sinOut := 0, dbgAcc := 0, dbgP1 := 0, dbgP2 := 0, dbgB := 0
    mem := []
    seq := .idle
    eN := 0, eW := 0, eReg := .low, gKind := 0
    rstN := true
    host := [], turns := [], lastRsp := none, names := [], draws := 0 }

end Sys2Proof.Machine
end

