-- ==== Sys2Proof/Machine/Flags.lean ====
section
/-! DEFINITION. STATUS as a word, its flag updates, W1C and `irq` (10 R36-R45, R63). -/

namespace Sys2Proof.Machine

/-- STATUS as the host reads it, bit 63 first (10 R36). -/
def Status.toWord (f : Status) : Word :=
  (0#45 ++ BitVec.ofBool f.buserr ++ BitVec.ofBool f.wbusy ++ BitVec.ofBool f.cbusy ++ 0#1 ++ f.regime ++
    BitVec.ofBool f.zk ++ f.tkind ++ BitVec.ofBool f.tv ++ BitVec.ofBool f.rv ++ f.errcode ++ 0#1 ++
    BitVec.ofBool f.err ++ BitVec.ofBool f.done ++ BitVec.ofBool f.busy : BitVec 64)

/-- A host write of v to STATUS: the bits written with 1 clear, all others are ignored (10 R44). -/
def Status.w1c (f : Status) (v : Word) : Status :=
  { f with
    done := f.done && !v.getLsbD 1
    err := f.err && !v.getLsbD 2
    errcode := if v.getLsbD 2 then 0 else f.errcode
    cbusy := f.cbusy && !v.getLsbD 16
    wbusy := f.wbusy && !v.getLsbD 17
    buserr := f.buserr && !v.getLsbD 18 }

/-- STATUS.REGIME of a regime (30 R120). -/
def Regime.code : Regime → BitVec 2
  | .low => 0
  | .mid => 1
  | .high => 2

/-- A command dropped while busy (10 R43, 42 R193). -/
def Status.dropCommand (f : Status) : Status := { f with cbusy := true }

/-- An input write dropped while busy (10 R43, 20 R96). -/
def Status.dropWrite (f : Status) : Status := { f with wbusy := true }

/-- An error response (10 R43, 60 R205). -/
def Status.busError (f : Status) : Status := { f with buserr := true }

/-- `reject(code)` (60 R202). -/
def Status.reject (f : Status) (code : BitVec 4) : Status := { f with done := true, err := true, errcode := code }

/-- `rejectEval(code)` (40 R131). -/
def Status.rejectEval (f : Status) (code : BitVec 4) : Status := { f.reject code with rv := false, regime := 3 }

/-- An accepted NOP (42 R190). -/
def Status.acceptNop (f : Status) : Status := { f with done := true, err := false, errcode := 0 }

/-- An accepted EVAL (40 R134). -/
def Status.acceptEval (f : Status) (r : Regime) : Status :=
  { f with regime := r.code, rv := false, done := false, err := false, errcode := 0, busy := true }

/-- EVAL's final step (40 R139). -/
def Status.finishEval (f : Status) : Status := { f with rv := true, done := true, busy := false }

/-- The kind is selected: 1 or 2 (30 R119). -/
def selected (k : BitVec 32) : Bool := k == 1 || k == 2

/-- STATUS.TKIND of a captured kind (10 R41). -/
def tkindOf (k : BitVec 32) : BitVec 2 := if selected k then k.extractLsb' 0 2 else 0

/-- An accepted GEN (41 R161). -/
def Status.acceptGen (f : Status) (k : BitVec 32) : Status :=
  { f with tv := false, tkind := tkindOf k, zk := !selected k, done := false, err := false, errcode := 0, busy := true }

/-- GEN's final step (41 R170). -/
def Status.finishGen (f : Status) : Status := { f with tv := true, done := true, busy := false }

/-- IE.DONE_IE (10 R45). -/
def doneIe (ie : Word) : Bool := ie.getLsbD 0

/-- IE.ERR_IE (10 R45). -/
def errIe (ie : Word) : Bool := ie.getLsbD 1

/-- IE.ACC_IE (10 R45). -/
def accIe (ie : Word) : Bool := ie.getLsbD 2

/-- The `irq` output, a function of STATUS and IE (10 R63, 60 R210). -/
def State.irq (s : State) : Bool :=
  (s.status.done && doneIe s.ie) || (s.status.err && errIe s.ie) ||
    ((s.status.cbusy || s.status.wbusy || s.status.buserr) && accIe s.ie)

end Sys2Proof.Machine
end

