-- ==== Sys2Proof/Machine/Memory.lean ====
section
/-! DEFINITION. The memory behind S, X and W: bytes at aperture offsets, read and written as whole 64-bit entries (20 R86, R87). -/

namespace Sys2Proof.Machine

/-- What an address that is not listed reads as: nothing defined (20 R98; log 4). -/
def Memory.unlisted : Option Byte := none

/-- The canonical form: addresses strictly rising, no entry equal to what an unlisted address reads as. -/
abbrev Memory.wf (m : Memory) : Prop :=
  m.Pairwise (fun c d => c.1 < d.1) ∧ ∀ c ∈ m, some c.2 ≠ Memory.unlisted

/-- The byte at an address. -/
def Memory.readByte (m : Memory) (a : Nat) : Option Byte :=
  match m.find? (fun c => c.1 == a) with
  | some c => some c.2
  | none => Memory.unlisted

/-- Bytes laid out from an address on. -/
def cellsFrom (a : Nat) : List Byte → Memory
  | [] => []
  | b :: bs => (a, b) :: cellsFrom (a + 1) bs

/-- The bytes `bs` stored from address `lo` on. -/
def Memory.store (lo : Nat) (bs : List Byte) (m : Memory) : Memory :=
  m.filter (fun c => c.1 < lo) ++ cellsFrom lo bs ++ m.filter (fun c => lo + bs.length ≤ c.1)

/-- The entry at `a`: its eight bytes, if all are there (20 R86). -/
def Memory.readWord (m : Memory) (a : Nat) : Option Word :=
  match (List.range 8).mapM (fun j => m.readByte (a + j)) with
  | some bs => bytesWord bs
  | none => none

/-- A 64-bit entry stored at `a` (20 R86, R94). -/
def Memory.writeWord (a : Nat) (v : Word) (m : Memory) : Memory := m.store a (wordBytes v)

/-- `n` entries from `a` on set to +0.0. -/
def Memory.zeroWords (a n : Nat) (m : Memory) : Memory := m.store a (List.replicate (8 * n) 0)

end Sys2Proof.Machine
end

