-- ==== Sys2Proof/Machine/Operands.lean ====
section
/-! DEFINITION. Operands: the address map (20 R80-R85, 10 R32), where S, X and W stand, and what the commands read (30 R112). -/

namespace Sys2Proof.Machine

/-- The named registers of 10 R32. -/
inductive Reg where
  | id | cap | cmd | status | ie | omega | len | kind | cosOut | sinOut | dbgAcc | dbgP1 | dbgP2 | dbgB
  deriving DecidableEq, Repr

/-- What stands at an aligned offset (20 R81). -/
inductive Region where
  | reg (r : Reg)
  | x (i : Nat)
  | w (l i : Nat)
  | s (j : Nat)
  | reserved
  deriving DecidableEq, Repr

/-- The registers in the order of their offsets (10 R32). -/
def regList : List Reg :=
  [.id, .cap, .cmd, .status, .ie, .omega, .len, .kind, .cosOut, .sinOut, .dbgAcc, .dbgP1, .dbgP2, .dbgB]

/-- The offset of a register (10 R32). -/
def regOffset : Reg → Offset
  | .id => 0x00000#17
  | .cap => 0x00008#17
  | .cmd => 0x00010#17
  | .status => 0x00018#17
  | .ie => 0x00020#17
  | .omega => 0x00028#17
  | .len => 0x00030#17
  | .kind => 0x00038#17
  | .cosOut => 0x00040#17
  | .sinOut => 0x00048#17
  | .dbgAcc => 0x00050#17
  | .dbgP1 => 0x00058#17
  | .dbgP2 => 0x00060#17
  | .dbgB => 0x00068#17

/-- The register at an offset, if one stands there. -/
def regAt (a : Offset) : Option Reg := regList.find? (fun r => regOffset r == a)

/-- The address of S[j] (20 R82). -/
def sAddr (j : Nat) : Nat := 0x10000 + 8 * j

/-- The address of X[i] (20 R83). -/
def xAddr (i : Nat) : Nat := 0x01000 + 8 * i

/-- The address of W[l][i] (20 R84). -/
def wAddr (l i : Nat) : Nat := 0x08000 + 0x1000 * l + 8 * i

/-- `req_addr[2:0] != 0` (20 R88). -/
def misaligned (a : Offset) : Bool := a.extractLsb' 0 3 != 0#3

/-- `decode(a)`, the region of an aligned offset (20 R81-R85). -/
def region (a : Offset) : Region :=
  let n := a.toNat
  if n < 0x01000 then
    match regAt a with
    | some r => .reg r
    | none => .reserved
  else if n ≤ 0x01800 then .x ((n - 0x01000) / 8)
  else if n < 0x08000 then .reserved
  else if n < 0x10000 then
    if n % 0x1000 ≤ 0x800 then .w ((n - 0x08000) / 0x1000) (n % 0x1000 / 8) else .reserved
  else if n < 0x18000 then
    if (n - 0x10000) / 8 < Config.nMax then .s ((n - 0x10000) / 8) else .reserved
  else .reserved

/-- `zext_64(v[31:0])` (10 R47, R48). -/
def low32 (v : Word) : Word := (v.extractLsb' 0 32).setWidth 64

/-- `zext_64(v[2:0])` (10 R45). -/
def low3 (v : Word) : Word := (v.extractLsb' 0 3).setWidth 64

/-- EVAL's sample count n, LEN[31:0] unsigned (30 R112). -/
def lenOperand (s : State) : Nat := (s.len.extractLsb' 0 32).toNat

/-- EVAL's frequency, OMEGA as it is (30 R112). -/
def omegaOperand (s : State) : Word := s.omega

/-- GEN's selector, KIND[31:0] unsigned (30 R112). -/
def kindOperand (s : State) : BitVec 32 := s.kind.extractLsb' 0 32

end Sys2Proof.Machine
end

