-- ==== Sys2Proof/Machine/Ops.lean ====
section
/-! DEFINITION. The shared operations over registers and memories, the two ways an error is taken (rejection, 60 R202, and
error response, 60 R205; MT-CORE has no traps and no return, 60 R203 and R204), and the reset effect (10 R65). -/

namespace Sys2Proof.Machine

/-- A fresh free value (20 R97, R98; log 4, 5, 6). -/
def anyValue (s : State) : Word × State := (Config.anyWord s.draws, { s with draws := s.draws + 1 })

/-- The entry at an address of S, X or W: its value, or any value if nothing has written it (20 R98). -/
def readEntry (a : Nat) (s : State) : Word × State :=
  match s.mem.readWord a with
  | some v => (v, s)
  | none => anyValue s

/-- A 64-bit store into S, X or W. -/
def writeEntry (a : Nat) (v : Word) (s : State) : State := { s with mem := s.mem.writeWord a v }

/-- S[j] <- v -/
def writeS (j : Nat) (v : Word) (s : State) : State := writeEntry (sAddr j) v s

/-- X[i] <- v -/
def writeX (i : Nat) (v : Word) (s : State) : State := writeEntry (xAddr i) v s

/-- W[l][i] <- v -/
def writeW (l i : Nat) (v : Word) (s : State) : State := writeEntry (wAddr l i) v s

/-- X and every level of W set to +0.0 (41 R161). -/
def zeroTables (m : Memory) : Memory :=
  (List.range Config.levels).foldl (fun m l => m.zeroWords (wAddr l 0) Config.tableW)
    (m.zeroWords (xAddr 0) Config.tableW)

/-- SEQ is an EVAL phase (20 R97). -/
def Seq.isEval : Seq → Bool
  | .evalIt _ => true
  | .evalFin => true
  | _ => false

/-- SEQ is a GEN phase (20 R97). -/
def Seq.isGen : Seq → Bool
  | .genPt _ _ => true
  | .genFin => true
  | _ => false

/-- An OKAY response with its data (20 R90, R91). -/
def respond (v : Word) (s : State) : State := { s with lastRsp := some { err := false, rdata := v } }

/-- `BusError`: error response, data 0, BUSERR, nothing else (60 R205). -/
def busError (s : State) : State :=
  { s with lastRsp := some { err := true, rdata := 0 }, status := s.status.busError }

/-- The data of the last response; 0 for an error (10 R30). -/
def lastData (s : State) : Word :=
  match s.lastRsp with
  | some r => r.rdata
  | none => 0

/-- `name <- MemRead(a, 8)`: the host keeps the data of the response just taken under `name`, in place of what stood there
(30 R123; log 21). -/
def bindName (name : String) (s : State) : State :=
  { s with names := (name, lastData s) :: s.names.filter (fun b => b.1 != name) }

/-- What the host holds under a name, if a read has bound it (30 R123). -/
def State.named (s : State) (name : String) : Option Word :=
  (s.names.find? (fun b => b.1 == name)).map (fun b => b.2)

/-- A command word dropped while busy (42 R193, 60 R206). -/
def dropCommand (s : State) : State := { s with status := s.status.dropCommand }

/-- An input write while busy is dropped and sets WBUSY; otherwise it stores (20 R91, R96). -/
def inputWrite (store : State → State) (s : State) : State :=
  if s.status.busy then { s with status := s.status.dropWrite } else store s

/-- `reject(code)` (60 R202). -/
def reject (code : BitVec 4) (s : State) : State := { s with status := s.status.reject code }

/-- `rejectEval(code)` (40 R131). -/
def rejectEval (code : BitVec 4) (s : State) : State := { s with status := s.status.rejectEval code }

/-- A command other than SRST runs only while BUSY = 0; while busy it is dropped (30 R117, 42 R193). -/
def unlessBusy (run : State → State) (s : State) : State :=
  if s.status.busy then dropCommand s else run s

/-- The reset effect on MT-CORE's own state (10 R65, 70 R231): every element takes its reset value, SEQ is IDLE, S, X and W
become unspecified. The pin, the host, the schedule, the host's last response, its names and the count of draws are not
MT-CORE's (log 11). -/
def resetCore (s : State) : State :=
  { State.reset with rstN := s.rstN, host := s.host, turns := s.turns, lastRsp := s.lastRsp,
                     names := s.names, draws := s.draws }

end Sys2Proof.Machine
end

