-- ==== Sys2Proof/Machine/Control.lean ====
section
/-! DEFINITION. NOP and SRST (42_control.md). -/

namespace Sys2Proof.Machine

/-- NOP: DONE <- 1, ERR <- 0, ERRCODE <- 0, nothing else (42 R190). -/
def execNop (s : State) : Host.Outcome State Fault Refusal :=
  .next (unlessBusy (fun s => { s with status := s.status.acceptNop }) s)

/-- SRST: any running command is abandoned and every state element takes its reset value, busy or not (42 R191). -/
def execSrst (s : State) : Host.Outcome State Fault Refusal :=
  .next (resetCore s)

end Sys2Proof.Machine
end

