-- ==== Sys2Proof/Machine/Binary64.lean ====
section
/-! DEFINITION. IEEE 754 binary64 on 64-bit words: layout, rounding to nearest even, the primitives of 00 R11-R16 and the decimal conversion of 30 R123. -/

namespace Sys2Proof.Machine.F64

/-- What a word holds: a NaN, an infinity, or the exact value ±m·2^e (00 R11). -/
inductive Datum where
  | nan
  | inf (neg : Bool)
  | fin (neg : Bool) (m : Nat) (e : Int)
  deriving DecidableEq, Repr

/-- `v[62:52]` (00 R11). -/
def expField (v : Word) : Nat := (v.extractLsb' 52 11).toNat

/-- `v[51:0]` (00 R11). -/
def fracField (v : Word) : Nat := (v.extractLsb' 0 52).toNat

/-- `v[63]` (00 R11). -/
def signBit (v : Word) : Bool := v.getLsbD 63

/-- `isNaN(a)`: `a[62:52] = 0x7FF` and `a[51:0] != 0` (00 R16). -/
def isNaN (v : Word) : Bool := expField v == 0x7FF && fracField v != 0

/-- Neither NaN nor infinite. -/
def isFinite (v : Word) : Bool := expField v != 0x7FF

/-- The layout of 00 R11 read as an exact value; subnormals are kept (00 R15). -/
def unpack (v : Word) : Datum :=
  if expField v = 0x7FF then
    if fracField v = 0 then .inf (signBit v) else .nan
  else if expField v = 0 then .fin (signBit v) (fracField v) (-1074)
  else .fin (signBit v) (2 ^ 52 + fracField v) (expField v - 1075)

/-- The exact value of a finite word; 0 for the others. -/
def toRat (v : Word) : Rat :=
  match unpack v with
  | .fin neg m e => (if neg then -1 else 1) * (m : Rat) * (2 : Rat) ^ e
  | _ => 0

/-- `canon(v)` (00 R14). -/
def canon (v : Word) : Word := if isNaN v then Config.cnan else v

/-- The magnitude bits of infinity. -/
def infMag : Nat := 0x7FF * 2 ^ 52

/-- A sign bit over 63 magnitude bits. -/
def withSign (neg : Bool) (mag : Nat) : Word := BitVec.ofNat 64 (mag + if neg then 2 ^ 63 else 0)

/-- floor(log2(n/d)), for positive n and d. -/
def log2Rat (n d : Nat) : Int :=
  let k : Int := (n.log2 : Int) - (d.log2 : Int)
  if n * 2 ^ (-k).toNat < d * 2 ^ k.toNat then k - 1 else k

/-- The exponent of the unit in the last place of n/d: 53 significant bits, not below the subnormal unit (00 R12, R15). -/
def quantum (n d : Nat) : Int := max (log2Rat n d - 52) (-1074)

/-- The integer nearest N/D, ties to even (00 R12). -/
def nearestEven (N D : Nat) : Nat :=
  let m := N / D
  let r := N % D
  if D < 2 * r ∨ (2 * r = D ∧ m % 2 = 1) then m + 1 else m

/-- The magnitude bits of n/d rounded to nearest, ties to even; overflow gives infinity (00 R12, R15). -/
def roundMag (n d : Nat) : Nat :=
  if n = 0 then 0
  else
    let q := quantum n d
    let m := nearestEven (n * 2 ^ (-q).toNat) (d * 2 ^ q.toNat)
    min ((q + 1074).toNat * 2 ^ 52 + m) infMag

/-- ±n/d, rounded. -/
def roundRat (neg : Bool) (n d : Nat) : Word := withSign neg (roundMag n d)

/-- ±m·2^e, rounded. -/
def roundDyadic (neg : Bool) (m : Nat) (e : Int) : Word :=
  roundRat neg (m * 2 ^ e.toNat) (2 ^ (-e).toNat)

/-- A signed integer x·2^e, rounded; an exact zero is +0.0. -/
def roundInt (x e : Int) : Word := roundDyadic (decide (x < 0)) x.natAbs e

/-- ±m as an integer. -/
def signed (neg : Bool) (m : Nat) : Int := if neg then -(m : Int) else m

/-- `add(a,b)` (00 R12). An exact zero sum is +0.0, but for the sum of two -0.0 (log 19). -/
def add (a b : Word) : Word :=
  match unpack a, unpack b with
  | .nan, _ => Config.cnan
  | _, .nan => Config.cnan
  | .inf s, .inf t => if s = t then withSign s infMag else Config.cnan
  | .inf s, .fin _ _ _ => withSign s infMag
  | .fin _ _ _, .inf t => withSign t infMag
  | .fin s m e, .fin t m' e' =>
    let e0 := min e e'
    let x := signed s (m * 2 ^ (e - e0).toNat) + signed t (m' * 2 ^ (e' - e0).toNat)
    if x = 0 then withSign (s && t) 0 else roundInt x e0

/-- The sign bit inverted, whatever the word. -/
def flipSign (a : Word) : Word := a ^^^ 0x8000000000000000#64

/-- `neg(a)` (00 R13). -/
def neg (a : Word) : Word := if isNaN a then Config.cnan else flipSign a

/-- `sub(a,b)` (00 R12): IEEE subtraction adds b with its sign inverted. -/
def sub (a b : Word) : Word := add a (flipSign b)

/-- `mul(a,b)` (00 R12). -/
def mul (a b : Word) : Word :=
  match unpack a, unpack b with
  | .nan, _ => Config.cnan
  | _, .nan => Config.cnan
  | .inf s, .inf t => withSign (s != t) infMag
  | .inf s, .fin t m _ => if m = 0 then Config.cnan else withSign (s != t) infMag
  | .fin s m _, .inf t => if m = 0 then Config.cnan else withSign (s != t) infMag
  | .fin s m e, .fin t m' e' => roundDyadic (s != t) (m * m') (e + e')

/-- `div(a,b)` (00 R12). -/
def div (a b : Word) : Word :=
  match unpack a, unpack b with
  | .nan, _ => Config.cnan
  | _, .nan => Config.cnan
  | .inf _, .inf _ => Config.cnan
  | .inf s, .fin t _ _ => withSign (s != t) infMag
  | .fin s _ _, .inf t => withSign (s != t) 0
  | .fin s m e, .fin t m' e' =>
    if m' = 0 then (if m = 0 then Config.cnan else withSign (s != t) infMag)
    else roundRat (s != t) (m * 2 ^ (e - e').toNat) (m' * 2 ^ (e' - e).toNat)

/-- `half(a)` is `div(a, 2.0)` (00 R13). -/
def half (a : Word) : Word := div a Config.two

/-- `i2f(k)`, the binary64 value of the integer k (00 R13). -/
def i2f (k : Int) : Word := roundInt k 0

/-- Position on the number line of a word that is no NaN; both zeros are at 0 (00 R16). -/
def orderKey (v : Word) : Int := signed (signBit v) (v.extractLsb' 0 63).toNat

/-- `a < b`, the IEEE ordered comparison (00 R16). -/
def lt (a b : Word) : Bool := !isNaN a && !isNaN b && decide (orderKey a < orderKey b)

/-- `a <= b`, the IEEE ordered comparison (00 R16). -/
def le (a b : Word) : Bool := !isNaN a && !isNaN b && decide (orderKey a ≤ orderKey b)

/-- `a >= b`, the IEEE ordered comparison (00 R16). -/
def ge (a b : Word) : Bool := le b a

/-- `floorInt(r)`, for finite r the greatest integer not above r (00 R16). No rule uses it on another r; it is 0 there (log 9). -/
def floorInt (r : Word) : Int :=
  match unpack r with
  | .fin s m e => signed s (m * 2 ^ e.toNat) / (2 ^ (-e).toNat : Nat)
  | _ => 0

/-- `f64(d)` for the decimal number d = ±digits·10^exp10: the nearest binary64 value, ties to even (30 R123; log 18). -/
def f64 (neg : Bool) (digits : Nat) (exp10 : Int) : Word :=
  roundRat neg (digits * 10 ^ exp10.toNat) (10 ^ (-exp10).toNat)

end Sys2Proof.Machine.F64
end

