-- ==== Sys2Proof/Machine/Trig.lean ====
section
/-! DEFINITION. FSIN and FCOS, the correctly rounded sine and cosine of 00 R17, computed with integers only.

For a finite argument of magnitude x = m·2^e: θ = x/2^k is small, its sine and cosine come from the Taylor series in
fixed point with P fraction bits, and k doublings of the angle lead back to x. An error bound is carried along. The
rounding is taken when both ends of the enclosure round to the same word, else the precision is raised (log 7). -/

namespace Sys2Proof.Machine.Trig

/-- Approximations `cos`, `sin` of the cosine and the sine, in units of 2^-P, each within `err` units. -/
structure Estimate where
  cos : Int
  sin : Int
  err : Nat
  deriving DecidableEq, Repr

/-- The exponent B with x < 2^B, for x = m·2^e. -/
def magnitude (m : Nat) (e : Int) : Int := m.log2 + 1 + e

/-- How often the angle is halved, so that θ < 2^-8. -/
def halvings (m : Nat) (e : Int) : Nat := (magnitude m e + 8).toNat

/-- The fraction bits P used to get about p good bits. -/
def fracBits (m : Nat) (e : Int) (p : Nat) : Nat := p + 3 * halvings m e + 16 + (-magnitude m e).toNat

/-- `fuel` terms of the Taylor series at θ = m/2^h from term i on: `t` is θ^i/i! in units of 2^-P, rounded down. -/
def taylor (m h : Nat) : (fuel i t : Nat) → (c s : Int) → Int × Int
  | 0, _, _, c, s => (c, s)
  | fuel + 1, i, t, c, s =>
    let c' : Int := if i % 4 = 0 then c + t else if i % 4 = 2 then c - t else c
    let s' : Int := if i % 4 = 1 then s + t else if i % 4 = 3 then s - t else s
    taylor m h fuel (i + 1) (t * m / (2 ^ h * (i + 1))) c' s'

/-- The number of terms used with P fraction bits. -/
def terms (P : Nat) : Nat := P / 8 + 4

/-- Sine and cosine of θ = m/2^h < 2^-8 with P fraction bits: each term is low by less than 2 units, and the rest of the
series is below 2 units. -/
def small (m h P : Nat) : Estimate :=
  let r := taylor m h (terms P) 0 (2 ^ P) 0 0
  { cos := r.1, sin := r.2, err := 2 * terms P + 2 }

/-- From an angle to its double: cos 2θ = 2·cos²θ - 1, sin 2θ = 2·sin θ·cos θ. -/
def double (P : Nat) (a : Estimate) : Estimate :=
  { cos := 2 * a.cos * a.cos / (2 ^ P : Nat) - (2 ^ P : Nat)
    sin := 2 * a.sin * a.cos / (2 ^ P : Nat)
    err := 4 * a.err + 2 * a.err * a.err / 2 ^ P + 2 }

/-- k doublings. -/
def doubles (P : Nat) : (k : Nat) → Estimate → Estimate
  | 0, a => a
  | k + 1, a => doubles P k (double P a)

/-- Sine and cosine of x = m·2^e, m > 0, in units of 2^-(fracBits m e p). -/
def estimate (m : Nat) (e : Int) (p : Nat) : Estimate :=
  let k := halvings m e
  let P := fracBits m e p
  doubles P k (small m (k - e).toNat P)

/-- z·2^-P, brought into [-1, 1] and rounded. -/
def roundFixed (P : Nat) (z : Int) : Word :=
  let y := max (-(2 ^ P : Nat) : Int) (min z (2 ^ P : Nat))
  F64.roundRat (decide (y < 0)) y.natAbs (2 ^ P)

/-- The common rounding of both ends of the enclosure z ± err, if there is one. -/
def agreed (P : Nat) (z : Int) (err : Nat) : Option Word :=
  if roundFixed P (z - err) = roundFixed P (z + err) then some (roundFixed P z) else none

/-- The precisions tried in turn. -/
def precisions : List Nat := [128, 256, 512, 1024, 2048]

/-- The first precision whose enclosure rounds to one word; `pick` takes the sine or the cosine. -/
def certified (m : Nat) (e : Int) (pick : Estimate → Int) : List Nat → Option Word
  | [] => none
  | p :: ps =>
    match agreed (fracBits m e p) (pick (estimate m e p)) (estimate m e p).err with
    | some w => some w
    | none => certified m e pick ps

/-- The rounding of `pick`'s value at m·2^e; should no precision of the list decide it, the rounding of the best estimate (log 7). -/
def value (m : Nat) (e : Int) (pick : Estimate → Int) : Word :=
  match certified m e pick precisions with
  | some w => w
  | none => roundFixed (fracBits m e 4096) (pick (estimate m e 4096))

end Sys2Proof.Machine.Trig

namespace Sys2Proof.Machine.F64

/-- `FSIN(a)` (00 R17): odd in a; ±0.0 at ±0.0; CNAN for a NaN or an infinity. -/
def fsin (a : Word) : Word :=
  match unpack a with
  | .fin neg m e =>
    if m = 0 then a
    else Trig.value m e (fun t => if neg then -t.sin else t.sin)
  | _ => Config.cnan

/-- `FCOS(a)` (00 R17): even in a; 1.0 at ±0.0; CNAN for a NaN or an infinity. -/
def fcos (a : Word) : Word :=
  match unpack a with
  | .fin _ m e =>
    if m = 0 then Config.one
    else Trig.value m e (fun t => t.cos)
  | _ => Config.cnan

end Sys2Proof.Machine.F64
end

