-- ==== Sys2Proof/Machine/Eval.lean ====
section
/-! DEFINITION. EVAL: acceptance (40 R131-R134), iteration steps (R135-R138) and the final step (R139). -/

namespace Sys2Proof.Machine

/-- `w >= 0.0 and w < TWO_PI64` (40 R131). -/
def omegaInRange (w : Word) : Bool := F64.ge w Config.zero && F64.lt w Config.twoPi64

/-- The regime index `floorInt(div(mul(6.0, w), TWO_PI64))` (40 R132). -/
def regimeIndex (w : Word) : Int := F64.floorInt (F64.div (F64.mul Config.six w) Config.twoPi64)

/-- The regime of ω (40 R132). -/
def regimeOf (w : Word) : Regime :=
  if regimeIndex w = 0 then .low else if regimeIndex w = 1 then .mid else .high

/-- The recursion coefficient b (40 R133). -/
def coefficient (r : Regime) (w : Word) : Word :=
  match r with
  | .low =>
    let s := F64.fsin (F64.half w)
    F64.neg (F64.mul Config.four (F64.mul s s))
  | .mid => F64.mul Config.two (F64.fcos w)
  | .high =>
    let c := F64.fcos (F64.half w)
    F64.mul Config.four (F64.mul c c)

/-- `acceptEval(n, w)` (40 R134). -/
def acceptEval (n : Nat) (w : Word) (s : State) : State :=
  { s with
    eN := n
    eW := w
    eReg := regimeOf w
    dbgB := coefficient (regimeOf w) w
    dbgAcc := Config.zero
    dbgP1 := Config.zero
    dbgP2 := Config.zero
    status := s.status.acceptEval (regimeOf w)
    seq := .evalIt 1 }

/-- `EVAL()` while idle: the checks in their order, then acceptance (40 R131, 60 R207). -/
def evalCommand (s : State) : State :=
  if lenOperand s = 0 then rejectEval 3 s
  else if Config.nMax < lenOperand s then rejectEval 4 s
  else if !omegaInRange (omegaOperand s) then rejectEval 5 s
  else acceptEval (lenOperand s) (omegaOperand s) s

/-- EVAL, in the CMD write transaction (40 R130, R131). -/
def execEval (s : State) : Host.Outcome State Fault Refusal :=
  .next (unlessBusy evalCommand s)

/-- The recursion state: DBG_ACC, DBG_P1, DBG_P2 (00 R21). -/
structure Recursion where
  acc : Word
  p1 : Word
  p2 : Word
  deriving DecidableEq, Repr

/-- LOW iteration (40 R136, 90 C1). -/
def iterLow (b x : Word) (r : Recursion) : Recursion :=
  let a := F64.add (F64.add x (F64.mul b r.p1)) r.acc
  { acc := a, p1 := F64.add a r.p1, p2 := r.p1 }

/-- MID iteration (40 R137). -/
def iterMid (b x : Word) (r : Recursion) : Recursion :=
  let a := F64.sub (F64.add x (F64.mul b r.p1)) r.p2
  { acc := a, p1 := a, p2 := r.p1 }

/-- HIGH iteration (40 R138, 90 C1). -/
def iterHigh (b x : Word) (r : Recursion) : Recursion :=
  let a := F64.sub (F64.add x (F64.mul b r.p1)) r.acc
  { acc := a, p1 := F64.sub a r.p1, p2 := r.p1 }

/-- The iteration of a regime. -/
def iterate (reg : Regime) (b x : Word) (r : Recursion) : Recursion :=
  match reg with
  | .low => iterLow b x r
  | .mid => iterMid b x r
  | .high => iterHigh b x r

/-- The recursion state a machine holds. -/
def recursionOf (s : State) : Recursion := { acc := s.dbgAcc, p1 := s.dbgP1, p2 := s.dbgP2 }

/-- `EVAL_IT(k+1)` if k < E_N, else `EVAL_FIN` (40 R135). -/
def nextEval (n k : Nat) : Seq := if k < n then .evalIt (k + 1) else .evalFin

/-- The step at SEQ = EVAL_IT(k): it reads S[E_N - k] and nothing else from memory (40 R135-R138, 20 R95). -/
def evalIter (k : Nat) (s : State) : State :=
  let (x, s) := readEntry (sAddr (s.eN - k)) s
  let r := iterate s.eReg s.dbgB x (recursionOf s)
  { s with dbgAcc := r.acc, dbgP1 := r.p1, dbgP2 := r.p2, seq := nextEval s.eN k }

/-- The step at SEQ = EVAL_FIN (40 R139). -/
def evalFinal (s : State) : State :=
  { s with
    cosOut := F64.sub s.dbgAcc (F64.div (F64.mul s.dbgB s.dbgP2) Config.two)
    sinOut := F64.mul (F64.neg (F64.fsin s.eW)) s.dbgP2
    status := s.status.finishEval
    seq := .idle }

end Sys2Proof.Machine
end

