-- ==== Sys2Proof/Machine/Gen.lean ====
section
/-! DEFINITION. GEN: acceptance (41 R161), point steps (R162-R168) and the final step (R170). -/

namespace Sys2Proof.Machine

/-- NPT(l) = 4·2^l (41 R162, 00 R8). -/
def npt (l : Nat) : Nat := 4 * 2 ^ l

/-- The inclusive series bound L (41 R162, 90 C6). -/
def seriesBound (l : Nat) : Nat := if l = 0 then 4 else npt l - 2

/-- half = n/2 (41 R162). -/
def halfPoints (l : Nat) : Nat := npt l / 2

/-- The series term of the even number k (41 R164). -/
def seriesTerm (t : Word) (k : Nat) : Word :=
  F64.div (F64.mul (if k = 0 then Config.two else Config.four) (F64.fcos (F64.mul (F64.i2f k) t)))
    (F64.i2f (1 - (k : Int) * k))

/-- `series(t, L)`: from +0.0, even k ascending, L inclusive (41 R164, 90 C6). -/
def series (t : Word) (L : Nat) : Word :=
  (List.range (L / 2 + 1)).foldl (fun acc j => F64.add acc (seriesTerm t (2 * j))) Config.zero

/-- t = i·π/n (41 R163). -/
def gridAngle (l i : Nat) : Word := F64.div (F64.mul (F64.i2f i) Config.pi64) (F64.i2f (npt l))

/-- The series at a grid point after end-point halving (41 R163-R165). -/
def pointSum (l i : Nat) : Word :=
  let sum := series (gridAngle l i) (seriesBound l)
  if i = 0 ∨ i = halfPoints l then F64.mul sum Config.half else sum

/-- SINE_WEIGHTED abscissa (41 R166). -/
def sineAbscissa (t : Word) : Word := F64.mul Config.half (F64.add Config.one (F64.fcos t))

/-- SINE_WEIGHTED weight (41 R166). -/
def sineWeight (sum : Word) (n : Nat) : Word := F64.div (F64.mul Config.half sum) (F64.i2f n)

/-- t' = π/2·(1 + cos t) (41 R167). -/
def remap (t : Word) : Word := F64.mul Config.halfPi64 (F64.add Config.one (F64.fcos t))

/-- COSINE_WEIGHTED abscissa (41 R167). -/
def cosineAbscissa (t : Word) : Word := F64.mul Config.half (F64.add Config.one (F64.fcos (remap t)))

/-- COSINE_WEIGHTED weight: the sum rescaled by 0.5·sin(t')·π, left to right (41 R167). -/
def cosineWeight (t sum : Word) (n : Nat) : Word :=
  let sum2 := F64.mul (F64.mul (F64.mul sum Config.half) (F64.fsin (remap t))) Config.pi64
  F64.div (F64.mul Config.half sum2) (F64.i2f n)

/-- `writeSine` (41 R166). -/
def writeSine (l i : Nat) (s : State) : State :=
  writeW l i (sineWeight (pointSum l i) (npt l)) (writeX i (sineAbscissa (gridAngle l i)) s)

/-- `writeCosine` (41 R167). -/
def writeCosine (l i : Nat) (s : State) : State :=
  writeW l i (cosineWeight (gridAngle l i) (pointSum l i) (npt l)) (writeX i (cosineAbscissa (gridAngle l i)) s)

/-- SEQ after a grid point (41 R163). -/
def nextPoint (l i : Nat) : Seq :=
  if i < halfPoints l then .genPt l (i + 1) else if l < 7 then .genPt (l + 1) 0 else .genFin

/-- The writes of a grid point; an unselected kind writes nothing (41 R163, R168). -/
def pointWrites (l i : Nat) (s : State) : State :=
  if s.gKind = 2 then writeCosine l i s else if s.gKind = 1 then writeSine l i s else s

/-- The step at SEQ = GEN_PT(l, i) (41 R163). -/
def genPoint (l i : Nat) (s : State) : State :=
  { pointWrites l i s with seq := nextPoint l i }

/-- The step at SEQ = GEN_FIN (41 R170). -/
def genFinal (s : State) : State := { s with status := s.status.finishGen, seq := .idle }

/-- `GEN()` while idle (41 R161). -/
def acceptGen (s : State) : State :=
  { s with
    gKind := kindOperand s
    mem := zeroTables s.mem
    status := s.status.acceptGen (kindOperand s)
    seq := .genPt 0 0 }

/-- GEN, in the CMD write transaction (41 R160, R161). -/
def execGen (s : State) : Host.Outcome State Fault Refusal :=
  .next (unlessBusy acceptGen s)

end Sys2Proof.Machine
end

