-- ==== Sys2Proof/Machine/Dispatch.lean ====
section
/-! DEFINITION. One arm per command (30 R117). -/

namespace Sys2Proof.Machine

def exec (i : Instr) (s : State) : Host.Outcome State Fault Refusal :=
  match i with
  | .nop => Sys2Proof.Machine.execNop s
  | .eval => Sys2Proof.Machine.execEval s
  | .gen => Sys2Proof.Machine.execGen s
  | .srst => Sys2Proof.Machine.execSrst s

end Sys2Proof.Machine
end

