-- ==== Sys2Proof/Machine/Bus.lean ====
section
/-! DEFINITION. Host transactions: reads (20 R90), writes (R91) and the issue of a command word (30 R117). -/

namespace Sys2Proof.Machine

/-- A word that is no command: dropped while busy, else rejected with its code (30 R114, R115, R117; 42 R192, R193). -/
def issueReserved (r : Reserved) (s : State) : State := unlessBusy (reject r.code) s

/-- `issue(c)` (30 R117). The busy test of the commands other than SRST stands in their meanings. -/
def issue (c : Word) (s : State) : Host.Outcome State Fault Refusal :=
  match decode c with
  | .ok i => exec i s
  | .error r => .next (issueReserved r s)

/-- What a register reads as while the running command does not write it (20 R90, 10 R32). -/
def regValue (r : Reg) (s : State) : Word :=
  match r with
  | .id => Config.idWord
  | .cap => Config.capWord
  | .cmd => 0
  | .status => s.status.toWord
  | .ie => low3 s.ie
  | .omega => s.omega
  | .len => low32 s.len
  | .kind => low32 s.kind
  | .cosOut => s.cosOut
  | .sinOut => s.sinOut
  | .dbgAcc => s.dbgAcc
  | .dbgP1 => s.dbgP1
  | .dbgP2 => s.dbgP2
  | .dbgB => s.dbgB

/-- The registers an EVAL writes its results to: any value while SEQ is an EVAL phase (20 R97). -/
def Reg.isResult : Reg → Bool
  | .cosOut | .sinOut | .dbgAcc | .dbgP1 | .dbgP2 | .dbgB => true
  | _ => false

/-- The read of a register (20 R90, R97). -/
def readReg (r : Reg) (s : State) : Word × State :=
  if r.isResult && s.seq.isEval then anyValue s else (regValue r s, s)

/-- The read of a table entry: any value while SEQ is a GEN phase (20 R97, R98). -/
def readTable (a : Nat) (s : State) : Word × State :=
  if s.seq.isGen then anyValue s else readEntry a s

/-- The read of a region (20 R90). -/
def readRegion (r : Region) (s : State) : Word × State :=
  match r with
  | .reg r => readReg r s
  | .x i => readTable (xAddr i) s
  | .w l i => readTable (wAddr l i) s
  | .s j => readEntry (sAddr j) s
  | .reserved => (0, s)

/-- `MemRead(a, 8)`, one atomic transaction (20 R90). -/
def hostRead (a : Offset) (s : State) : State :=
  if misaligned a then busError s
  else
    let (v, s) := readRegion (region a) s
    respond v s

/-- The write of a register, after the checks of alignment and strobes (20 R91, 10 R32). -/
def writeReg (r : Reg) (v : Word) (s : State) : Host.Outcome State Fault Refusal :=
  match r with
  | .id | .cap | .cosOut | .sinOut | .dbgAcc | .dbgP1 | .dbgP2 | .dbgB => .next (busError s)
  | .cmd => issue v (respond 0 s)
  | .status => .next (respond 0 { s with status := s.status.w1c v })
  | .ie => .next (respond 0 { s with ie := low3 v })
  | .omega => .next (respond 0 (inputWrite (fun s => { s with omega := v }) s))
  | .len => .next (respond 0 (inputWrite (fun s => { s with len := low32 v }) s))
  | .kind => .next (respond 0 (inputWrite (fun s => { s with kind := low32 v }) s))

/-- The write of a region (20 R91, R85). -/
def writeRegion (r : Region) (v : Word) (s : State) : Host.Outcome State Fault Refusal :=
  match r with
  | .reg r => writeReg r v s
  | .x _ => .next (busError s)
  | .w _ _ => .next (busError s)
  | .s j => .next (respond 0 (inputWrite (writeS j v) s))
  | .reserved => .next (respond 0 s)

/-- `MemWrite(a, 8, v)`, one atomic transaction; the checks in the order of 60 R208 (20 R91). -/
def hostWrite (a : Offset) (v : Word) (strb : BitVec 8) (s : State) : Host.Outcome State Fault Refusal :=
  if misaligned a then .next (busError s)
  else if strb ≠ 0xFF then .next (busError s)
  else writeRegion (region a) v s

/-- The host's next transaction, if one is pending (20 R100). A poll that has not matched stays pending (30 R123; log 13). -/
def hostTurn (s : State) : Host.Outcome State Fault Refusal :=
  match s.host with
  | [] => .next s
  | .write a v strb :: rest => hostWrite a v strb { s with host := rest }
  | .read a name :: rest => .next (bindName name (hostRead a { s with host := rest }))
  | .poll a m e :: rest =>
    let t := hostRead a s
    if lastData t &&& m = e then .next { t with host := rest } else .next t

end Sys2Proof.Machine
end

