-- ==== Sys2Proof/Machine/Engine.lean ====
section
/-! DEFINITION. The engine's step, by SEQ (10 R60). -/

namespace Sys2Proof.Machine

/-- One engine step; with SEQ = IDLE there is none (10 R60). -/
def engineStep (s : State) : State :=
  match s.seq with
  | .idle => s
  | .evalIt k => evalIter k s
  | .evalFin => evalFinal s
  | .genPt l i => genPoint l i s
  | .genFin => genFinal s

end Sys2Proof.Machine
end

