-- ==== Sys2Proof/Machine/Step.lean ====
section
/-! DEFINITION. One step of the system: a host transaction, an engine step, or a change of the reset pin (20 R100). -/

namespace Sys2Proof.Machine

/-- The turn of one agent. While `rst_n` is low a transaction waits and the engine takes no step (70 R232); the reset
takes its effect when `rst_n` goes low (70 R230, R231; log 11). -/
def takeTurn (t : Turn) (s : State) : Host.Outcome State Fault Refusal :=
  match t with
  | .host => if s.rstN then hostTurn s else .next s
  | .engine => if s.rstN then .next (engineStep s) else .next s
  | .rstLow => .next { resetCore s with rstN := false }
  | .rstHigh => .next { s with rstN := true }

/-- The turn when the schedule names none: the engine's while it runs (the fairness of 70 R250), else the host's (log 1). -/
def defaultTurn (s : State) : Turn := if s.seq = .idle then .host else .engine

/-- The scheduled turn, or the default one (20 R100; log 1). -/
def step (s : State) : Host.Outcome State Fault Refusal :=
  match s.turns with
  | [] => takeTurn (defaultTurn s) s
  | t :: ts => takeTurn t { s with turns := ts }

/-- The command word `w` placed as the host's very next transaction, a full write of CMD, and the next turn the host's
(00 R7, 30 R117; log 2). -/
def State.withFetchWord (s : State) (nbits w : Nat) : State :=
  { s with
    rstN := true
    turns := .host :: s.turns
    host := .write (regOffset .cmd) (BitVec.ofNat 64 (w % 2 ^ nbits)) 0xFF :: s.host }

end Sys2Proof.Machine
end

