-- ==== Sys2Proof/Safety.lean ====
section
/-! DEFINITION. What holds of MT-CORE in every state a run reaches: the invariant, and the runs of the engine. -/

namespace Sys2Proof.Machine

/-- A byte address of X, W or S (20 R82-R84). -/
def inStorage (a : Nat) : Bool :=
  (0x01000 ≤ a && a < 0x01808) ||
  (0x08000 ≤ a && a < 0x10000 && a % 0x1000 < 0x808) ||
  (0x10000 ≤ a && a < 0x10000 + 8 * Config.nMax)

/-- An entry that holds a defined value (20 R98). -/
def written (m : Memory) (a : Nat) : Prop := (m.readWord a).isSome = true

/-- Every entry of X and W holds a defined value. -/
def tablesWritten (m : Memory) : Prop :=
  (∀ i, i < Config.tableW → written m (xAddr i)) ∧
  (∀ l i, l < Config.levels → i < Config.tableW → written m (wAddr l i))

/-- No entry of X or W holds a NaN other than CNAN (00 R14). -/
def tablesCanonical (m : Memory) : Prop :=
  (∀ i v, i < Config.tableW → m.readWord (xAddr i) = some v → F64.canon v = v) ∧
  (∀ l i v, l < Config.levels → i < Config.tableW → m.readWord (wAddr l i) = some v → F64.canon v = v)

/-- SEQ holds one of the values of 10 R60. -/
def seqInRange (s : State) : Prop :=
  match s.seq with
  | .idle => True
  | .evalIt k => 1 ≤ k ∧ k ≤ s.eN ∧ s.eN ≤ Config.nMax
  | .evalFin => 1 ≤ s.eN ∧ s.eN ≤ Config.nMax
  | .genPt l i => l ≤ 7 ∧ i ≤ halfPoints l
  | .genFin => True

/-- What every run keeps. -/
structure State.Inv (s : State) : Prop where
  /-- Memory is in its canonical form. -/
  memWf : s.mem.wf
  /-- Only S, X and W hold bytes (20 R81). -/
  memMapped : ∀ c ∈ s.mem, inStorage c.1 = true
  /-- Entries are written whole (20 R87, R94). -/
  memWhole : ∀ c ∈ s.mem, ∀ j < 8, (s.mem.readByte (c.1 / 8 * 8 + j)).isSome = true
  /-- BUSY = 1 exactly when SEQ is not IDLE (10 R60). -/
  busySeq : s.status.busy = true ↔ s.seq ≠ .idle
  /-- SEQ is in range (10 R60, R61). -/
  seqOk : seqInRange s
  /-- A running command has neither DONE nor ERR set (10 R38, R39). -/
  busyClean : s.status.busy = true → s.status.done = false ∧ s.status.err = false
  /-- ERRCODE is 0 exactly while ERR = 0 (10 R39, 60 R200). -/
  errCode : s.status.err = false ↔ s.status.errcode = 0
  /-- Codes 6 to 15 are never produced (60 R200). -/
  errRange : s.status.errcode.toNat ≤ 5
  /-- TKIND 3 never occurs (30 R118), and ZK goes with TKIND 0 (10 R41). -/
  tkindOk : s.status.tkind ≠ 3 ∧ (s.status.zk = true → s.status.tkind = 0)
  /-- RV says COS_OUT and SIN_OUT are of an EVAL with a regime (10 R40, R42). -/
  rvRegime : s.status.rv = true → s.status.regime ≠ 3
  /-- During an EVAL: RV = 0 and REGIME mirrors E_REG (10 R40, R61). -/
  evalPhase : s.seq.isEval = true → s.status.rv = false ∧ s.status.regime = s.eReg.code
  /-- During a GEN: TV = 0, and TKIND and ZK are those of G_KIND (10 R41). -/
  genPhase : s.seq.isGen = true →
    s.status.tv = false ∧ s.status.tkind = tkindOf s.gKind ∧ s.status.zk = !selected s.gKind
  /-- Reserved register bits read 0 (10 R45, R47, R48). -/
  reserved : low3 s.ie = s.ie ∧ low32 s.len = s.len ∧ low32 s.kind = s.kind
  /-- Every NaN in a result register is CNAN (00 R14). -/
  canonRegs : F64.canon s.cosOut = s.cosOut ∧ F64.canon s.sinOut = s.sinOut ∧ F64.canon s.dbgAcc = s.dbgAcc ∧
    F64.canon s.dbgP1 = s.dbgP1 ∧ F64.canon s.dbgP2 = s.dbgP2 ∧ F64.canon s.dbgB = s.dbgB
  /-- Every NaN in X and W is CNAN (00 R14). -/
  canonTables : tablesCanonical s.mem
  /-- From a GEN's acceptance on, X and W are written (20 R98). -/
  genWritten : s.status.tv = true ∨ s.seq.isGen = true → tablesWritten s.mem
  /-- While `rst_n` is low the machine stands at its reset values (70 R231, R232): the reset takes effect at the low edge
(log 11), and the latches E_N, E_W, E_REG and G_KIND stand at the values of log 3. -/
  inReset : s.rstN = false → resetCore s = s

/-- `n` engine steps in a row (10 R60). -/
def engineSteps : Nat → State → State
  | 0, s => s
  | n + 1, s => engineSteps n (engineStep s)

/-- The recursion of 40 R134-R138 over samples in processing order. -/
def recursionOver (r : Regime) (b : Word) (xs : List Word) : Recursion :=
  xs.foldl (fun st x => iterate r b x st) { acc := Config.zero, p1 := Config.zero, p2 := Config.zero }

/-! What the next step does, for the rules about the whole machine. -/

/-- The turn the next step takes. -/
def nextTurn (s : State) : Turn :=
  match s.turns with
  | [] => defaultTurn s
  | t :: _ => t

/-- The next step is a host transaction (70 R232: none while `rst_n` is low). -/
def nextIsHost (s : State) : Prop := s.rstN = true ∧ nextTurn s = .host

/-- The next step is an engine step (70 R232: none while `rst_n` is low). -/
def nextIsEngine (s : State) : Prop := s.rstN = true ∧ nextTurn s = .engine

/-- The next step is the write of `v` at offset `a`, aligned and with all strobes (20 R88, R89). -/
def nextWrites (s : State) (a : Nat) (v : Word) : Prop :=
  nextIsHost s ∧ a % 8 = 0 ∧ ∃ o rest, o.toNat = a ∧ s.host = .write o v 0xFF :: rest

/-- The next step is a reset: `rst_n` goes low, or the SRST word is written to CMD (70 R230). -/
def nextResets (s : State) : Prop := nextTurn s = .rstLow ∨ nextWrites s 0x10 0x5A

/-- The reserved offsets (20 R81, R84, R85). -/
def reservedOffset (a : Nat) : Prop :=
  a % 8 = 0 ∧ ((0x70 ≤ a ∧ a < 0x1000) ∨ (0x1808 ≤ a ∧ a < 0x8000) ∨
    (0x8000 ≤ a ∧ a < 0x10000 ∧ 0x808 ≤ a % 0x1000) ∨ (0x18000 ≤ a ∧ a < 0x20000))

/-- The read-only locations among the aligned offsets: ID, CAP, COS_OUT to DBG_B, X and W (20 R91). -/
def readOnlyOffset (a : Nat) : Prop :=
  a = 0x00 ∨ a = 0x08 ∨ (0x40 ≤ a ∧ a ≤ 0x68) ∨ (0x1000 ≤ a ∧ a ≤ 0x1800) ∨
    (0x8000 ≤ a ∧ a < 0x10000 ∧ a % 0x1000 ≤ 0x800)

/-- The host's next transaction gets an error response: it is misaligned, partial or read-only (60 R205). -/
def errorAtHead (s : State) : Prop :=
  match s.host with
  | [] => False
  | .write a _ strb :: _ => a.toNat % 8 ≠ 0 ∨ strb ≠ 0xFF ∨ readOnlyOffset a.toNat
  | .read a _ :: _ => a.toNat % 8 ≠ 0
  | .poll a _ _ :: _ => a.toNat % 8 ≠ 0

/-- The frequencies EVAL accepts, by their bits: -0.0, and +0.0 up to the value below TWO_PI64 (40 R131). -/
def omegaLegal (w : Word) : Prop := w = 0x8000000000000000#64 ∨ w.toNat < 0x401921FB54442D18

/-- EVAL would be accepted, and its n samples S[0..n-1] are `v` (40 R131, R135). -/
structure EvalReady (s : State) (n : Nat) (v : Nat → Word) : Prop where
  idle : s.status.busy = false
  len : s.len.toNat % 2 ^ 32 = n
  atLeastOne : 1 ≤ n
  atMostNMax : n ≤ 4096
  omega : omegaLegal s.omega
  samples : ∀ j, j < n → s.mem.readWord (0x10000 + 8 * j) = some (v j)

namespace F64

/-- `v` is the real number `x` rounded to nearest, ties to even, into binary64 with subnormals and infinities (00 R12, R15):
from 2^1024 - 2^970 on, half a unit beyond the largest finite value, it is infinite. -/
structure RoundsTo (x : Rat) (v : Word) : Prop where
  overflowUp : (2 : Rat) ^ 1024 - 2 ^ 970 ≤ x → v = 0x7FF0000000000000#64
  overflowDown : x ≤ -((2 : Rat) ^ 1024 - 2 ^ 970) → v = 0xFFF0000000000000#64
  finite : |x| < (2 : Rat) ^ 1024 - 2 ^ 970 → isFinite v = true
  nearest : |x| < (2 : Rat) ^ 1024 - 2 ^ 970 → ∀ u, isFinite u = true → |toRat v - x| ≤ |toRat u - x|
  even : |x| < (2 : Rat) ^ 1024 - 2 ^ 970 → ∀ u, isFinite u = true → |toRat u - x| = |toRat v - x| →
    toRat u ≠ toRat v → v.getLsbD 0 = false
  signPos : 0 < x → signBit v = false
  signNeg : x < 0 → signBit v = true

end F64

end Sys2Proof.Machine
end

