-- ==== Sys2Proof/Machine/Script.lean ====
section
/-! DEFINITION. The host script of 30 R121-R124: targets, statements, pseudo-instructions, and the transactions they stand for. -/

namespace Sys2Proof.Machine

/-- A target (30 R122). -/
inductive Target where
  | reg (r : Reg)
  | s (j : Nat)
  | x (i : Nat)
  | w (l i : Nat)
  /-- `@0xNNNNN` -/
  | raw (n : Nat)
  deriving DecidableEq, Repr

/-- A statement or a pseudo-instruction (30 R123, R124). -/
inductive Stmt where
  | wr (t : Target) (v : Word)
  /-- `rd T -> name` -/
  | rd (t : Target) (name : String)
  | poll (t : Target) (m e : Word)
  | cmd (i : Instr)
  | wait
  | clrst
  | ldS (vs : List Word)
  deriving DecidableEq, Repr

/-- The offset a target stands for (30 R122). -/
def Target.offset : Target → Offset
  | .reg r => regOffset r
  | .s j => BitVec.ofNat 17 (sAddr j)
  | .x i => BitVec.ofNat 17 (xAddr i)
  | .w l i => BitVec.ofNat 17 (wAddr l i)
  | .raw n => BitVec.ofNat 17 n

/-- `wr T, V`: a write with all strobes (30 R123). -/
def wrOp (t : Target) (v : Word) : HostOp := .write t.offset v 0xFF

/-- `ldS v0, v1, ...`, from S[j] on (30 R124). -/
def ldSOps : Nat → List Word → List HostOp
  | _, [] => []
  | j, v :: vs => wrOp (.s j) v :: ldSOps (j + 1) vs

/-- The transactions of a statement (30 R123, R124). -/
def Stmt.ops : Stmt → List HostOp
  | .wr t v => [wrOp t v]
  | .rd t name => [.read t.offset name]
  | .poll t m e => [.poll t.offset m e]
  | .cmd i => [wrOp (.reg .cmd) (encode i)]
  | .wait => [.poll (regOffset .status) 0x1 0x0]
  | .clrst => [wrOp (.reg .status) 0x70006]
  | .ldS vs => ldSOps 0 vs

/-- The transactions of a script. -/
def scriptOps (p : List Stmt) : List HostOp := p.flatMap Stmt.ops

end Sys2Proof.Machine
end

