-- ==== Sys2Proof/WellFormed.lean ====
section
/-! DEFINITION. Well-formed commands and well-formed script statements. -/

namespace Sys2Proof

/-- A command has no operand that could be wrong (30 R112), so every command is well-formed. -/
def Instr.wellFormed : Instr → Bool
  | .nop => true
  | .eval => true
  | .gen => true
  | .srst => true

namespace Machine

/-- The indexes of 20 R82-R84 and the 17-bit offsets of R80. -/
def Target.wellFormed : Target → Bool
  | .reg _ => true
  | .s j => j < Config.nMax
  | .x i => i < Config.tableW
  | .w l i => l < Config.levels && i < Config.tableW
  | .raw n => n < 2 ^ 17

/-- A statement whose targets are (30 R122-R124); `ldS` writes at least one sample and no more than S holds. -/
def Stmt.wellFormed : Stmt → Bool
  | .wr t _ => t.wellFormed
  | .rd t _ => t.wellFormed
  | .poll t _ _ => t.wellFormed
  | .cmd i => i.wellFormed
  | .wait => true
  | .clrst => true
  | .ldS vs => 0 < vs.length && vs.length ≤ Config.nMax

end Machine

end Sys2Proof
end

