-- ==== Sys2Proof/Certificates/Slice0/Obligations.lean ====
section
/-! DEFINITION. The statements about MT-CORE, from the spec's numbered rules. -/

open Sys2Proof Sys2Proof.Machine

/-! ## Encoding -/

/-- 30 R113-R115: each command is one exact 64-bit word; every other word is reserved, by name. Decoding and encoding agree,
on words and on bytes. -/
def Obligations.DecodeAndEncodeAgree : Prop :=
  (∀ (c : Word) (i : Instr), decode c = .ok i ↔ c = encode i) ∧
  (∀ c : Word, decode c = .error .cmdRsvd ↔ 0x100 ≤ c.toNat) ∧
  (∀ c : Word, decode c = .error .badOpcode ↔
    c.toNat < 0x100 ∧ c.toNat ≠ 0x00 ∧ c.toNat ≠ 0x01 ∧ c.toNat ≠ 0x02 ∧ c.toNat ≠ 0x5A) ∧
  (∀ bs i, decodeBytes bs = .ok i ↔ bs = wordBytes (encode i))

/-- 30 R113: the four words written out. -/
def Obligations.CommandWordsDecode : Prop :=
  decode 0x0000000000000000 = .ok .nop ∧ decode 0x0000000000000001 = .ok .eval ∧
  decode 0x0000000000000002 = .ok .gen ∧ decode 0x000000000000005A = .ok .srst

/-- 30 R124: the pseudo-instructions and their expansions; before them, the transactions of the statements of R123. -/
def Obligations.PseudoInstructionsExpand : Prop :=
  (∀ (t : Target) (v : Word), Stmt.ops (.wr t v) = [.write t.offset v 0xFF]) ∧
  (∀ (t : Target) (name : String), Stmt.ops (.rd t name) = [.read t.offset name]) ∧
  (∀ (t : Target) (m e : Word), Stmt.ops (.poll t m e) = [.poll t.offset m e]) ∧
  Stmt.ops (.cmd .nop) = [.write 0x00010 0x0000000000000000 0xFF] ∧
  Stmt.ops (.cmd .eval) = [.write 0x00010 0x0000000000000001 0xFF] ∧
  Stmt.ops (.cmd .gen) = [.write 0x00010 0x0000000000000002 0xFF] ∧
  Stmt.ops (.cmd .srst) = [.write 0x00010 0x000000000000005A 0xFF] ∧
  Stmt.ops .wait = [.poll 0x00018 0x0000000000000001 0x0000000000000000] ∧
  Stmt.ops .clrst = [.write 0x00018 0x0000000000070006 0xFF] ∧
  (∀ vs : List Word, vs.length ≤ 4096 →
    Stmt.ops (.ldS vs) =
      (List.range vs.length).map (fun j => HostOp.write (BitVec.ofNat 17 (0x10000 + 8 * j)) (vs.getD j 0) 0xFF))

/-! ## Reset -/

/-- 10 R65: what the hardware reset and SRST leave. That the reset values stand once `rst_n` has gone low is the model's choice
(log 11), that memory then lists nothing is its form of "unspecified" (log 4), and irq = 0 is derived in R65 itself. -/
def Obligations.ResetSetsEveryElement : Prop :=
  ∀ s t : State, (t = State.reset ∨ takeTurn .rstLow s = .next t ∨ exec .srst s = .next t) →
    regValue .id t = 0x474F455200070001 ∧ regValue .cap t = 0x0001010800001000 ∧
    t.status.toWord = 0x0000000000006000 ∧ t.ie = 0 ∧ t.omega = 0 ∧ t.len = 0 ∧ t.kind = 0 ∧
    t.cosOut = 0 ∧ t.sinOut = 0 ∧ t.dbgAcc = 0 ∧ t.dbgP1 = 0 ∧ t.dbgP2 = 0 ∧ t.dbgB = 0 ∧
    t.seq = .idle ∧ t.irq = false ∧ ∀ a, t.mem.readByte a = none

/-- 42 R191: SRST acts in the write that carries it, busy or not: OKAY response, the reset values, no further engine step. No
other word is SRST. That it keeps the pin, the host's queue, the schedule, the last response, the names and the count of draws
is the model's choice (log 6, 11, 21). -/
def Obligations.SrstAbandonsAndResets : Prop :=
  (∀ s : State, ∃ t, exec .srst s = .next t ∧
    t.status.toWord = 0x0000000000006000 ∧ t.ie = 0 ∧ t.omega = 0 ∧ t.len = 0 ∧ t.kind = 0 ∧
    t.cosOut = 0 ∧ t.sinOut = 0 ∧ t.dbgAcc = 0 ∧ t.dbgP1 = 0 ∧ t.dbgP2 = 0 ∧ t.dbgB = 0 ∧
    t.seq = .idle ∧ engineStep t = t ∧ (∀ a, t.mem.readByte a = none) ∧
    t.rstN = s.rstN ∧ t.host = s.host ∧ t.turns = s.turns ∧ t.lastRsp = s.lastRsp ∧ t.names = s.names ∧
    t.draws = s.draws) ∧
  (∀ s : State, hostWrite 0x00010 0x5A 0xFF s =
    exec .srst { s with lastRsp := some { err := false, rdata := 0 } }) ∧
  (∀ c : Word, c ≠ 0x5A → decode c ≠ .ok .srst) ∧
  (∀ (c : Word) (s : State), c.toNat % 0x100 = 0x5A → 0x100 ≤ c.toNat → s.status.busy = false →
    issue c s = .next { s with status := { s.status with done := true, err := true, errcode := 2 } })

/-- 70 R232: while `rst_n` is low neither agent moves; when it rises, the next transaction sees the reset state. The reading
of the pin as a level in the schedule is the model's (log 11). -/
def Obligations.HeldResetStopsBothAgents : Prop :=
  (∀ s : State, s.rstN = false → takeTurn .host s = .next s ∧ takeTurn .engine s = .next s) ∧
  (∀ s : State, s.Inv → s.rstN = false → ∃ t, takeTurn .rstHigh s = .next t ∧ t.rstN = true ∧
    t.status.toWord = 0x0000000000006000 ∧ t.ie = 0 ∧ t.omega = 0 ∧ t.len = 0 ∧ t.kind = 0 ∧ t.cosOut = 0 ∧
    t.sinOut = 0 ∧ t.dbgAcc = 0 ∧ t.dbgP1 = 0 ∧ t.dbgP2 = 0 ∧ t.dbgB = 0 ∧ t.seq = .idle ∧ t.mem = [])

/-! ## The invariant and the step -/

/-- The invariant of Safety.lean holds at reset. -/
def Obligations.InvHoldsAtReset : Prop := State.reset.Inv

/-- Every step keeps the invariant, from every state that has it. Its clause inReset (70_reset_and_hazards.md section 1) rests
on two choices of the model: the reset takes effect when `rst_n` goes low (log 11), and E_N, E_W, E_REG and G_KIND stand at the
values of log 3 after it. -/
def Obligations.StepKeepsInv : Prop := ∀ s t : State, s.Inv → step s = .next t → t.Inv

/-- 60 R203: nothing stops the machine; every step answers a next state. That an idle turn answers the state itself is the
model's choice (log 20), and so is going on over an unwritten sample, where 20 R98 lets a model fault (log 4). -/
def Obligations.StepAlwaysAnswersNext : Prop := ∀ s : State, ∃ t, step s = .next t

/-- At the host's turn the step is the host's next transaction, taken off the queue, with the turn off the schedule: a write of a
word to CMD that decodes to i is exec of i after the OKAY response; any write is hostWrite; a read is hostRead and binds its
name to the data (30 R123; log 21); a poll is one read and stays pending until its test holds (30 R123; log 13); with nothing
pending nothing happens (log 20). -/
def Obligations.StepRunsDecodedCommand : Prop :=
  ∀ s : State, nextIsHost s →
    let taken : List HostOp → State := fun rest => { s with turns := s.turns.tail, host := rest }
    (∀ w i rest, s.host = .write 0x00010 w 0xFF :: rest → decode w = .ok i →
      step s = exec i { taken rest with lastRsp := some { err := false, rdata := 0 } }) ∧
    (∀ a v strb rest, s.host = .write a v strb :: rest → step s = hostWrite a v strb (taken rest)) ∧
    (∀ a name rest, s.host = .read a name :: rest →
      ∃ r, (hostRead a (taken rest)).lastRsp = some r ∧
        step s = .next { hostRead a (taken rest) with
          names := (name, r.rdata) :: s.names.filter (fun b => b.1 != name) }) ∧
    (∀ a m e rest, s.host = .poll a m e :: rest →
      ∃ r, (hostRead a (taken s.host)).lastRsp = some r ∧
        step s = .next (if r.rdata &&& m = e then { hostRead a (taken s.host) with host := rest }
          else hostRead a (taken s.host))) ∧
    (s.host = [] → step s = .next (taken []))

/-- The step runs the engine's step when the turn is the engine's. -/
def Obligations.StepRunsEngineStep : Prop :=
  ∀ s : State, nextIsEngine s → step s = .next (engineStep { s with turns := s.turns.tail })

/-- A command word placed by withFetchWord is what the very next step runs (the model's own way of loading a command, log 2). -/
def Obligations.PlacedCommandRunsNext : Prop :=
  ∀ (s : State) (i : Instr), step (s.withFetchWord 64 (encode i).toNat) =
    exec i { s with rstN := true, lastRsp := some { err := false, rdata := 0 } }

/-! ## NOP, reserved words and commands while busy -/

/-- 42 R190: NOP while idle. -/
def Obligations.NopSetsDone : Prop :=
  ∀ s : State, s.status.busy = false →
    exec .nop s = .next { s with status := { s.status with done := true, err := false, errcode := 0 } }

/-- 30 R117: the order of the tests of `issue(c)`. -/
def Obligations.IssueFollowsItsOrder : Prop :=
  ∀ (c : Word) (s : State), issue c s =
    if c = 0x000000000000005A then exec .srst s
    else if s.status.busy = true then .next { s with status := { s.status with cbusy := true } }
    else if c.toNat / 0x100 ≠ 0 then
      .next { s with status := { s.status with done := true, err := true, errcode := 2 } }
    else if c.toNat % 0x100 = 0x00 then exec .nop s
    else if c.toNat % 0x100 = 0x01 then exec .eval s
    else if c.toNat % 0x100 = 0x02 then exec .gen s
    else .next { s with status := { s.status with done := true, err := true, errcode := 1 } }

/-- 42 R192: every word that is no command is rejected while idle and changes nothing but DONE, ERR and ERRCODE. -/
def Obligations.ReservedWordsAreRejected : Prop :=
  ∀ (c : Word) (s : State), s.status.busy = false → c ≠ 0x00 → c ≠ 0x01 → c ≠ 0x02 → c ≠ 0x5A →
    hostWrite 0x00010 c 0xFF s = .next { s with
      lastRsp := some { err := false, rdata := 0 }
      status := { s.status with done := true, err := true, errcode := if 0x100 ≤ c.toNat then 2 else 1 } }

/-- 42 R193: a CMD write while busy, but for SRST, sets CBUSY and nothing else. -/
def Obligations.CommandsWhileBusyAreDropped : Prop :=
  (∀ (c : Word) (s : State), s.status.busy = true → c ≠ 0x000000000000005A →
    hostWrite 0x00010 c 0xFF s = .next { s with
      lastRsp := some { err := false, rdata := 0 }, status := { s.status with cbusy := true } }) ∧
  (∀ (i : Instr) (s : State), s.status.busy = true → i ≠ .srst →
    exec i s = .next { s with status := { s.status with cbusy := true } })

/-! ## The bus -/

/-- 20 R90: what a host read returns; a read changes nothing but the response. The two kinds of location that R97 and R98 make
any value are the next statement's. -/
def Obligations.HostReadReturnsTheLocation : Prop :=
  ∀ s : State,
    let ok : Word → State := fun v => { s with lastRsp := some { err := false, rdata := v } }
    (∀ a : Offset, a.toNat % 8 ≠ 0 → hostRead a s =
      { s with lastRsp := some { err := true, rdata := 0 }, status := { s.status with buserr := true } }) ∧
    hostRead 0x00000 s = ok 0x474F455200070001 ∧ hostRead 0x00008 s = ok 0x0001010800001000 ∧
    hostRead 0x00010 s = ok 0 ∧ hostRead 0x00018 s = ok s.status.toWord ∧
    hostRead 0x00020 s = ok (s.ie &&& 0x7) ∧ hostRead 0x00028 s = ok s.omega ∧
    hostRead 0x00030 s = ok (s.len &&& 0xFFFFFFFF) ∧ hostRead 0x00038 s = ok (s.kind &&& 0xFFFFFFFF) ∧
    (s.seq.isEval = false →
      hostRead 0x00040 s = ok s.cosOut ∧ hostRead 0x00048 s = ok s.sinOut ∧ hostRead 0x00050 s = ok s.dbgAcc ∧
      hostRead 0x00058 s = ok s.dbgP1 ∧ hostRead 0x00060 s = ok s.dbgP2 ∧ hostRead 0x00068 s = ok s.dbgB) ∧
    (s.seq.isGen = false → ∀ i v, i ≤ 256 → s.mem.readWord (0x1000 + 8 * i) = some v →
      hostRead (BitVec.ofNat 17 (0x1000 + 8 * i)) s = ok v) ∧
    (s.seq.isGen = false → ∀ l i v, l ≤ 7 → i ≤ 256 → s.mem.readWord (0x8000 + 0x1000 * l + 8 * i) = some v →
      hostRead (BitVec.ofNat 17 (0x8000 + 0x1000 * l + 8 * i)) s = ok v) ∧
    (∀ j v, j < 4096 → s.mem.readWord (0x10000 + 8 * j) = some v →
      hostRead (BitVec.ofNat 17 (0x10000 + 8 * j)) s = ok v) ∧
    (∀ a : Offset, reservedOffset a.toNat → hostRead a s = ok 0)

/-- 20 R97 and R98: a location the running command writes, and an entry nothing has written, read as any value: a fresh free
value, with no other effect. The counter of free values is the model's (log 5, 6). -/
def Obligations.OpenReadsReturnAnyValue : Prop :=
  ∀ s : State,
    let any : State := { s with draws := s.draws + 1, lastRsp := some { err := false, rdata := Config.anyWord s.draws } }
    (s.seq.isEval = true → ∀ a ∈ [0x00040#17, 0x00048#17, 0x00050#17, 0x00058#17, 0x00060#17, 0x00068#17],
      hostRead a s = any) ∧
    (∀ i, i ≤ 256 → s.seq.isGen = true ∨ s.mem.readWord (0x1000 + 8 * i) = none →
      hostRead (BitVec.ofNat 17 (0x1000 + 8 * i)) s = any) ∧
    (∀ l i, l ≤ 7 → i ≤ 256 → s.seq.isGen = true ∨ s.mem.readWord (0x8000 + 0x1000 * l + 8 * i) = none →
      hostRead (BitVec.ofNat 17 (0x8000 + 0x1000 * l + 8 * i)) s = any) ∧
    (∀ j, j < 4096 → s.mem.readWord (0x10000 + 8 * j) = none →
      hostRead (BitVec.ofNat 17 (0x10000 + 8 * j)) s = any)

/-- 20 R91: what a host write does, target by target. -/
def Obligations.HostWriteActsByTarget : Prop :=
  ∀ (s : State) (v : Word),
    let ok : State → Host.Outcome State Fault Refusal :=
      fun t => .next { t with lastRsp := some { err := false, rdata := 0 } }
    let error : Host.Outcome State Fault Refusal :=
      .next { s with lastRsp := some { err := true, rdata := 0 }, status := { s.status with buserr := true } }
    let dropped : State := { s with status := { s.status with wbusy := true } }
    (∀ (a : Offset) (strb : BitVec 8), a.toNat % 8 ≠ 0 ∨ strb ≠ 0xFF → hostWrite a v strb s = error) ∧
    (∀ a ∈ [0x00000#17, 0x00008#17, 0x00040#17, 0x00048#17, 0x00050#17, 0x00058#17, 0x00060#17, 0x00068#17],
      hostWrite a v 0xFF s = error) ∧
    (∀ i, i ≤ 256 → hostWrite (BitVec.ofNat 17 (0x1000 + 8 * i)) v 0xFF s = error) ∧
    (∀ l i, l ≤ 7 → i ≤ 256 → hostWrite (BitVec.ofNat 17 (0x8000 + 0x1000 * l + 8 * i)) v 0xFF s = error) ∧
    hostWrite 0x00010 v 0xFF s = issue v { s with lastRsp := some { err := false, rdata := 0 } } ∧
    hostWrite 0x00018 v 0xFF s = ok { s with status := s.status.w1c v } ∧
    hostWrite 0x00020 v 0xFF s = ok { s with ie := v &&& 0x7 } ∧
    (s.status.busy = true →
      hostWrite 0x00028 v 0xFF s = ok dropped ∧ hostWrite 0x00030 v 0xFF s = ok dropped ∧
      hostWrite 0x00038 v 0xFF s = ok dropped ∧
      ∀ j, j < 4096 → hostWrite (BitVec.ofNat 17 (0x10000 + 8 * j)) v 0xFF s = ok dropped) ∧
    (s.status.busy = false →
      hostWrite 0x00028 v 0xFF s = ok { s with omega := v } ∧
      hostWrite 0x00030 v 0xFF s = ok { s with len := v &&& 0xFFFFFFFF } ∧
      hostWrite 0x00038 v 0xFF s = ok { s with kind := v &&& 0xFFFFFFFF } ∧
      ∀ j, j < 4096 → ∃ m : Memory,
        hostWrite (BitVec.ofNat 17 (0x10000 + 8 * j)) v 0xFF s = ok { s with mem := m } ∧
        m.readWord (0x10000 + 8 * j) = some v ∧
        ∀ b, b < 0x10000 + 8 * j ∨ 0x10000 + 8 * j + 8 ≤ b → m.readByte b = s.mem.readByte b) ∧
    (∀ a : Offset, reservedOffset a.toNat → hostWrite a v 0xFF s = ok s)

/-- 60 R205: a transaction gets an error response in exactly three cases, and then sets BUSERR and changes nothing else. -/
def Obligations.BusErrorsAreTheThreeCases : Prop :=
  ∀ s : State,
    let error : State :=
      { s with lastRsp := some { err := true, rdata := 0 }, status := { s.status with buserr := true } }
    (∀ a : Offset, (a.toNat % 8 ≠ 0 → hostRead a s = error) ∧
      (a.toNat % 8 = 0 → ∃ v, (hostRead a s).lastRsp = some { err := false, rdata := v })) ∧
    (∀ (a : Offset) (v : Word) (strb : BitVec 8),
      (a.toNat % 8 ≠ 0 ∨ strb ≠ 0xFF ∨ readOnlyOffset a.toNat → hostWrite a v strb s = .next error) ∧
      (a.toNat % 8 = 0 → strb = 0xFF → ¬ readOnlyOffset a.toNat →
        ∃ t, hostWrite a v strb s = .next t ∧ t.lastRsp = some { err := false, rdata := 0 }))

/-- 20 R86 and R94: a sample written by the host lies in memory little-endian, and the next read of it returns all its bits;
no other entry changes. -/
def Obligations.SampleWriteIsLittleEndianAndReadsBack : Prop :=
  ∀ (s : State) (v : Word) (j : Nat), s.status.busy = false → j < 4096 →
    ∃ t, hostWrite (BitVec.ofNat 17 (0x10000 + 8 * j)) v 0xFF s = .next t ∧
      (∀ k, k < 8 → t.mem.readByte (0x10000 + 8 * j + k) = some (BitVec.ofNat 8 (v.toNat / 2 ^ (8 * k)))) ∧
      (hostRead (BitVec.ofNat 17 (0x10000 + 8 * j)) t).lastRsp = some { err := false, rdata := v } ∧
      ∀ i, i < 4096 → i ≠ j → t.mem.readWord (0x10000 + 8 * i) = s.mem.readWord (0x10000 + 8 * i)

/-! ## STATUS and the interrupt -/

/-- 10 R36: where each field of STATUS stands in the word. -/
def Obligations.StatusWordLayout : Prop :=
  ∀ f : Status,
    f.toWord.getLsbD 0 = f.busy ∧ f.toWord.getLsbD 1 = f.done ∧ f.toWord.getLsbD 2 = f.err ∧
    f.toWord.getLsbD 3 = false ∧ f.toWord.extractLsb' 4 4 = f.errcode ∧ f.toWord.getLsbD 8 = f.rv ∧
    f.toWord.getLsbD 9 = f.tv ∧ f.toWord.extractLsb' 10 2 = f.tkind ∧ f.toWord.getLsbD 12 = f.zk ∧
    f.toWord.extractLsb' 13 2 = f.regime ∧ f.toWord.getLsbD 15 = false ∧ f.toWord.getLsbD 16 = f.cbusy ∧
    f.toWord.getLsbD 17 = f.wbusy ∧ f.toWord.getLsbD 18 = f.buserr ∧ f.toWord.extractLsb' 19 45 = 0

/-- 10 R44: a host write of v to STATUS, busy or not, in the words the host sees: the W1C bits written with 1 clear, bit 2 clears
ERRCODE with it, all other bits are ignored. -/
def Obligations.StatusWriteOneClears : Prop :=
  ∀ (s : State) (v : Word), ∃ t, hostWrite 0x00018 v 0xFF s = .next t ∧
    t.status.toWord = s.status.toWord &&& ~~~(v &&& 0x0000000000070006) &&&
      ~~~(if v.getLsbD 2 then 0x00000000000000F0 else 0x0000000000000000) ∧
    t = { s with status := t.status, lastRsp := some { err := false, rdata := 0 } }

/-- 10 R63: `irq`, in the words the host sees. -/
def Obligations.IrqIsTheEnabledSources : Prop :=
  ∀ s : State, s.irq = true ↔
    (s.status.toWord.getLsbD 1 = true ∧ s.ie.getLsbD 0 = true) ∨
    (s.status.toWord.getLsbD 2 = true ∧ s.ie.getLsbD 1 = true) ∨
    ((s.status.toWord.getLsbD 16 = true ∨ s.status.toWord.getLsbD 17 = true ∨ s.status.toWord.getLsbD 18 = true) ∧
      s.ie.getLsbD 2 = true)

/-! ## EVAL: acceptance -/

/-- 40 R131: the acceptance checks in their order, and what a rejection changes. -/
def Obligations.EvalChecksItsOperands : Prop :=
  ∀ s : State, s.status.busy = false →
    let n := s.len.toNat % 2 ^ 32
    let rejected : BitVec 4 → Host.Outcome State Fault Refusal := fun code => .next { s with
      status := { s.status with done := true, err := true, errcode := code, rv := false, regime := 3 } }
    (n = 0 → exec .eval s = rejected 3) ∧
    (4096 < n → exec .eval s = rejected 4) ∧
    (1 ≤ n → n ≤ 4096 → ¬ omegaLegal s.omega → exec .eval s = rejected 5) ∧
    (1 ≤ n → n ≤ 4096 → omegaLegal s.omega →
      ∃ t, exec .eval s = .next t ∧ t.status.busy = true ∧ t.status.err = false)

/-- 40 R134 with b of R133: an accepted EVAL. -/
def Obligations.EvalAcceptance : Prop :=
  ∀ s : State, s.status.busy = false → 1 ≤ s.len.toNat % 2 ^ 32 → s.len.toNat % 2 ^ 32 ≤ 4096 → omegaLegal s.omega →
    let w := s.omega
    let b : Word := match regimeOf w with
      | .low => F64.neg (F64.mul Config.four (F64.mul (F64.fsin (F64.div w Config.two)) (F64.fsin (F64.div w Config.two))))
      | .mid => F64.mul Config.two (F64.fcos w)
      | .high => F64.mul Config.four (F64.mul (F64.fcos (F64.div w Config.two)) (F64.fcos (F64.div w Config.two)))
    exec .eval s = .next { s with
      eN := s.len.toNat % 2 ^ 32, eW := w, eReg := regimeOf w, dbgB := b
      dbgAcc := 0, dbgP1 := 0, dbgP2 := 0
      status := { s.status with
        regime := (match regimeOf w with | .low => 0 | .mid => 1 | .high => 2)
        rv := false, done := false, err := false, errcode := 0, busy := true }
      seq := .evalIt 1 }

/-- 40 R132: the regime of every accepted ω, by the index, by r, and by the bits of ω. -/
def Obligations.RegimeIntervals : Prop :=
  let r : Word → Word := fun w => F64.div (F64.mul Config.six w) Config.twoPi64
  (∀ w, omegaLegal w →
    0 ≤ F64.floorInt (r w) ∧ F64.floorInt (r w) ≤ 5 ∧ F64.le Config.zero (r w) = true ∧ F64.lt (r w) Config.six = true ∧
    (regimeOf w = .low ↔ F64.floorInt (r w) = 0) ∧
    (regimeOf w = .mid ↔ F64.floorInt (r w) = 1) ∧
    (regimeOf w = .high ↔ 2 ≤ F64.floorInt (r w)) ∧
    (regimeOf w = .low ↔ F64.lt (r w) Config.one = true) ∧
    (regimeOf w = .mid ↔ F64.le Config.one (r w) = true ∧ F64.lt (r w) Config.two = true) ∧
    (regimeOf w = .high ↔ F64.le Config.two (r w) = true) ∧
    (regimeOf w = .low ↔ w = 0x8000000000000000#64 ∨ w.toNat ≤ 0x3FF0C152382D7364) ∧
    (regimeOf w = .mid ↔ 0x3FF0C152382D7365 ≤ w.toNat ∧ w.toNat < 0x4000C152382D7365) ∧
    (regimeOf w = .high ↔ 0x4000C152382D7365 ≤ w.toNat ∧ w.toNat < 0x401921FB54442D18)) ∧
  (∀ w w', omegaLegal w → omegaLegal w' → F64.le w w' = true → F64.le (r w) (r w') = true) ∧
  r 0x401921FB54442D17 = 0x4017FFFFFFFFFFFF

/-- 40 R133: the signs and ranges of the coefficient b. -/
def Obligations.CoefficientRanges : Prop :=
  (∀ w, F64.isFinite w = true →
    (F64.isFinite (coefficient .low w) = true ∧ F64.signBit (coefficient .low w) = true ∧
      -4 ≤ F64.toRat (coefficient .low w)) ∧
    (F64.isFinite (coefficient .mid w) = true ∧
      -2 ≤ F64.toRat (coefficient .mid w) ∧ F64.toRat (coefficient .mid w) ≤ 2) ∧
    (F64.isFinite (coefficient .high w) = true ∧ F64.signBit (coefficient .high w) = false ∧
      F64.toRat (coefficient .high w) ≤ 4)) ∧
  coefficient .low 0x0000000000000000 = 0x8000000000000000#64 ∧
  coefficient .low 0x8000000000000000 = 0x8000000000000000#64

/-! ## EVAL: the engine's steps -/

/-- 40 R136: the LOW iteration. -/
def Obligations.LowIteration : Prop :=
  ∀ (s : State) (k : Nat) (x : Word), s.seq = .evalIt k → s.eReg = .low →
    s.mem.readWord (0x10000 + 8 * (s.eN - k)) = some x →
    let a := F64.add (F64.add x (F64.mul s.dbgB s.dbgP1)) s.dbgAcc
    engineStep s = { s with
      dbgAcc := a, dbgP1 := F64.add a s.dbgP1, dbgP2 := s.dbgP1
      seq := if k < s.eN then .evalIt (k + 1) else .evalFin }

/-- 40 R137: the MID iteration. -/
def Obligations.MidIteration : Prop :=
  ∀ (s : State) (k : Nat) (x : Word), s.seq = .evalIt k → s.eReg = .mid →
    s.mem.readWord (0x10000 + 8 * (s.eN - k)) = some x →
    let a := F64.sub (F64.add x (F64.mul s.dbgB s.dbgP1)) s.dbgP2
    engineStep s = { s with
      dbgAcc := a, dbgP1 := a, dbgP2 := s.dbgP1
      seq := if k < s.eN then .evalIt (k + 1) else .evalFin }

/-- 40 R138: the HIGH iteration. -/
def Obligations.HighIteration : Prop :=
  ∀ (s : State) (k : Nat) (x : Word), s.seq = .evalIt k → s.eReg = .high →
    s.mem.readWord (0x10000 + 8 * (s.eN - k)) = some x →
    let a := F64.sub (F64.add x (F64.mul s.dbgB s.dbgP1)) s.dbgAcc
    engineStep s = { s with
      dbgAcc := a, dbgP1 := F64.sub a s.dbgP1, dbgP2 := s.dbgP1
      seq := if k < s.eN then .evalIt (k + 1) else .evalFin }

/-- 20 R98: over a sample nothing has written, the iteration computes with any value in its place (a fresh free value, log 4),
in each regime as if that value stood in S. -/
def Obligations.UnwrittenSampleIsAnyValue : Prop :=
  ∀ (s : State) (k : Nat), s.seq = .evalIt k → s.mem.readWord (0x10000 + 8 * (s.eN - k)) = none →
    engineStep s =
      { engineStep { s with mem := s.mem.writeWord (0x10000 + 8 * (s.eN - k)) (Config.anyWord s.draws) } with
        mem := s.mem, draws := s.draws + 1 }

/-- 40 R139: the final combination. -/
def Obligations.EvalFinalCombination : Prop :=
  ∀ s : State, s.seq = .evalFin →
    engineStep s = { s with
      cosOut := F64.sub s.dbgAcc (F64.div (F64.mul s.dbgB s.dbgP2) Config.two)
      sinOut := F64.mul (F64.neg (F64.fsin s.eW)) s.dbgP2
      status := { s.status with rv := true, done := true, busy := false }
      seq := .idle }

/-- 40 R141 and 70 R250: an accepted EVAL completes after exactly E_N + 1 engine steps, with no error, whatever S holds. -/
def Obligations.EvalCompletesInItsSteps : Prop :=
  ∀ s t : State, s.status.busy = false → exec .eval s = .next t → t.status.busy = true →
    (∀ m, m ≤ t.eN → (engineSteps m t).status.busy = true) ∧
    (engineSteps (t.eN + 1) t).seq = .idle ∧
    (engineSteps (t.eN + 1) t).status =
      { t.status with busy := false, done := true, rv := true } ∧
    t.status.err = false ∧ t.status.errcode = 0

/-- 40 R130-R139: what a completed EVAL leaves in its results, over the samples S[n-1], ..., S[0] in that order, and that it
leaves everything else as it was. -/
def Obligations.EvalResult : Prop :=
  ∀ (s : State) (n : Nat) (v : Nat → Word), EvalReady s n v →
    let reg := regimeOf s.omega
    let b := coefficient reg s.omega
    let r := recursionOver reg b ((List.range n).map (fun k => v (n - 1 - k)))
    ∃ t, exec .eval s = .next t ∧ engineSteps (n + 1) t = { s with
      eN := n, eW := s.omega, eReg := reg
      dbgAcc := r.acc, dbgP1 := r.p1, dbgP2 := r.p2, dbgB := b, seq := .idle
      cosOut := F64.sub r.acc (F64.div (F64.mul b r.p2) Config.two)
      sinOut := F64.mul (F64.neg (F64.fsin s.omega)) r.p2
      status := { s.status with
        busy := false, done := true, err := false, errcode := 0, rv := true, regime := reg.code } }

/-- 40 R142, all-zero samples: COS_OUT is +0.0 and SIN_OUT a zero, with the sign of neg(FSIN(ω)): -0.0 for ω in [+0.0, PI64],
+0.0 for ω = -0.0 and for ω in (PI64, TWO_PI64). -/
def Obligations.AllZeroSamplesGiveZeros : Prop :=
  ∀ (s : State) (n : Nat), EvalReady s n (fun _ => 0) →
    ∃ t, exec .eval s = .next t ∧
      let u := engineSteps (n + 1) t
      u.dbgAcc = 0 ∧ u.dbgP1 = 0 ∧ u.dbgP2 = 0 ∧ u.cosOut = 0 ∧
      u.sinOut = (if F64.signBit (F64.fsin s.omega) then 0x0000000000000000 else 0x8000000000000000) ∧
      (s.omega.toNat ≤ 0x400921FB54442D18 → u.sinOut = 0x8000000000000000) ∧
      (s.omega = 0x8000000000000000#64 ∨ 0x400921FB54442D18 < s.omega.toNat → u.sinOut = 0x0000000000000000)

/-- 40 R142, n = 1: COS_OUT = x and SIN_OUT = ±0.0 with the sign of neg(FSIN(ω)), for x neither a zero nor a NaN. -/
def Obligations.OneSampleIsItsOwnCosine : Prop :=
  ∀ (s : State) (x : Word), EvalReady s 1 (fun _ => x) → F64.isNaN x = false → x.toNat % 2 ^ 63 ≠ 0 →
    ∃ t, exec .eval s = .next t ∧
      let u := engineSteps 2 t
      u.dbgP2 = 0 ∧ u.cosOut = x ∧
      u.sinOut = if F64.signBit (F64.fsin s.omega) then 0x0000000000000000 else 0x8000000000000000

/-- 40 R142, a NaN at S[j]: COS_OUT is CNAN, and so is SIN_OUT unless j = 0. For j = 0, the last sample processed, DBG_P2 is the
DBG_P1 that the other samples leave, and where that is finite, DBG_P2 and SIN_OUT are. -/
def Obligations.NanSamplePropagates : Prop :=
  ∀ (s : State) (n : Nat) (v : Nat → Word) (j : Nat), EvalReady s n v → j < n → F64.isNaN (v j) = true →
    ∃ t, exec .eval s = .next t ∧
      let u := engineSteps (n + 1) t
      u.dbgAcc = Config.cnan ∧ u.dbgP1 = Config.cnan ∧ u.cosOut = Config.cnan ∧
      (1 ≤ j → u.dbgP2 = Config.cnan ∧ u.sinOut = Config.cnan) ∧
      (j = 0 →
        let reg := regimeOf s.omega
        let before := recursionOver reg (coefficient reg s.omega) ((List.range (n - 1)).map (fun k => v (n - 1 - k)))
        u.dbgP2 = before.p1 ∧ u.sinOut = F64.mul (F64.neg (F64.fsin s.omega)) before.p1 ∧
        (F64.isFinite before.p1 = true → F64.isFinite u.dbgP2 = true ∧ F64.isFinite u.sinOut = true))

/-! ## GEN -/

/-- 41 R161: an accepted GEN. -/
def Obligations.GenAcceptance : Prop :=
  ∀ s : State, s.status.busy = false →
    let k : BitVec 32 := BitVec.ofNat 32 s.kind.toNat
    ∃ m : Memory,
      exec .gen s = .next { s with
        gKind := k, mem := m, seq := .genPt 0 0
        status := { s.status with
          tv := false, tkind := if k = 1 then 1 else if k = 2 then 2 else 0
          zk := if k = 1 ∨ k = 2 then false else true
          done := false, err := false, errcode := 0, busy := true } } ∧
      (∀ l i, l ≤ 7 → i ≤ 256 → m.readWord (0x8000 + 0x1000 * l + 8 * i) = some 0) ∧
      (∀ i, i ≤ 256 → m.readWord (0x1000 + 8 * i) = some 0) ∧
      (∀ a, ¬ (0x1000 ≤ a ∧ a < 0x1808) → ¬ (0x8000 ≤ a ∧ a < 0x10000 ∧ a % 0x1000 < 0x808) →
        m.readByte a = s.mem.readByte a)

/-- 41 R162: the level parameters. -/
def Obligations.LevelParameters : Prop :=
  (List.range 8).map (fun l => (npt l, seriesBound l, halfPoints l)) =
    [(4, 4, 2), (8, 6, 4), (16, 14, 8), (32, 30, 16), (64, 62, 32), (128, 126, 64), (256, 254, 128), (512, 510, 256)] ∧
  ((List.range 8).map (fun l => halfPoints l + 1)).sum = 518

/-- 41 R164: the cosine series, from +0.0, even k ascending, L inclusive. -/
def Obligations.SeriesAccumulates : Prop :=
  ∀ t : Word,
    let term : Nat → Word := fun k =>
      F64.div (F64.mul (if k = 0 then Config.two else Config.four) (F64.fcos (F64.mul (F64.i2f (k : Int)) t)))
        (F64.i2f (1 - (k : Int) * (k : Int)))
    series t 0 = F64.add Config.zero (term 0) ∧
    (F64.isFinite t = true → term 0 = Config.two) ∧
    ∀ m : Nat, series t (2 * (m + 1)) = F64.add (series t (2 * m)) (term (2 * (m + 1)))

/-- 41 R163, with the writes of R165-R168: the point step. -/
def Obligations.GenPointStep : Prop :=
  ∀ (s : State) (l i : Nat), s.seq = .genPt l i → l ≤ 7 → i ≤ halfPoints l →
    let n : Nat := 4 * 2 ^ l
    let bound : Nat := if l = 0 then 4 else n - 2
    let half : Nat := n / 2
    let t : Word := F64.div (F64.mul (F64.i2f i) Config.pi64) (F64.i2f n)
    let sum : Word := if i = 0 ∨ i = half then F64.mul (series t bound) Config.half else series t bound
    let xAt : Nat := 0x1000 + 8 * i
    let wAt : Nat := 0x8000 + 0x1000 * l + 8 * i
    ∃ m : Memory,
      engineStep s = { s with
        mem := m, seq := if i < half then .genPt l (i + 1) else if l < 7 then .genPt (l + 1) 0 else .genFin } ∧
      (s.gKind = 1 →
        m.readWord xAt = some (F64.mul Config.half (F64.add Config.one (F64.fcos t))) ∧
        m.readWord wAt = some (F64.div (F64.mul Config.half sum) (F64.i2f n))) ∧
      (s.gKind = 2 →
        let tp := F64.mul Config.halfPi64 (F64.add Config.one (F64.fcos t))
        let sum2 := F64.mul (F64.mul (F64.mul sum Config.half) (F64.fsin tp)) Config.pi64
        m.readWord xAt = some (F64.mul Config.half (F64.add Config.one (F64.fcos tp))) ∧
        m.readWord wAt = some (F64.div (F64.mul Config.half sum2) (F64.i2f n))) ∧
      (s.gKind ≠ 1 → s.gKind ≠ 2 → m = s.mem) ∧
      (∀ a, ¬ (xAt ≤ a ∧ a < xAt + 8) → ¬ (wAt ≤ a ∧ a < wAt + 8) → m.readByte a = s.mem.readByte a)

/-- 41 R170: GEN's final step. -/
def Obligations.GenFinalStep : Prop :=
  ∀ s : State, s.seq = .genFin →
    engineStep s = { s with status := { s.status with tv := true, done := true, busy := false }, seq := .idle }

/-- 70 R250 and 41 R172: every accepted GEN completes after exactly 519 engine steps, with no error. -/
def Obligations.GenCompletesInItsSteps : Prop :=
  ∀ s t : State, s.status.busy = false → exec .gen s = .next t →
    (∀ m, m ≤ 518 → (engineSteps m t).status.busy = true) ∧
    (engineSteps 519 t).seq = .idle ∧
    (engineSteps 519 t).status = { t.status with busy := false, done := true, tv := true } ∧
    t.status.err = false ∧ t.status.errcode = 0

/-- 41 R161-R169: the tables a completed GEN leaves: weights up to half at each level, +0.0 beyond, and the level-7
abscissae; all zeros for an unselected kind. Everything outside X and W is as before. -/
def Obligations.GenTables : Prop :=
  ∀ s : State, s.status.busy = false → ∃ t, exec .gen s = .next t ∧
    let u := engineSteps 519 t
    let k := s.kind.toNat % 2 ^ 32
    (∀ l i, l ≤ 7 → i ≤ 256 → u.mem.readWord (0x8000 + 0x1000 * l + 8 * i) = some
      (if k = 1 ∧ i ≤ 2 * 2 ^ l then sineWeight (pointSum l i) (4 * 2 ^ l)
       else if k = 2 ∧ i ≤ 2 * 2 ^ l then cosineWeight (gridAngle l i) (pointSum l i) (4 * 2 ^ l)
       else 0)) ∧
    (∀ i, i ≤ 256 → u.mem.readWord (0x1000 + 8 * i) = some
      (if k = 1 then sineAbscissa (gridAngle 7 i) else if k = 2 then cosineAbscissa (gridAngle 7 i) else 0)) ∧
    (∀ a, ¬ (0x1000 ≤ a ∧ a < 0x1808) → ¬ (0x8000 ≤ a ∧ a < 0x10000 ∧ a % 0x1000 < 0x808) →
      u.mem.readByte a = s.mem.readByte a) ∧
    u = { s with
      mem := u.mem, gKind := BitVec.ofNat 32 k, seq := .idle
      status := { s.status with
        busy := false, done := true, err := false, errcode := 0, tv := true
        tkind := if k = 1 then 1 else if k = 2 then 2 else 0
        zk := if k = 1 ∨ k = 2 then false else true } }

/-- 41 R173, repeat GEN: two GENs with the same KIND give bit-identical W and X, whatever stood before. -/
def Obligations.RepeatedGenIsIdentical : Prop :=
  ∀ s s' t t' : State, s.status.busy = false → s'.status.busy = false → s.kind.toNat % 2 ^ 32 = s'.kind.toNat % 2 ^ 32 →
    exec .gen s = .next t → exec .gen s' = .next t' →
    (∀ l i, l ≤ 7 → i ≤ 256 → (engineSteps 519 t).mem.readWord (0x8000 + 0x1000 * l + 8 * i) =
      (engineSteps 519 t').mem.readWord (0x8000 + 0x1000 * l + 8 * i)) ∧
    (∀ i, i ≤ 256 → (engineSteps 519 t).mem.readWord (0x1000 + 8 * i) =
      (engineSteps 519 t').mem.readWord (0x1000 + 8 * i))

/-- 41 R173: the end points of the grid, at level 7. -/
def Obligations.GridEndPoints : Prop :=
  gridAngle 7 0 = 0 ∧ gridAngle 7 256 = Config.halfPi64 ∧
  sineAbscissa (gridAngle 7 0) = 0x3FF0000000000000 ∧ sineAbscissa (gridAngle 7 256) = 0x3FE0000000000000 ∧
  remap (gridAngle 7 0) = Config.pi64 ∧
  cosineAbscissa (gridAngle 7 0) = 0 ∧ cosineAbscissa (gridAngle 7 256) = 0x3FE0000000000000

/-! ## Binary64 -/

/-- 00 R12: add, sub, mul and div of finite values are the exact result rounded once, to nearest, ties to even. -/
def Obligations.ArithmeticRoundsToNearestEven : Prop :=
  ∀ a b : Word, F64.isFinite a = true → F64.isFinite b = true →
    F64.RoundsTo (F64.toRat a + F64.toRat b) (F64.add a b) ∧
    F64.RoundsTo (F64.toRat a - F64.toRat b) (F64.sub a b) ∧
    F64.RoundsTo (F64.toRat a * F64.toRat b) (F64.mul a b) ∧
    (F64.toRat b ≠ 0 → F64.RoundsTo (F64.toRat a / F64.toRat b) (F64.div a b))

/-- IEEE 754's signs of exact zeros, infinite operands, division by zero and invalid operations (the model's reading of 00 R12
and R15, log 19). -/
def Obligations.SpecialOperands : Prop :=
  let sign : Bool → Word := fun neg => if neg then 0x8000000000000000 else 0x0000000000000000
  let inf : Bool → Word := fun neg => if neg then 0xFFF0000000000000 else 0x7FF0000000000000
  (∀ a b, F64.isFinite a = true → F64.isFinite b = true →
    (F64.toRat a + F64.toRat b = 0 → F64.add a b = sign (F64.signBit a && F64.signBit b)) ∧
    (F64.toRat a * F64.toRat b = 0 → F64.mul a b = sign (F64.signBit a != F64.signBit b)) ∧
    (F64.toRat b ≠ 0 → F64.toRat a = 0 → F64.div a b = sign (F64.signBit a != F64.signBit b)) ∧
    (F64.toRat b = 0 → F64.toRat a ≠ 0 → F64.div a b = inf (F64.signBit a != F64.signBit b)) ∧
    (F64.toRat b = 0 → F64.toRat a = 0 → F64.div a b = Config.cnan)) ∧
  (∀ (s : Bool) (b : Word), F64.isFinite b = true →
    F64.add (inf s) b = inf s ∧ F64.add b (inf s) = inf s ∧
    (F64.toRat b ≠ 0 → F64.mul (inf s) b = inf (s != F64.signBit b) ∧ F64.mul b (inf s) = inf (s != F64.signBit b)) ∧
    (F64.toRat b = 0 → F64.mul (inf s) b = Config.cnan ∧ F64.mul b (inf s) = Config.cnan) ∧
    F64.div (inf s) b = inf (s != F64.signBit b) ∧ F64.div b (inf s) = sign (s != F64.signBit b)) ∧
  (∀ s t : Bool, F64.add (inf s) (inf t) = (if s = t then inf s else Config.cnan) ∧
    F64.mul (inf s) (inf t) = inf (s != t) ∧ F64.div (inf s) (inf t) = Config.cnan) ∧
  (∀ a b, F64.isFinite b = true ∨ b = inf (F64.signBit b) → F64.sub a b = F64.add a (F64.neg b))

/-- 00 R14: every primitive answers CNAN for its NaN results, and CNAN when an operand is a NaN; what the host writes is kept as
written. -/
def Obligations.NanResultsAreCanonical : Prop :=
  (∀ v, F64.canon v = if F64.isNaN v = true then 0x7FF8000000000000#64 else v) ∧
  (∀ a b, F64.canon (F64.add a b) = F64.add a b ∧ F64.canon (F64.sub a b) = F64.sub a b ∧
    F64.canon (F64.mul a b) = F64.mul a b ∧ F64.canon (F64.div a b) = F64.div a b ∧ F64.canon (F64.neg a) = F64.neg a ∧
    F64.canon (F64.half a) = F64.half a ∧ F64.canon (F64.fsin a) = F64.fsin a ∧ F64.canon (F64.fcos a) = F64.fcos a) ∧
  (∀ k : Int, F64.canon (F64.i2f k) = F64.i2f k) ∧
  (∀ a b, F64.isNaN a = true ∨ F64.isNaN b = true →
    F64.add a b = 0x7FF8000000000000 ∧ F64.sub a b = 0x7FF8000000000000 ∧ F64.mul a b = 0x7FF8000000000000 ∧
    F64.div a b = 0x7FF8000000000000) ∧
  (∀ a, F64.isNaN a = true →
    F64.neg a = 0x7FF8000000000000 ∧ F64.half a = 0x7FF8000000000000 ∧
    F64.fsin a = 0x7FF8000000000000 ∧ F64.fcos a = 0x7FF8000000000000) ∧
  (∀ (s : State) (v : Word), s.status.busy = false →
    (∃ t, hostWrite 0x00028 v 0xFF s = .next t ∧ t.omega = v) ∧
    ∀ j, j < 4096 → ∃ t, hostWrite (BitVec.ofNat 17 (0x10000 + 8 * j)) v 0xFF s = .next t ∧
      t.mem.readWord (0x10000 + 8 * j) = some v)

/-- 00 R13: neg, half and i2f. -/
def Obligations.NegHalfAndIntegers : Prop :=
  (∀ a, F64.neg a = if F64.isNaN a = true then 0x7FF8000000000000#64 else a ^^^ 0x8000000000000000#64) ∧
  (∀ a, F64.half a = F64.div a 0x4000000000000000) ∧
  (∀ k : Int, -260099 ≤ k → k ≤ 512 → F64.isFinite (F64.i2f k) = true ∧ F64.toRat (F64.i2f k) = k)

/-- 00 R16: the ordered comparisons, isNaN and floorInt. -/
def Obligations.ComparisonsAreOrdered : Prop :=
  (∀ a b, F64.isFinite a = true → F64.isFinite b = true →
    (F64.lt a b = true ↔ F64.toRat a < F64.toRat b) ∧ (F64.le a b = true ↔ F64.toRat a ≤ F64.toRat b) ∧
    (F64.ge a b = true ↔ F64.toRat b ≤ F64.toRat a)) ∧
  (∀ a b, F64.isNaN a = true ∨ F64.isNaN b = true → F64.lt a b = false ∧ F64.le a b = false ∧ F64.ge a b = false) ∧
  (∀ a, F64.isFinite a = true →
    F64.lt a 0x7FF0000000000000 = true ∧ F64.lt 0xFFF0000000000000 a = true ∧
    F64.le 0x7FF0000000000000 a = false ∧ F64.le a 0xFFF0000000000000 = false) ∧
  F64.lt 0xFFF0000000000000 0x7FF0000000000000 = true ∧ F64.lt 0x7FF0000000000000 0x7FF0000000000000 = false ∧
  F64.le 0x7FF0000000000000 0x7FF0000000000000 = true ∧ F64.le 0xFFF0000000000000 0xFFF0000000000000 = true ∧
  F64.le 0x8000000000000000 0x0000000000000000 = true ∧ F64.le 0x0000000000000000 0x8000000000000000 = true ∧
  (∀ a, F64.isNaN a = true ↔ a.extractLsb' 52 11 = 0x7FF#11 ∧ a.extractLsb' 0 52 ≠ 0#52) ∧
  (∀ a, F64.isFinite a = true → F64.floorInt a = ⌊F64.toRat a⌋)

/-- 00 R17 (b)-(d): FSIN and FCOS at zeros, within [-1, 1] at finite arguments, CNAN elsewhere. -/
def Obligations.SineAndCosineProperties : Prop :=
  F64.fsin 0x0000000000000000 = 0x0000000000000000 ∧ F64.fsin 0x8000000000000000 = 0x8000000000000000 ∧
  F64.fcos 0x0000000000000000 = 0x3FF0000000000000 ∧ F64.fcos 0x8000000000000000 = 0x3FF0000000000000 ∧
  (∀ a, F64.isFinite a = true →
    F64.isFinite (F64.fsin a) = true ∧ |F64.toRat (F64.fsin a)| ≤ 1 ∧
    F64.isFinite (F64.fcos a) = true ∧ |F64.toRat (F64.fcos a)| ≤ 1) ∧
  (∀ a, F64.isFinite a = false → F64.fsin a = Config.cnan ∧ F64.fcos a = Config.cnan)

/-- 00 R17: FSIN and FCOS are the binary64 values nearest the real sine and cosine, wherever the model's error bound decides the
rounding at one of its precisions (log 7). -/
def Obligations.SineAndCosineAreCorrectlyRounded : Prop :=
  ∀ (a : Word) (s : Bool) (m : Nat) (e : Int), F64.unpack a = .fin s m e →
    (Trig.certified m e (fun t => if s then -t.sin else t.sin) Trig.precisions ≠ none →
      ∀ u, F64.isFinite u = true →
        |((F64.toRat (F64.fsin a) : Rat) : ℝ) - Real.sin ((F64.toRat a : Rat) : ℝ)| ≤
          |((F64.toRat u : Rat) : ℝ) - Real.sin ((F64.toRat a : Rat) : ℝ)|) ∧
    (Trig.certified m e (fun t => t.cos) Trig.precisions ≠ none →
      ∀ u, F64.isFinite u = true →
        |((F64.toRat (F64.fcos a) : Rat) : ℝ) - Real.cos ((F64.toRat a : Rat) : ℝ)| ≤
          |((F64.toRat u : Rat) : ℝ) - Real.cos ((F64.toRat a : Rat) : ℝ)|)

/-! ## The whole machine -/

/-- 10 R66: an EVAL step depends on nothing GEN writes, and writes nothing of GEN's. All that R66 lets it write is compared:
E_*, DBG_*, the outputs, SEQ, and BUSY, DONE, ERR, ERRCODE, RV and REGIME. -/
def Obligations.EvalIgnoresTheGenerator : Prop :=
  ∀ s u : State, s.Inv → u.Inv → s.seq.isEval = true → u.seq = s.seq →
    u.eN = s.eN → u.eW = s.eW → u.eReg = s.eReg → u.dbgAcc = s.dbgAcc → u.dbgP1 = s.dbgP1 → u.dbgP2 = s.dbgP2 →
    u.dbgB = s.dbgB → u.draws = s.draws → u.cosOut = s.cosOut → u.sinOut = s.sinOut →
    (∀ j, j < 4096 → u.mem.readWord (0x10000 + 8 * j) = s.mem.readWord (0x10000 + 8 * j)) →
    (engineStep u).seq = (engineStep s).seq ∧ (engineStep u).dbgAcc = (engineStep s).dbgAcc ∧
    (engineStep u).dbgP1 = (engineStep s).dbgP1 ∧ (engineStep u).dbgP2 = (engineStep s).dbgP2 ∧
    (engineStep u).dbgB = (engineStep s).dbgB ∧ (engineStep u).cosOut = (engineStep s).cosOut ∧
    (engineStep u).sinOut = (engineStep s).sinOut ∧ (engineStep u).eN = (engineStep s).eN ∧
    (engineStep u).eW = (engineStep s).eW ∧ (engineStep u).eReg = (engineStep s).eReg ∧
    (engineStep u).status.busy = (engineStep s).status.busy ∧ (engineStep u).status.done = (engineStep s).status.done ∧
    (engineStep u).status.err = (engineStep s).status.err ∧
    (engineStep u).status.errcode = (engineStep s).status.errcode ∧
    (engineStep u).status.rv = (engineStep s).status.rv ∧
    (engineStep u).status.regime = (engineStep s).status.regime ∧
    (engineStep s).mem = s.mem ∧ (engineStep s).gKind = s.gKind ∧ (engineStep s).kind = s.kind ∧
    (engineStep s).status.tv = s.status.tv ∧ (engineStep s).status.tkind = s.status.tkind ∧
    (engineStep s).status.zk = s.status.zk

/-- 10 R66: a GEN step depends on G_KIND and SEQ alone, and writes nothing of EVAL's. All that R66 lets it write is compared:
G_KIND, X, W, SEQ, and BUSY, DONE, ERR, ERRCODE, TV, TKIND and ZK. -/
def Obligations.GenIgnoresTheEvaluator : Prop :=
  ∀ s u : State, s.Inv → u.Inv → s.seq.isGen = true → u.seq = s.seq → u.gKind = s.gKind →
    (engineStep u).seq = (engineStep s).seq ∧ (engineStep u).gKind = (engineStep s).gKind ∧
    (engineStep u).status.busy = (engineStep s).status.busy ∧ (engineStep u).status.done = (engineStep s).status.done ∧
    (engineStep u).status.err = (engineStep s).status.err ∧
    (engineStep u).status.errcode = (engineStep s).status.errcode ∧
    (engineStep u).status.tv = (engineStep s).status.tv ∧
    (engineStep u).status.tkind = (engineStep s).status.tkind ∧ (engineStep u).status.zk = (engineStep s).status.zk ∧
    (∀ a, inStorage a = true → u.mem.readByte a = s.mem.readByte a →
      (engineStep u).mem.readByte a = (engineStep s).mem.readByte a) ∧
    (∀ a, 0x10000 ≤ a → (engineStep s).mem.readByte a = s.mem.readByte a) ∧
    engineStep s = { s with
      mem := (engineStep s).mem, seq := (engineStep s).seq
      status := { s.status with
        busy := (engineStep s).status.busy, done := (engineStep s).status.done, tv := (engineStep s).status.tv } }

/-- 60 R205, R206 and 10 R37: no host transaction but SRST disturbs a running command: it changes only IE, the sticky and W1C flags, and the
host's own side: queue, schedule, response, names and the count of draws. -/
def Obligations.HostCannotDisturbARunningCommand : Prop :=
  ∀ s t : State, s.status.busy = true → nextIsHost s → ¬ nextResets s → step s = .next t →
    t = { s with
      ie := t.ie, host := t.host, turns := t.turns, lastRsp := t.lastRsp, names := t.names, draws := t.draws
      status := { s.status with
        done := t.status.done, err := t.status.err, errcode := t.status.errcode
        cbusy := t.status.cbusy, wbusy := t.status.wbusy, buserr := t.status.buserr } } ∧
    (s.status.done = false → t.status.done = false) ∧ (s.status.err = false → t.status.err = false)

/-- 10 R67: only its writers change a piece of state. -/
def Obligations.StateChangesOnlyByItsWriters : Prop :=
  ∀ s t : State, s.Inv → step s = .next t → ¬ nextResets s →
    (t.ie ≠ s.ie → ∃ v, nextWrites s 0x20 v) ∧
    (t.omega ≠ s.omega → s.status.busy = false ∧ nextWrites s 0x28 t.omega) ∧
    (t.len ≠ s.len → s.status.busy = false ∧ ∃ v, nextWrites s 0x30 v) ∧
    (t.kind ≠ s.kind → s.status.busy = false ∧ ∃ v, nextWrites s 0x38 v) ∧
    (∀ j, j < 4096 → t.mem.readWord (0x10000 + 8 * j) ≠ s.mem.readWord (0x10000 + 8 * j) →
      s.status.busy = false ∧ ∃ v, nextWrites s (0x10000 + 8 * j) v ∧
        t.mem.readWord (0x10000 + 8 * j) = some v) ∧
    (t.cosOut ≠ s.cosOut ∨ t.sinOut ≠ s.sinOut → nextIsEngine s ∧ s.seq = .evalFin) ∧
    (t.dbgAcc ≠ s.dbgAcc ∨ t.dbgP1 ≠ s.dbgP1 ∨ t.dbgP2 ≠ s.dbgP2 →
      nextWrites s 0x10 0x1 ∨ (nextIsEngine s ∧ ∃ k, s.seq = .evalIt k)) ∧
    (t.dbgB ≠ s.dbgB → nextWrites s 0x10 0x1) ∧
    (∀ a, a < 0x10000 → t.mem.readByte a ≠ s.mem.readByte a →
      nextWrites s 0x10 0x2 ∨ (nextIsEngine s ∧ ∃ l i, s.seq = .genPt l i)) ∧
    (t.seq ≠ s.seq → nextWrites s 0x10 0x1 ∨ nextWrites s 0x10 0x2 ∨ nextIsEngine s) ∧
    (t.eN ≠ s.eN ∨ t.eW ≠ s.eW ∨ t.eReg ≠ s.eReg → nextWrites s 0x10 0x1) ∧
    (t.gKind ≠ s.gKind → nextWrites s 0x10 0x2)

/-- 10 R37-R43: what alone can set and clear each flag of STATUS. -/
def Obligations.FlagsChangeOnlyByTheirEvents : Prop :=
  ∀ s t : State, step s = .next t → ¬ nextResets s →
    let final : Prop := nextIsEngine s ∧ (s.seq = .evalFin ∨ s.seq = .genFin)
    let accept : Prop := s.status.busy = false ∧ t.status.busy = true ∧ (nextWrites s 0x10 0x1 ∨ nextWrites s 0x10 0x2)
    let acceptNop : Prop := s.status.busy = false ∧ nextWrites s 0x10 0x0
    (s.status.busy = false → t.status.busy = true → accept) ∧
    (s.status.busy = true → t.status.busy = false → final) ∧
    (s.status.done = true → t.status.done = false → accept ∨ ∃ v, nextWrites s 0x18 v ∧ v.getLsbD 1 = true) ∧
    (s.status.done = false → t.status.done = true → final ∨ (s.status.busy = false ∧ ∃ c, nextWrites s 0x10 c)) ∧
    (s.status.err = false → t.status.err = true →
      s.status.busy = false ∧ t.status.busy = false ∧ ∃ c, nextWrites s 0x10 c ∧ c ≠ 0x0 ∧ c ≠ 0x2 ∧ c ≠ 0x5A) ∧
    (s.status.err = true → t.status.err = false →
      acceptNop ∨ accept ∨ ∃ v, nextWrites s 0x18 v ∧ v.getLsbD 2 = true) ∧
    (t.status.errcode ≠ s.status.errcode → t.status.errcode ≠ 0 →
      s.status.busy = false ∧ t.status.err = true ∧ ∃ c, nextWrites s 0x10 c ∧ c ≠ 0x0 ∧ c ≠ 0x2 ∧ c ≠ 0x5A) ∧
    (t.status.errcode ≠ s.status.errcode → t.status.errcode = 0 → t.status.err = false ∧
      (acceptNop ∨ accept ∨ ∃ v, nextWrites s 0x18 v ∧ v.getLsbD 2 = true)) ∧
    (t.status.rv ≠ s.status.rv →
      (t.status.rv = true ∧ nextIsEngine s ∧ s.seq = .evalFin) ∨
      (t.status.rv = false ∧ s.status.busy = false ∧ nextWrites s 0x10 0x1)) ∧
    (t.status.regime ≠ s.status.regime → s.status.busy = false ∧ nextWrites s 0x10 0x1) ∧
    (t.status.tv ≠ s.status.tv →
      (t.status.tv = true ∧ nextIsEngine s ∧ s.seq = .genFin) ∨
      (t.status.tv = false ∧ s.status.busy = false ∧ nextWrites s 0x10 0x2)) ∧
    (t.status.tkind ≠ s.status.tkind ∨ t.status.zk ≠ s.status.zk → s.status.busy = false ∧ nextWrites s 0x10 0x2) ∧
    (s.status.cbusy = true → t.status.cbusy = false → ∃ v, nextWrites s 0x18 v ∧ v.getLsbD 16 = true) ∧
    (s.status.wbusy = true → t.status.wbusy = false → ∃ v, nextWrites s 0x18 v ∧ v.getLsbD 17 = true) ∧
    (s.status.buserr = true → t.status.buserr = false → ∃ v, nextWrites s 0x18 v ∧ v.getLsbD 18 = true) ∧
    (s.status.cbusy = false → t.status.cbusy = true → s.status.busy = true ∧ ∃ c, nextWrites s 0x10 c) ∧
    (s.status.wbusy = false → t.status.wbusy = true → s.status.busy = true ∧
      ∃ a v, nextWrites s a v ∧ (a = 0x28 ∨ a = 0x30 ∨ a = 0x38 ∨ (0x10000 ≤ a ∧ a < 0x18000))) ∧
    (s.status.buserr = false → t.status.buserr = true → nextIsHost s ∧ errorAtHead s)

/-- 70 R250: with nothing scheduled, a running command completes, within 4097 steps (the model's default schedule, log 1). -/
def Obligations.RunningCommandCompletesByDefault : Prop :=
  ∀ s : State, s.Inv → s.rstN = true → s.turns = [] → s.status.busy = true →
    ∃ k t, k ≤ 4097 ∧ Host.Core.run Sys2Proof.core k s = .next t ∧ t.seq = .idle ∧ t.status.done = true ∧
      t.status.err = false ∧ t.host = s.host
end

