-- ==== Sys2Proof/Laws/Rounding.lean ====
section
/-! SUPPORT. What `roundMag` computes: the magnitude nearest to n/d, ties to even; so it is monotone and exact on magnitudes. -/

namespace Sys2Proof.Machine.F64

/-- The value of magnitude bits; at `infMag` it is 2^1024. -/
def magValue (mag : Nat) : ℚ :=
  if mag / 2 ^ 52 = 0 then (mag % 2 ^ 52 : Nat) * (2 : ℚ) ^ (-1074 : ℤ)
  else (2 ^ 52 + (mag % 2 ^ 52 : Nat)) * (2 : ℚ) ^ ((mag / 2 ^ 52 : Nat) - 1075 : ℤ)

theorem magValue_eq {c m : Nat} (h : m ≤ 2 ^ 53) (hc : c = 0 ∨ 2 ^ 52 ≤ m) :
    magValue (c * 2 ^ 52 + m) = m * (2 : ℚ) ^ ((c : ℤ) - 1074) := by
  unfold magValue
  rcases Nat.lt_or_ge m (2 ^ 52) with h1 | h1
  · obtain rfl : c = 0 := by omega
    have e1 : (0 * 2 ^ 52 + m) / 2 ^ 52 = 0 := by omega
    have e2 : (0 * 2 ^ 52 + m) % 2 ^ 52 = m := by omega
    rw [if_pos e1, e2]
    norm_num
  · rcases Nat.lt_or_ge m (2 ^ 53) with h2 | h2
    · have e1 : (c * 2 ^ 52 + m) / 2 ^ 52 = c + 1 := by omega
      have e2 : (c * 2 ^ 52 + m) % 2 ^ 52 = m - 2 ^ 52 := by omega
      rw [if_neg (by omega), e1, e2, Nat.cast_sub h1]
      have e3 : ((c + 1 : Nat) : ℤ) - 1075 = (c : ℤ) - 1074 := by push_cast; ring
      rw [e3]
      push_cast
      ring
    · obtain rfl : m = 2 ^ 53 := by omega
      have e1 : (c * 2 ^ 52 + 2 ^ 53) / 2 ^ 52 = c + 2 := by omega
      have e2 : (c * 2 ^ 52 + 2 ^ 53) % 2 ^ 52 = 0 := by omega
      rw [if_neg (by omega), e1, e2]
      have e3 : ((c + 2 : Nat) : ℤ) - 1075 = ((c : ℤ) - 1074) + 1 := by push_cast; ring
      rw [e3, zpow_add₀ (by norm_num : (2 : ℚ) ≠ 0)]
      push_cast
      ring

/-- Every magnitude is m units of an exponent: 53 bits, or the subnormal exponent. -/
theorem mag_split (mag : Nat) : ∃ c m, mag = c * 2 ^ 52 + m ∧ m < 2 ^ 53 ∧ (c = 0 ∨ 2 ^ 52 ≤ m) :=
  ⟨mag / 2 ^ 52 - 1, mag - (mag / 2 ^ 52 - 1) * 2 ^ 52, by omega, by omega, by omega⟩

theorem two_zpow_pos (q : ℤ) : (0 : ℚ) < (2 : ℚ) ^ q := by positivity

theorem magValue_strictMono : StrictMono magValue := by
  refine strictMono_nat_of_lt_succ fun mag => ?_
  obtain ⟨c, m, rfl, h1, h2⟩ := mag_split mag
  rw [magValue_eq h1.le h2, Nat.add_assoc, magValue_eq (m := m + 1) (by omega) (by omega)]
  have := two_zpow_pos ((c : ℤ) - 1074)
  push_cast
  nlinarith

theorem magValue_zero : magValue 0 = 0 := by norm_num [magValue]

theorem magValue_nonneg (mag : Nat) : 0 ≤ magValue mag := by
  rw [← magValue_zero]
  exact magValue_strictMono.monotone (Nat.zero_le _)

theorem magValue_le_iff {a b : Nat} : magValue a ≤ magValue b ↔ a ≤ b := magValue_strictMono.le_iff_le

theorem magValue_inj {a b : Nat} : magValue a = magValue b ↔ a = b := magValue_strictMono.injective.eq_iff

/-- Shifting both terms of a fraction by the two parts of an exponent scales it. -/
theorem scale_frac (n d : Nat) (hd : 0 < d) (q : ℤ) :
    ((n * 2 ^ (-q).toNat : Nat) : ℚ) / ((d * 2 ^ q.toNat : Nat) : ℚ) = (n : ℚ) / d / (2 : ℚ) ^ q := by
  have hd' : (d : ℚ) ≠ 0 := by positivity
  rcases le_total 0 q with h | h
  · obtain ⟨k, rfl⟩ := Int.eq_ofNat_of_zero_le h
    simp [zpow_natCast, div_div]
  · obtain ⟨k, hk⟩ := Int.eq_ofNat_of_zero_le (Int.neg_nonneg_of_nonpos h)
    obtain rfl : q = -(k : ℤ) := by omega
    simp [zpow_neg, zpow_natCast]
    ring

theorem log2Rat_spec {n d : Nat} (hn : 0 < n) (hd : 0 < d) :
    (2 : ℚ) ^ log2Rat n d ≤ (n : ℚ) / d ∧ (n : ℚ) / d < (2 : ℚ) ^ (log2Rat n d + 1) := by
  have hd' : (0 : ℚ) < d := by exact_mod_cast hd
  have hn' : (0 : ℚ) < n := by exact_mod_cast hn
  have n1 : (2 : ℚ) ^ (n.log2 : ℤ) ≤ n := by exact_mod_cast Nat.log2_self_le hn.ne'
  have n2 : (n : ℚ) < 2 ^ ((n.log2 : ℤ) + 1) := by exact_mod_cast Nat.lt_log2_self
  have d1 : (2 : ℚ) ^ (d.log2 : ℤ) ≤ d := by exact_mod_cast Nat.log2_self_le hd.ne'
  have d2 : (d : ℚ) < 2 ^ ((d.log2 : ℤ) + 1) := by exact_mod_cast Nat.lt_log2_self
  set k : ℤ := (n.log2 : ℤ) - (d.log2 : ℤ) with hk
  have two : (2 : ℚ) ≠ 0 := by norm_num
  have up : (n : ℚ) / d < 2 ^ (k + 1) := by
    rw [div_lt_iff₀ hd']
    have e : (2 : ℚ) ^ ((n.log2 : ℤ) + 1) = 2 ^ (k + 1) * 2 ^ (d.log2 : ℤ) := by
      rw [← zpow_add₀ two]; congr 1; omega
    calc (n : ℚ) < 2 ^ ((n.log2 : ℤ) + 1) := n2
      _ = 2 ^ (k + 1) * 2 ^ (d.log2 : ℤ) := e
      _ ≤ 2 ^ (k + 1) * d := by gcongr
  have low : (2 : ℚ) ^ (k - 1) ≤ (n : ℚ) / d := by
    rw [le_div_iff₀ hd']
    have e : (2 : ℚ) ^ (n.log2 : ℤ) = 2 ^ (k - 1) * 2 ^ ((d.log2 : ℤ) + 1) := by
      rw [← zpow_add₀ two]; congr 1; omega
    calc (2 : ℚ) ^ (k - 1) * d ≤ 2 ^ (k - 1) * 2 ^ ((d.log2 : ℤ) + 1) := by gcongr
      _ = 2 ^ (n.log2 : ℤ) := e.symm
      _ ≤ n := n1
  have test : n * 2 ^ (-k).toNat < d * 2 ^ k.toNat ↔ (n : ℚ) / d < 2 ^ k := by
    have hs := scale_frac n d hd k
    have hD : (0 : ℚ) < ((d * 2 ^ k.toNat : Nat) : ℚ) := by positivity
    rw [← div_lt_one (two_zpow_pos k), ← hs, div_lt_one hD]
    exact_mod_cast Iff.rfl
  have hl : log2Rat n d = if n * 2 ^ (-k).toNat < d * 2 ^ k.toNat then k - 1 else k := rfl
  rw [hl]
  split
  · rename_i h
    exact ⟨low, by simpa using test.1 h⟩
  · rename_i h
    exact ⟨not_lt.1 (fun h' => h (test.2 h')), up⟩

/-- `nearestEven` is within half a unit; at exactly half it is even. -/
theorem nearestEven_spec {N D : Nat} (hD : 0 < D) :
    |(nearestEven N D : ℚ) - (N : ℚ) / D| ≤ 1 / 2 ∧
      (|(nearestEven N D : ℚ) - (N : ℚ) / D| = 1 / 2 → nearestEven N D % 2 = 0) := by
  have hD' : (0 : ℚ) < D := by exact_mod_cast hD
  have hN : (N : ℚ) / D = (N / D : Nat) + ((N % D : Nat) : ℚ) / D := by
    have h : ((D * (N / D) + N % D : Nat) : ℚ) = N := by exact_mod_cast congrArg Nat.cast (Nat.div_add_mod N D)
    rw [← h, Nat.cast_add, Nat.cast_mul, add_div, mul_div_cancel_left₀ _ hD'.ne']
  have hr : N % D < D := Nat.mod_lt _ hD
  have r0 : (0 : ℚ) ≤ ((N % D : Nat) : ℚ) / D := by positivity
  have r1 : ((N % D : Nat) : ℚ) / D < 1 := by rw [div_lt_one hD']; exact_mod_cast hr
  unfold nearestEven
  simp only
  split
  · rename_i h
    have h2 : (1 / 2 : ℚ) ≤ ((N % D : Nat) : ℚ) / D := by
      rw [le_div_iff₀ hD']
      have : (D : ℚ) ≤ 2 * (N % D : Nat) := by exact_mod_cast (by omega : D ≤ 2 * (N % D))
      linarith
    rw [hN, Nat.cast_add, Nat.cast_one]
    constructor
    · rw [abs_le]; constructor <;> linarith
    · intro h3
      rw [abs_of_nonneg (by linarith)] at h3
      have h4 : ((N % D : Nat) : ℚ) / D = 1 / 2 := by linarith
      rw [div_eq_iff hD'.ne'] at h4
      have h5 : 2 * (N % D) = D := by
        have : (2 * (N % D : Nat) : ℚ) = D := by linarith
        exact_mod_cast this
      omega
  · rename_i h
    have h2 : ((N % D : Nat) : ℚ) / D ≤ 1 / 2 := by
      rw [div_le_iff₀ hD']
      have : (2 * (N % D : Nat) : ℚ) ≤ D := by exact_mod_cast (by omega : 2 * (N % D) ≤ D)
      linarith
    rw [hN]
    constructor
    · rw [abs_le]; constructor <;> linarith
    · intro h3
      rw [abs_of_nonpos (by linarith)] at h3
      have h4 : ((N % D : Nat) : ℚ) / D = 1 / 2 := by linarith
      rw [div_eq_iff hD'.ne'] at h4
      have h5 : 2 * (N % D) = D := by
        have : (2 * (N % D : Nat) : ℚ) = D := by linarith
        exact_mod_cast this
      omega

theorem roundMag_le (n d : Nat) : roundMag n d ≤ infMag := by
  unfold roundMag
  split
  · exact Nat.zero_le _
  · exact min_le_right _ _

/-- The rounding before the bound of infinity: an integer number of units, a magnitude, nearest, ties to even. -/
theorem rounding_unbounded {n d : Nat} (hn : 0 < n) (hd : 0 < d) :
    ∃ B, roundMag n d = min B infMag ∧
      (∀ b, |magValue B - (n : ℚ) / d| ≤ |magValue b - (n : ℚ) / d|) ∧
      (∀ b, b ≠ B → |magValue B - (n : ℚ) / d| = |magValue b - (n : ℚ) / d| → B % 2 = 0) := by
  have two : (2 : ℚ) ≠ 0 := by norm_num
  obtain ⟨l1, l2⟩ := log2Rat_spec hn hd
  set x : ℚ := (n : ℚ) / d with hx
  obtain ⟨q, hq⟩ : ∃ q, quantum n d = q := ⟨_, rfl⟩
  have q1 : -1074 ≤ q := by rw [← hq]; exact le_max_right _ _
  have q2 : log2Rat n d ≤ q + 52 := by
    have : log2Rat n d - 52 ≤ q := by rw [← hq]; exact le_max_left _ _
    omega
  have q3 : q = -1074 ∨ q = log2Rat n d - 52 := by
    rw [← hq]; unfold quantum; omega
  have hs := scale_frac n d hd q
  obtain ⟨c, hc⟩ := Int.eq_ofNat_of_zero_le (by omega : 0 ≤ q + 1074)
  have hD : 0 < d * 2 ^ q.toNat := by positivity
  obtain ⟨ne1, ne2⟩ := nearestEven_spec (N := n * 2 ^ (-q).toNat) hD
  set m := nearestEven (n * 2 ^ (-q).toNat) (d * 2 ^ q.toNat) with hm
  rw [hs, ← hx] at ne1 ne2
  have u := two_zpow_pos q
  set U : ℚ := (2 : ℚ) ^ q with hU
  -- y = x / U is below 2^53, and at least 2^52 unless the exponent is the subnormal one
  have y1 : x / U < 2 ^ 53 := by
    rw [div_lt_iff₀ u]
    have e : (2 : ℚ) ^ (53 : ℕ) * U = 2 ^ (q + 53) := by rw [hU, zpow_add₀ two]; norm_num; ring
    rw [e]
    refine lt_of_lt_of_le l2 (zpow_le_zpow_right₀ (by norm_num) (by omega))
  have y0 : 0 ≤ x / U := by positivity
  have m1 : m ≤ 2 ^ 53 := by
    have h := (abs_le.1 ne1).2
    have : (m : ℚ) < ((2 ^ 53 + 1 : Nat) : ℚ) := by push_cast; linarith
    have := Nat.cast_lt.1 this
    omega
  have y2 : q ≠ -1074 → 2 ^ 52 ≤ x / U := by
    intro h
    have hq' : q = log2Rat n d - 52 := by omega
    rw [le_div_iff₀ u]
    have e : (2 : ℚ) ^ (52 : ℕ) * U = 2 ^ (q + 52) := by rw [hU, zpow_add₀ two]; norm_num; ring
    rw [e]
    have : q + 52 = log2Rat n d := by omega
    rw [this]
    exact l1
  have m2 : c = 0 ∨ 2 ^ 52 ≤ m := by
    rcases Nat.eq_zero_or_pos c with h | h
    · exact .inl h
    · right
      have h3 := y2 (by omega)
      have h := (abs_le.1 ne1).1
      have : ((2 ^ 52 - 1 : Nat) : ℚ) < m := by push_cast; linarith
      have := Nat.cast_lt.1 this
      omega
  have cq : (c : ℤ) - 1074 = q := by omega
  have vB : magValue (c * 2 ^ 52 + m) = m * U := by rw [magValue_eq m1 m2, cq]
  have xU : x = x / U * U := by rw [div_mul_cancel₀ _ u.ne']
  set y := x / U with hy
  have a1 := abs_le.1 ne1
  have dB : |magValue (c * 2 ^ 52 + m) - x| = |(m : ℚ) - y| * U := by
    rw [vB]
    nth_rw 1 [xU]
    rw [← sub_mul, abs_mul, abs_of_pos u]
  -- a magnitude above is at least one unit above, or x is not above the result; and the same below
  have above : ∀ b, c * 2 ^ 52 + m < b →
      (1 / 2 * U ≤ |magValue b - x| ∧ ((m : ℚ) - y) * U ≤ |magValue b - x|) ∨
        (x < magValue (c * 2 ^ 52 + m) ∧ magValue (c * 2 ^ 52 + m) < magValue b) := by
    intro b hb
    rcases Nat.lt_or_ge m (2 ^ 53) with h | h
    · left
      have h1 : magValue (c * 2 ^ 52 + (m + 1)) ≤ magValue b := magValue_le_iff.2 (by omega)
      rw [magValue_eq (by omega) (by omega), cq] at h1
      push_cast at h1
      have h2 : 1 / 2 * U ≤ magValue b - x := by nlinarith
      exact ⟨h2.trans (le_abs_self _), le_trans (by nlinarith) (le_abs_self (magValue b - x))⟩
    · right
      have : m = 2 ^ 53 := by omega
      refine ⟨?_, magValue_strictMono hb⟩
      rw [vB, xU, this]
      push_cast
      nlinarith
  have below : ∀ b, b < c * 2 ^ 52 + m →
      1 / 2 * U ≤ |magValue b - x| ∨
        (magValue (c * 2 ^ 52 + m) ≤ x ∧ magValue b < magValue (c * 2 ^ 52 + m)) := by
    intro b hb
    by_cases h : 2 ^ 52 < m ∨ c = 0
    · left
      have hm0 : 1 ≤ m := by omega
      have h1 : magValue b ≤ magValue (c * 2 ^ 52 + (m - 1)) := magValue_le_iff.2 (by omega)
      rw [magValue_eq (by omega) (by omega), cq, Nat.cast_sub hm0] at h1
      push_cast at h1
      have h2 : 1 / 2 * U ≤ -(magValue b - x) := by nlinarith
      exact h2.trans (neg_le_abs _)
    · right
      have hm' : m = 2 ^ 52 := by omega
      refine ⟨?_, magValue_strictMono hb⟩
      have := y2 (by omega)
      rw [vB, xU, hm']
      push_cast
      nlinarith
  have half : |(m : ℚ) - y| * U ≤ 1 / 2 * U := by gcongr
  refine ⟨c * 2 ^ 52 + m, ?_, fun b => ?_, fun b hb hEq => ?_⟩
  · unfold roundMag
    rw [if_neg hn.ne']
    have : (q + 1074).toNat = c := by omega
    simp only [hq, ← hm, this]
  · rcases Nat.lt_trichotomy b (c * 2 ^ 52 + m) with hb | hb | hb
    · rcases below b hb with h | ⟨h1, h2⟩
      · rw [dB]; exact half.trans h
      · rw [abs_of_nonpos (by linarith), abs_of_nonpos (by linarith)]; linarith
    · rw [hb]
    · rcases above b hb with ⟨h, -⟩ | ⟨h1, h2⟩
      · rw [dB]; exact half.trans h
      · rw [abs_of_nonneg (by linarith), abs_of_nonneg (by linarith)]; linarith
  · have hodd : |(m : ℚ) - y| = 1 / 2 := by
      rcases Nat.lt_or_gt_of_ne hb with hb | hb
      · rcases below b hb with h | ⟨h1, h2⟩
        · rw [← hEq, dB] at h
          exact le_antisymm ne1 (le_of_mul_le_mul_right h u)
        · rw [abs_of_nonpos (by linarith), abs_of_nonpos (by linarith)] at hEq
          linarith
      · rcases above b hb with ⟨h, -⟩ | ⟨h1, h2⟩
        · rw [← hEq, dB] at h
          exact le_antisymm ne1 (le_of_mul_le_mul_right h u)
        · rw [abs_of_nonneg (by linarith), abs_of_nonneg (by linarith)] at hEq
          linarith
    have := ne2 hodd
    omega

/-- `roundMag` is nearest among the magnitudes up to infinity's. -/
theorem roundMag_nearest {n d : Nat} (hd : 0 < d) {b : Nat} (hb : b ≤ infMag) :
    |magValue (roundMag n d) - (n : ℚ) / d| ≤ |magValue b - (n : ℚ) / d| := by
  rcases Nat.eq_zero_or_pos n with rfl | hn
  · simp [roundMag, magValue_zero]
  obtain ⟨B, hB, h1, -⟩ := rounding_unbounded hn hd
  rw [hB]
  rcases le_or_gt B infMag with h | h
  · rw [min_eq_left h]; exact h1 b
  · rw [min_eq_right h.le]
    have h2 := h1 infMag
    have h3 := magValue_strictMono h
    have h4 := magValue_le_iff.2 hb
    have h5 : magValue infMag ≤ (n : ℚ) / d := by
      by_contra hc
      rw [abs_of_nonneg (by linarith), abs_of_nonneg (by linarith)] at h2
      linarith
    rw [abs_of_nonpos (by linarith), abs_of_nonpos (by linarith)]
    linarith

/-- At a tie `roundMag` is even. -/
theorem roundMag_tie_even {n d : Nat} (hd : 0 < d) {b : Nat} (hne : b ≠ roundMag n d)
    (h : |magValue (roundMag n d) - (n : ℚ) / d| = |magValue b - (n : ℚ) / d|) : roundMag n d % 2 = 0 := by
  rcases Nat.eq_zero_or_pos n with rfl | hn
  · simp [roundMag]
  obtain ⟨B, hB, h1, h2⟩ := rounding_unbounded hn hd
  rw [hB] at h hne ⊢
  rcases le_or_gt B infMag with h' | h'
  · rw [min_eq_left h'] at h hne ⊢
    exact h2 b hne h
  · rw [min_eq_right h'.le]
    norm_num [infMag]

/-- The rounding depends on the value alone and is monotone. -/
theorem roundMag_mono {n d n' d' : Nat} (hd : 0 < d) (hd' : 0 < d') (h : (n : ℚ) / d ≤ (n' : ℚ) / d') :
    roundMag n d ≤ roundMag n' d' := by
  by_contra hc
  have hc : roundMag n' d' < roundMag n d := not_le.1 hc
  have v := magValue_strictMono hc
  have a := roundMag_nearest (n := n) hd (roundMag_le n' d')
  have b := roundMag_nearest (n := n') hd' (roundMag_le n d)
  -- both values lie at the midpoint, hence are equal
  have a' : magValue (roundMag n d) + magValue (roundMag n' d') ≤ 2 * ((n : ℚ) / d) := by
    rcases abs_cases (magValue (roundMag n d) - (n : ℚ) / d) with ⟨e, _⟩ | ⟨e, _⟩ <;>
    rcases abs_cases (magValue (roundMag n' d') - (n : ℚ) / d) with ⟨e', _⟩ | ⟨e', _⟩ <;>
    rw [e, e'] at a <;> linarith
  have b' : 2 * ((n' : ℚ) / d') ≤ magValue (roundMag n d) + magValue (roundMag n' d') := by
    rcases abs_cases (magValue (roundMag n d) - (n' : ℚ) / d') with ⟨e, _⟩ | ⟨e, _⟩ <;>
    rcases abs_cases (magValue (roundMag n' d') - (n' : ℚ) / d') with ⟨e', _⟩ | ⟨e', _⟩ <;>
    rw [e, e'] at b <;> linarith
  have hx : (n : ℚ) / d = (n' : ℚ) / d' := by linarith
  have tie : |magValue (roundMag n d) - (n : ℚ) / d| = |magValue (roundMag n' d') - (n : ℚ) / d| := by
    rw [abs_of_nonneg (by linarith), abs_of_nonpos (by linarith)]
    linarith
  have e1 := roundMag_tie_even hd hc.ne tie
  have e2 := roundMag_tie_even hd' hc.ne' (by rw [← hx]; exact tie.symm)
  -- both are even, so a magnitude lies between them, nearer than either
  have g : roundMag n' d' + 1 < roundMag n d := by omega
  have s1 : magValue (roundMag n' d') < magValue (roundMag n' d' + 1) := magValue_strictMono (by omega)
  have s2 := magValue_strictMono g
  have c := roundMag_nearest (n := n) hd (b := roundMag n' d' + 1) (by have := roundMag_le n d; omega)
  have d1 := c
  rw [abs_of_nonneg (by linarith)] at c
  rw [tie, abs_of_nonpos (by linarith)] at d1
  rcases abs_cases (magValue (roundMag n' d' + 1) - (n : ℚ) / d) with ⟨e, _⟩ | ⟨e, _⟩ <;>
  rw [e] at c d1 <;> linarith

/-- Equal values round alike. -/
theorem roundMag_congr {n d n' d' : Nat} (hd : 0 < d) (hd' : 0 < d') (h : (n : ℚ) / d = (n' : ℚ) / d') :
    roundMag n d = roundMag n' d' :=
  le_antisymm (roundMag_mono hd hd' h.le) (roundMag_mono hd' hd h.ge)

/-- The value of a magnitude rounds to it. -/
theorem roundMag_exact {n d b : Nat} (hd : 0 < d) (hb : b ≤ infMag) (h : (n : ℚ) / d = magValue b) :
    roundMag n d = b := by
  have := roundMag_nearest (n := n) hd hb
  rw [h, sub_self, abs_zero, abs_nonpos_iff, sub_eq_zero] at this
  exact magValue_inj.1 this

/-- A value not above a magnitude rounds to no more. -/
theorem roundMag_le_of {n d b : Nat} (hd : 0 < d) (hb : b ≤ infMag) (h : (n : ℚ) / d ≤ magValue b) :
    roundMag n d ≤ b := by
  by_contra hc
  have hc := not_le.1 hc
  have v := magValue_strictMono hc
  have a := roundMag_nearest (n := n) hd hb
  rw [abs_of_nonneg (by linarith), abs_of_nonneg (by linarith)] at a
  linarith

/-- A value not below a magnitude rounds to no less. -/
theorem le_roundMag_of {n d b : Nat} (hd : 0 < d) (hb : b ≤ infMag) (h : magValue b ≤ (n : ℚ) / d) :
    b ≤ roundMag n d := by
  by_contra hc
  have hc := not_le.1 hc
  have v := magValue_strictMono hc
  have a := roundMag_nearest (n := n) hd hb
  rw [abs_of_nonpos (by linarith), abs_of_nonpos (by linarith)] at a
  linarith

end Sys2Proof.Machine.F64
end

