-- ==== Sys2Proof/Laws/Binary64.lean ====
section
/-! SUPPORT. Laws of binary64 words: the fields of a built word, its value, and what each primitive answers (00 R11-R16). -/

namespace Sys2Proof.Machine.F64

theorem infMag_lt : infMag < 2 ^ 63 := by norm_num [infMag]

theorem withSign_toNat (neg : Bool) {mag : Nat} (h : mag < 2 ^ 63) :
    (withSign neg mag).toNat = mag + if neg then 2 ^ 63 else 0 := by
  rw [withSign, BitVec.toNat_ofNat, Nat.mod_eq_of_lt]
  split <;> omega

theorem expField_eq (v : Word) : expField v = v.toNat / 2 ^ 52 % 2 ^ 11 := by
  simp [expField, BitVec.extractLsb'_toNat, Nat.shiftRight_eq_div_pow]

theorem fracField_eq (v : Word) : fracField v = v.toNat % 2 ^ 52 := by
  simp [fracField, BitVec.extractLsb'_toNat]

theorem signBit_eq (v : Word) : signBit v = decide (2 ^ 63 ≤ v.toNat) := by
  have h := v.isLt
  have : signBit v = v.msb := by simp [signBit, BitVec.msb_eq_getLsbD_last]
  rw [this, BitVec.msb_eq_decide]

theorem mag_eq (v : Word) : (v.extractLsb' 0 63).toNat = v.toNat % 2 ^ 63 := by
  simp [BitVec.extractLsb'_toNat]

/-- A word is its sign over its magnitude. -/
theorem eq_withSign (v : Word) : v = withSign (signBit v) (v.toNat % 2 ^ 63) := by
  have h := v.isLt
  apply BitVec.eq_of_toNat_eq
  rw [withSign_toNat _ (by omega), signBit_eq]
  by_cases h' : 2 ^ 63 ≤ v.toNat
  · simp only [h', decide_true, if_true]; omega
  · simp only [h', decide_false]; simp; omega

section built
variable (neg : Bool) {mag : Nat} (h : mag < 2 ^ 63)
include h

theorem expField_withSign : expField (withSign neg mag) = mag / 2 ^ 52 := by
  rw [expField_eq, withSign_toNat neg h]; split <;> omega

theorem fracField_withSign : fracField (withSign neg mag) = mag % 2 ^ 52 := by
  rw [fracField_eq, withSign_toNat neg h]; split <;> omega

theorem signBit_withSign : signBit (withSign neg mag) = neg := by
  rw [signBit_eq, withSign_toNat neg h]
  cases neg
  · simp; omega
  · simp

theorem mag_withSign : (withSign neg mag).toNat % 2 ^ 63 = mag := by
  rw [withSign_toNat neg h]; split <;> omega

end built

theorem withSign_inj {s t : Bool} {a b : Nat} (ha : a < 2 ^ 63) (hb : b < 2 ^ 63) (h : withSign s a = withSign t b) :
    s = t ∧ a = b := by
  have h1 := congrArg signBit h
  have h2 := congrArg (fun w : Word => w.toNat % 2 ^ 63) h
  simp only [signBit_withSign _ ha, signBit_withSign _ hb, mag_withSign _ ha, mag_withSign _ hb] at h1 h2
  exact ⟨h1, h2⟩

theorem isNaN_withSign (neg : Bool) {mag : Nat} (h : mag ≤ infMag) : isNaN (withSign neg mag) = false := by
  have h' : mag < 2 ^ 63 := lt_of_le_of_lt h infMag_lt
  unfold infMag at h
  by_contra hc
  simp only [isNaN, expField_withSign neg h', fracField_withSign neg h', Bool.not_eq_false, Bool.and_eq_true,
    beq_iff_eq, bne_iff_ne] at hc
  omega

theorem isFinite_withSign (neg : Bool) {mag : Nat} (h : mag ≤ infMag) :
    isFinite (withSign neg mag) = decide (mag < infMag) := by
  have h' : mag < 2 ^ 63 := lt_of_le_of_lt h infMag_lt
  unfold infMag at h ⊢
  rw [isFinite, expField_withSign neg h', Bool.eq_iff_iff]
  simp only [bne_iff_ne, decide_eq_true_eq]
  omega

theorem isFinite_iff {v : Word} : isFinite v = true ↔ v.toNat % 2 ^ 63 < infMag := by
  have h := v.isLt
  unfold infMag
  simp only [isFinite, bne_iff_ne, expField_eq]
  omega

/-- The three kinds of word. -/
theorem unpack_cases (v : Word) :
    (unpack v = .nan ∧ isNaN v = true ∧ isFinite v = false) ∨
    (unpack v = .inf (signBit v) ∧ isNaN v = false ∧ isFinite v = false ∧ v = withSign (signBit v) infMag) ∨
    (∃ c m : Nat, unpack v = .fin (signBit v) m ((c : ℤ) - 1074) ∧ isNaN v = false ∧ isFinite v = true ∧
      v = withSign (signBit v) (c * 2 ^ 52 + m) ∧ c * 2 ^ 52 + m < infMag ∧ m < 2 ^ 53 ∧ (c = 0 ∨ 2 ^ 52 ≤ m)) := by
  have hv := v.isLt
  have hw := eq_withSign v
  by_cases h1 : expField v = 0x7FF
  · by_cases h2 : fracField v = 0
    · right; left
      refine ⟨by simp [unpack, h1, h2], by simp [isNaN, h2], by simp [isFinite, h1], ?_⟩
      rw [expField_eq] at h1
      rw [fracField_eq] at h2
      have : v.toNat % 2 ^ 63 = infMag := by unfold infMag; omega
      rw [← this]; exact hw
    · left
      exact ⟨by simp [unpack, h1, h2], by simp [isNaN, h1, h2], by simp [isFinite, h1]⟩
  · right; right
    have h0 : isNaN v = false := by simp [isNaN, h1]
    have hf : isFinite v = true := by simp [isFinite, h1]
    have hi := isFinite_iff.1 hf
    by_cases h2 : expField v = 0
    · refine ⟨0, fracField v, by simp [unpack, h2], h0, hf, ?_, ?_, ?_, .inl rfl⟩
      · rw [expField_eq] at h2
        have : v.toNat % 2 ^ 63 = 0 * 2 ^ 52 + fracField v := by rw [fracField_eq]; omega
        rw [← this]; exact hw
      · rw [fracField_eq]; unfold infMag; omega
      · rw [fracField_eq]; omega
    · have e : expField v = v.toNat % 2 ^ 63 / 2 ^ 52 := by rw [expField_eq]; omega
      refine ⟨expField v - 1, 2 ^ 52 + fracField v, ?_, h0, hf, ?_, ?_, ?_, .inr (by omega)⟩
      · simp only [unpack, h1, h2, if_false, Datum.fin.injEq, true_and]
        omega
      · have : v.toNat % 2 ^ 63 = (expField v - 1) * 2 ^ 52 + (2 ^ 52 + fracField v) := by
          rw [e, fracField_eq]; rw [e] at h2; omega
        rw [← this]; exact hw
      · rw [e, fracField_eq]; rw [e] at h1 h2; unfold infMag at hi ⊢; omega
      · rw [fracField_eq]; omega

theorem canon_of_not_nan {v : Word} (h : isNaN v = false) : canon v = v := by simp [canon, h]

@[simp] theorem canon_cnan : canon Config.cnan = Config.cnan := by decide

@[simp] theorem canon_zero : canon Config.zero = Config.zero := by decide

@[simp] theorem canon_one : canon Config.one = Config.one := by decide

theorem canon_canon (v : Word) : canon (canon v) = canon v := by
  unfold canon
  split
  · decide
  · simp

theorem canon_withSign (neg : Bool) {mag : Nat} (h : mag ≤ infMag) : canon (withSign neg mag) = withSign neg mag :=
  canon_of_not_nan (isNaN_withSign neg h)

theorem canon_roundRat (neg : Bool) (n d : Nat) : canon (roundRat neg n d) = roundRat neg n d :=
  canon_withSign neg (roundMag_le n d)

theorem canon_roundDyadic (neg : Bool) (m : Nat) (e : ℤ) : canon (roundDyadic neg m e) = roundDyadic neg m e :=
  canon_roundRat _ _ _

theorem canon_roundInt (x e : ℤ) : canon (roundInt x e) = roundInt x e := canon_roundRat _ _ _

theorem canon_inf (neg : Bool) : canon (withSign neg infMag) = withSign neg infMag := canon_withSign neg le_rfl

theorem canon_signedZero (neg : Bool) : canon (withSign neg 0) = withSign neg 0 := canon_withSign neg (Nat.zero_le _)

/-- The result of `add` is no NaN but CNAN (00 R14). -/
theorem canon_add (a b : Word) : canon (add a b) = add a b := by
  unfold add
  split <;> (try dsimp only) <;> (try split) <;>
    simp only [canon_cnan, canon_inf, canon_signedZero, canon_roundInt]

theorem canon_sub (a b : Word) : canon (sub a b) = sub a b := canon_add _ _

theorem canon_mul (a b : Word) : canon (mul a b) = mul a b := by
  unfold mul
  split <;> (try split) <;> simp only [canon_cnan, canon_inf, canon_roundDyadic]

theorem canon_div (a b : Word) : canon (div a b) = div a b := by
  unfold div
  split <;> (try split) <;> (try split) <;>
    simp only [canon_cnan, canon_inf, canon_signedZero, canon_roundRat]

theorem flipSign_toNat (a : Word) : (flipSign a).toNat = (a.toNat + 2 ^ 63) % 2 ^ 64 := by
  have e : (0x8000000000000000#64 : BitVec 64) = BitVec.cons true (0#63) := by decide
  have h := a.isLt
  have h' := (BitVec.setWidth 63 a).isLt
  rw [flipSign, e, ← BitVec.cons_msb_setWidth a, BitVec.cons_xor_cons, BitVec.toNat_cons', BitVec.toNat_cons']
  cases a.msb <;> simp <;> omega

theorem flipSign_withSign (neg : Bool) {mag : Nat} (h : mag < 2 ^ 63) :
    flipSign (withSign neg mag) = withSign (!neg) mag := by
  apply BitVec.eq_of_toNat_eq
  rw [flipSign_toNat, withSign_toNat _ h, withSign_toNat _ h]
  cases neg <;> simp <;> omega

theorem expField_flipSign (a : Word) : expField (flipSign a) = expField a := by
  have := a.isLt
  rw [expField_eq, expField_eq, flipSign_toNat]; omega

theorem fracField_flipSign (a : Word) : fracField (flipSign a) = fracField a := by
  have := a.isLt
  rw [fracField_eq, fracField_eq, flipSign_toNat]; omega

theorem signBit_flipSign (a : Word) : signBit (flipSign a) = !signBit a := by
  have := a.isLt
  rw [signBit_eq, signBit_eq, flipSign_toNat, Bool.eq_iff_iff]
  simp only [decide_eq_true_eq, Bool.not_eq_true', decide_eq_false_iff_not]
  omega

theorem isNaN_flipSign (a : Word) : isNaN (flipSign a) = isNaN a := by
  simp [isNaN, expField_flipSign, fracField_flipSign]

theorem canon_neg (a : Word) : canon (neg a) = neg a := by
  unfold neg
  split
  · exact canon_cnan
  · rename_i h
    exact canon_of_not_nan (by rw [isNaN_flipSign]; simpa using h)

/-- The value of a finite word. -/
theorem toRat_withSign (neg : Bool) {mag : Nat} (h : mag < infMag) :
    toRat (withSign neg mag) = (if neg then -1 else 1) * magValue mag := by
  have h' : mag < 2 ^ 63 := lt_trans h infMag_lt
  have h7 : mag / 2 ^ 52 ≠ 0x7FF := by unfold infMag at h; omega
  unfold toRat unpack magValue
  rw [expField_withSign neg h', fracField_withSign neg h', signBit_withSign neg h', if_neg h7]
  by_cases h0 : mag / 2 ^ 52 = 0
  · simp only [h0, if_true, mul_assoc]
  · simp only [h0, if_false, mul_assoc]
    push_cast
    ring

theorem toRat_fin {v : Word} {s : Bool} {m : Nat} {e : ℤ} (h : unpack v = .fin s m e) :
    toRat v = (if s then -1 else 1) * (m : ℚ) * (2 : ℚ) ^ e := by
  simp [toRat, h]

theorem unpack_fin_of_finite {v : Word} (h : isFinite v = true) : ∃ m e, unpack v = .fin (signBit v) m e := by
  rcases unpack_cases v with ⟨-, -, h'⟩ | ⟨-, -, h', -⟩ | ⟨c, m, h', -⟩
  · simp [h] at h'
  · simp [h] at h'
  · exact ⟨m, _, h'⟩

theorem isFinite_of_unpack_fin {v : Word} {s : Bool} {m : Nat} {e : ℤ} (h : unpack v = .fin s m e) :
    isFinite v = true := by
  rcases unpack_cases v with ⟨h', -⟩ | ⟨h', -⟩ | ⟨c, m, -, -, h', -⟩
  · simp [h] at h'
  · simp [h] at h'
  · exact h'

theorem signed_cast (s : Bool) (m : Nat) : ((signed s m : ℤ) : ℚ) = (if s then -1 else 1) * (m : ℚ) := by
  cases s <;> simp [signed]

/-- A finite result word is `x` rounded to nearest, ties to even; an infinite one is beyond the largest finite value's half unit (00 R12). -/
theorem roundRat_spec (neg : Bool) {n d : Nat} (hd : 0 < d) :
    (isFinite (roundRat neg n d) = true → ∀ c, isFinite c = true →
      |toRat (roundRat neg n d) - (if neg then -1 else 1) * ((n : ℚ) / d)| ≤
        |toRat c - (if neg then -1 else 1) * ((n : ℚ) / d)|) := by
  intro h c hc
  have hle := roundMag_le n d
  unfold roundRat at h ⊢
  rw [isFinite_withSign neg hle, decide_eq_true_eq] at h
  rw [toRat_withSign neg h]
  have hc' := isFinite_iff.1 hc
  have hm := roundMag_nearest (n := n) hd hc'.le
  rw [eq_withSign c, toRat_withSign _ hc']
  have h0 := magValue_nonneg (c.toNat % 2 ^ 63)
  have hx : 0 ≤ (n : ℚ) / d := by positivity
  generalize magValue (c.toNat % 2 ^ 63) = y at *
  generalize magValue (roundMag n d) = z at *
  generalize (n : ℚ) / d = x at *
  cases neg <;> cases signBit c <;> simp only [if_true, if_false, one_mul, Bool.false_eq_true, neg_mul]
  · exact hm
  · refine hm.trans ?_
    rw [abs_of_nonpos (a := -y - x) (by linarith), abs_le]
    constructor <;> linarith
  · refine le_trans (le_of_eq ?_) (hm.trans ?_)
    · rw [← abs_neg]; congr 1; ring
    · rw [abs_of_nonneg (a := y - -x) (by linarith), abs_le]
      constructor <;> linarith
  · refine le_trans (le_of_eq ?_) (hm.trans (le_of_eq ?_))
    · rw [← abs_neg]; congr 1; ring
    · rw [← abs_neg]; congr 1; ring

theorem roundDyadic_frac (m : Nat) (e : ℤ) :
    ((m * 2 ^ e.toNat : Nat) : ℚ) / ((2 ^ (-e).toNat : Nat) : ℚ) = m * (2 : ℚ) ^ e := by
  have h := scale_frac m 1 one_pos (-e)
  simp only [neg_neg, one_mul, Nat.cast_one, div_one, zpow_neg, div_inv_eq_mul] at h
  exact h

theorem roundDyadic_spec (neg : Bool) (m : Nat) (e : ℤ) :
    isFinite (roundDyadic neg m e) = true → ∀ c, isFinite c = true →
      |toRat (roundDyadic neg m e) - (if neg then -1 else 1) * (m * (2 : ℚ) ^ e)| ≤
        |toRat c - (if neg then -1 else 1) * (m * (2 : ℚ) ^ e)| := by
  have h := roundRat_spec neg (n := m * 2 ^ e.toNat) (d := 2 ^ (-e).toNat) (by positivity)
  rw [roundDyadic_frac] at h
  exact h

theorem roundInt_spec (x e : ℤ) :
    isFinite (roundInt x e) = true → ∀ c, isFinite c = true →
      |toRat (roundInt x e) - x * (2 : ℚ) ^ e| ≤ |toRat c - x * (2 : ℚ) ^ e| := by
  have h := roundDyadic_spec (decide (x < 0)) x.natAbs e
  have e' : (if decide (x < 0) = true then (-1 : ℚ) else 1) * ((x.natAbs : ℚ) * (2 : ℚ) ^ e) = x * (2 : ℚ) ^ e := by
    rw [← mul_assoc]
    congr 1
    rcases lt_or_ge x 0 with hx | hx
    · rw [if_pos (by simpa using hx)]
      have : (x.natAbs : ℤ) = -x := by omega
      have : (x.natAbs : ℚ) = -(x : ℚ) := by rw [← Int.cast_natCast, this, Int.cast_neg]
      rw [this]; ring
    · rw [if_neg (by simpa using hx)]
      have : (x.natAbs : ℤ) = x := by omega
      have : (x.natAbs : ℚ) = (x : ℚ) := by rw [← Int.cast_natCast, this]
      rw [this]; ring
  rw [e'] at h
  exact h

end Sys2Proof.Machine.F64
end

