-- ==== Sys2Proof/Laws/Decode.lean ====
section
/-! SUPPORT. Laws of the decoder: which words decode, and to what. -/

namespace Sys2Proof

/-- A command word is its RSVD and OPC fields (30 R111). -/
theorem word_fields (c : Word) : c.toNat = (rsvd c).toNat * 2 ^ 8 + (opc c).toNat := by
  have := c.isLt
  simp only [rsvd, opc, BitVec.extractLsb'_toNat, Nat.shiftRight_eq_div_pow]
  omega

theorem word_ext {c d : Word} (h1 : rsvd c = rsvd d) (h2 : opc c = opc d) : c = d :=
  BitVec.eq_of_toNat_eq (by rw [word_fields c, word_fields d, h1, h2])

@[simp] theorem rsvd_encode (i : Instr) : rsvd (encode i) = 0 := by cases i <;> decide

@[simp] theorem opc_encode (i : Instr) : opc (encode i) = opcOf i := by cases i <;> decide

theorem opcOf_injective {i j : Instr} (h : opcOf i = opcOf j) : i = j := by
  cases i <;> cases j <;> first | rfl | simp [opcOf] at h

/-- What the decoder answers, case by case (30 R113-R115). -/
theorem decode_cases (c : Word) :
    (rsvd c ≠ 0 ∧ decode c = .error .cmdRsvd) ∨
    (rsvd c = 0 ∧ ∃ i, opc c = opcOf i ∧ decode c = .ok i) ∨
    (rsvd c = 0 ∧ (∀ i, opc c ≠ opcOf i) ∧ decode c = .error .badOpcode) := by
  by_cases h : rsvd c = 0
  · right
    by_cases h0 : opc c = 0x00
    · exact .inl ⟨h, .nop, h0, by simp [decode, h, h0]⟩
    by_cases h1 : opc c = 0x01
    · exact .inl ⟨h, .eval, h1, by simp [decode, h, h1]⟩
    by_cases h2 : opc c = 0x02
    · exact .inl ⟨h, .gen, h2, by simp [decode, h, h2]⟩
    by_cases h3 : opc c = 0x5A
    · exact .inl ⟨h, .srst, h3, by simp [decode, h, h3]⟩
    · refine .inr ⟨h, fun i => ?_, by
        unfold decode; rw [if_neg (not_not.2 h), if_neg h0, if_neg h1, if_neg h2, if_neg h3]⟩
      cases i <;> assumption
  · exact .inl ⟨h, by unfold decode; rw [if_pos h]⟩

end Sys2Proof
end

