-- ==== Sys2Proof/Laws/Memory.lean ====
section
/-! SUPPORT. Laws of the memory: canonical form kept, read after write, and what a store leaves alone. -/

namespace Sys2Proof.Machine

theorem bytesWord_wordBytes (v : Word) : bytesWord (wordBytes v) = some v := by
  simp only [bytesWord, wordBytes, Option.some.injEq]
  ext i hi
  simp only [BitVec.getElem_append, BitVec.getElem_extractLsb']
  rw [← BitVec.getLsbD_eq_getElem hi]
  repeat' split
  all_goals (congr 1; omega)

theorem wordBytes_length (v : Word) : (wordBytes v).length = 8 := rfl

theorem wordBytes_getElem (v : Word) (j : Nat) (h : j < 8) :
    (wordBytes v)[j]? = some (v.extractLsb' (8 * j) 8) := by
  rcases j with _ | _ | _ | _ | _ | _ | _ | _ | j <;> first | rfl | omega

theorem bytesWord_eq_some {b0 b1 b2 b3 b4 b5 b6 b7 : Byte} {v : Word}
    (h : bytesWord [b0, b1, b2, b3, b4, b5, b6, b7] = some v) :
    wordBytes v = [b0, b1, b2, b3, b4, b5, b6, b7] := by
  simp only [bytesWord, Option.some.injEq] at h
  subst h
  simp only [wordBytes, List.cons.injEq, and_true]
  refine ⟨?_, ?_, ?_, ?_, ?_, ?_, ?_, ?_⟩ <;>
  · ext i hi
    simp only [BitVec.getElem_extractLsb', BitVec.getLsbD_append]
    repeat' split
    all_goals first | omega | (rw [← BitVec.getLsbD_eq_getElem]; congr 1; omega)

namespace Memory

theorem readByte_eq (m : Memory) (a : Nat) :
    m.readByte a = (m.find? (fun c => c.1 == a)).map (·.2) := by
  unfold readByte unlisted
  cases m.find? (fun c => c.1 == a) <;> rfl

end Memory

theorem find_cellsFrom (bs : List Byte) (lo a : Nat) :
    (cellsFrom lo bs).find? (fun c => c.1 == a) =
      if lo ≤ a then (bs[a - lo]?).map (fun b => (a, b)) else none := by
  induction bs generalizing lo with
  | nil => simp [cellsFrom]
  | cons b bs ih =>
    simp only [cellsFrom, List.find?_cons]
    by_cases h : lo = a
    · subst h; simp
    · have h' : (lo == a) = false := by simpa using h
      simp only [h']
      rw [ih]
      by_cases h1 : lo ≤ a
      · have e : a - lo = a - (lo + 1) + 1 := by omega
        have h2 : lo + 1 ≤ a := by omega
        simp [h1, h2, e]
      · have h2 : ¬ lo + 1 ≤ a := by omega
        simp [h1, h2]

theorem mem_cellsFrom {bs : List Byte} {lo : Nat} {c : Host.Cell} (h : c ∈ cellsFrom lo bs) :
    lo ≤ c.1 ∧ c.1 < lo + bs.length := by
  induction bs generalizing lo with
  | nil => simp [cellsFrom] at h
  | cons b bs ih =>
    simp only [cellsFrom, List.mem_cons] at h
    rcases h with rfl | h
    · simp
    · have := ih h
      simp only [List.length_cons]
      omega

theorem cellsFrom_sorted (bs : List Byte) (lo : Nat) :
    (cellsFrom lo bs).Pairwise (fun c d => c.1 < d.1) := by
  induction bs generalizing lo with
  | nil => simp [cellsFrom]
  | cons b bs ih =>
    refine List.pairwise_cons.2 ⟨fun c hc => ?_, ih _⟩
    have := mem_cellsFrom hc
    simp only
    omega

theorem find_filter_of_imp {p : Host.Cell → Bool} (m : Memory) (a : Nat)
    (h : ∀ c ∈ m, c.1 = a → p c = true) :
    (m.filter p).find? (fun c => c.1 == a) = m.find? (fun c => c.1 == a) := by
  induction m with
  | nil => rfl
  | cons c m ih =>
    have ih := ih (fun d hd => h d (List.mem_cons_of_mem _ hd))
    by_cases hc : c.1 = a
    · simp [h c List.mem_cons_self hc, hc]
    · have hc' : (c.1 == a) = false := by simpa using hc
      by_cases hp : p c = true
      · simp [hp, hc', ih]
      · simp [hp, hc', ih]

theorem find_filter_none {p : Host.Cell → Bool} (m : Memory) (a : Nat)
    (h : ∀ c ∈ m, c.1 = a → p c = false) :
    (m.filter p).find? (fun c => c.1 == a) = none := by
  simp only [List.find?_eq_none, List.mem_filter, beq_iff_eq, and_imp]
  intro c hc hp e
  simp [h c hc e] at hp

namespace Memory

/-- A byte read after a store: the stored byte inside, the old byte outside. -/
theorem readByte_store (lo : Nat) (bs : List Byte) (m : Memory) (a : Nat) :
    (m.store lo bs).readByte a =
      if lo ≤ a ∧ a < lo + bs.length then bs[a - lo]? else m.readByte a := by
  simp only [readByte_eq, store, List.find?_append, find_cellsFrom]
  by_cases h1 : a < lo
  · rw [find_filter_of_imp m a (by intro c _ e; simpa [e] using h1),
      find_filter_none m a (p := fun c => decide (lo + bs.length ≤ c.1)) (by intro c _ e; simp [e]; omega)]
    have : ¬ lo ≤ a := by omega
    simp [this]
  · rw [find_filter_none m a (p := fun c => decide (c.1 < lo)) (by intro c _ e; simp [e]; omega)]
    have h2 : lo ≤ a := by omega
    by_cases h3 : a < lo + bs.length
    · have h4 : a - lo < bs.length := by omega
      simp [h2, h3, h4]
    · rw [find_filter_of_imp m a (by intro c _ e; simp [e]; omega)]
      have h4 : bs.length ≤ a - lo := by omega
      simp [h2, h3, h4]

/-- A store keeps the canonical form. -/
theorem wf_store {m : Memory} (h : m.wf) (lo : Nat) (bs : List Byte) : (m.store lo bs).wf := by
  refine ⟨?_, fun c _ => by simp [unlisted]⟩
  simp only [store, List.pairwise_append, List.mem_append, List.mem_filter, decide_eq_true_eq]
  refine ⟨⟨h.1.filter _, cellsFrom_sorted _ _, fun c hc d hd => ?_⟩, h.1.filter _, fun c hc d hd => ?_⟩
  · have := mem_cellsFrom hd
    omega
  · rcases hc with hc | hc
    · omega
    · have := mem_cellsFrom hc
      omega

theorem mem_store {m : Memory} {lo : Nat} {bs : List Byte} {c : Host.Cell} (h : c ∈ m.store lo bs) :
    c ∈ m ∨ (lo ≤ c.1 ∧ c.1 < lo + bs.length) := by
  simp only [store, List.mem_append, List.mem_filter] at h
  rcases h with (h | h) | h
  · exact .inl h.1
  · exact .inr (mem_cellsFrom h)
  · exact .inl h.1

/-- An entry is its eight bytes. -/
theorem readWord_eq_some {m : Memory} {a : Nat} {v : Word} :
    m.readWord a = some v ↔ ∀ j < 8, m.readByte (a + j) = some (v.extractLsb' (8 * j) 8) := by
  have e : List.range 8 = [0, 1, 2, 3, 4, 5, 6, 7] := rfl
  constructor
  · intro h j hj
    unfold readWord at h
    rw [e] at h
    simp only [List.mapM_cons, List.mapM_nil, Nat.add_zero] at h
    cases h0 : m.readByte a <;> simp [h0] at h
    cases h1 : m.readByte (a + 1) <;> simp [h1] at h
    cases h2 : m.readByte (a + 2) <;> simp [h2] at h
    cases h3 : m.readByte (a + 3) <;> simp [h3] at h
    cases h4 : m.readByte (a + 4) <;> simp [h4] at h
    cases h5 : m.readByte (a + 5) <;> simp [h5] at h
    cases h6 : m.readByte (a + 6) <;> simp [h6] at h
    cases h7 : m.readByte (a + 7) <;> simp [h7] at h
    have hw := bytesWord_eq_some h
    have hg := wordBytes_getElem v j hj
    rw [hw] at hg
    rw [← hg]
    rcases j with _ | _ | _ | _ | _ | _ | _ | _ | j <;> first | assumption | omega
  · intro h
    unfold readWord
    rw [e]
    simp only [List.mapM_cons, List.mapM_nil, h 0 (by omega), h 1 (by omega), h 2 (by omega), h 3 (by omega),
      h 4 (by omega), h 5 (by omega), h 6 (by omega), h 7 (by omega)]
    exact bytesWord_wordBytes v

/-- An entry reads as before where all its bytes do. -/
theorem readWord_congr {m m' : Memory} {a : Nat}
    (h : ∀ j < 8, m.readByte (a + j) = m'.readByte (a + j)) : m.readWord a = m'.readWord a := by
  have e : List.range 8 = [0, 1, 2, 3, 4, 5, 6, 7] := rfl
  unfold readWord
  rw [e]
  simp only [List.mapM_cons, List.mapM_nil, h 0 (by omega), h 1 (by omega), h 2 (by omega), h 3 (by omega),
      h 4 (by omega), h 5 (by omega), h 6 (by omega), h 7 (by omega)]

theorem isSome_readWord {m : Memory} {a : Nat} :
    (m.readWord a).isSome = true ↔ ∀ j < 8, (m.readByte (a + j)).isSome = true := by
  constructor
  · intro h j hj
    obtain ⟨v, hv⟩ := Option.isSome_iff_exists.1 h
    simp [readWord_eq_some.1 hv j hj]
  · intro h
    have e : List.range 8 = [0, 1, 2, 3, 4, 5, 6, 7] := rfl
    unfold readWord
    rw [e]
    obtain ⟨b0, h0⟩ := Option.isSome_iff_exists.1 (h 0 (by omega))
    rw [Nat.add_zero] at h0
    obtain ⟨b1, h1⟩ := Option.isSome_iff_exists.1 (h 1 (by omega))
    obtain ⟨b2, h2⟩ := Option.isSome_iff_exists.1 (h 2 (by omega))
    obtain ⟨b3, h3⟩ := Option.isSome_iff_exists.1 (h 3 (by omega))
    obtain ⟨b4, h4⟩ := Option.isSome_iff_exists.1 (h 4 (by omega))
    obtain ⟨b5, h5⟩ := Option.isSome_iff_exists.1 (h 5 (by omega))
    obtain ⟨b6, h6⟩ := Option.isSome_iff_exists.1 (h 6 (by omega))
    obtain ⟨b7, h7⟩ := Option.isSome_iff_exists.1 (h 7 (by omega))
    simp [List.mapM_cons, h0, h1, h2, h3, h4, h5, h6, h7, bytesWord]

/-- Read after write of the same entry. -/
theorem readWord_writeWord (m : Memory) (a : Nat) (v : Word) : (m.writeWord a v).readWord a = some v := by
  rw [readWord_eq_some]
  intro j hj
  rw [writeWord, readByte_store, wordBytes_length, if_pos (by omega), Nat.add_sub_cancel_left, wordBytes_getElem v j hj]

/-- A write leaves every entry that shares no byte with it. -/
theorem readWord_writeWord_other {m : Memory} {a b : Nat} (v : Word) (h : b + 8 ≤ a ∨ a + 8 ≤ b) :
    (m.writeWord a v).readWord b = m.readWord b := by
  refine readWord_congr fun j hj => ?_
  rw [writeWord, readByte_store, wordBytes_length, if_neg (by omega)]

theorem readByte_writeWord_other {m : Memory} {a b : Nat} (v : Word) (h : b < a ∨ a + 8 ≤ b) :
    (m.writeWord a v).readByte b = m.readByte b := by
  rw [writeWord, readByte_store, wordBytes_length, if_neg (by omega)]

/-- Zeroed entries read +0.0. -/
theorem readWord_zeroWords (m : Memory) (a n i : Nat) (h : i < n) :
    (m.zeroWords a n).readWord (a + 8 * i) = some Config.zero := by
  rw [readWord_eq_some]
  intro j hj
  rw [zeroWords, readByte_store, List.length_replicate, if_pos (by omega), List.getElem?_replicate,
    if_pos (by omega)]
  congr 1
  ext k hk
  simp [Config.zero]

theorem readByte_zeroWords_other {m : Memory} {a n b : Nat} (h : b < a ∨ a + 8 * n ≤ b) :
    (m.zeroWords a n).readByte b = m.readByte b := by
  rw [zeroWords, readByte_store, List.length_replicate, if_neg (by omega)]

theorem readWord_zeroWords_other {m : Memory} {a n b : Nat} (h : b + 8 ≤ a ∨ a + 8 * n ≤ b) :
    (m.zeroWords a n).readWord b = m.readWord b :=
  readWord_congr fun j hj => readByte_zeroWords_other (by omega)

theorem wf_writeWord {m : Memory} (h : m.wf) (a : Nat) (v : Word) : (m.writeWord a v).wf := wf_store h _ _

theorem wf_zeroWords {m : Memory} (h : m.wf) (a n : Nat) : (m.zeroWords a n).wf := wf_store h _ _

theorem wf_nil : Memory.wf [] := by decide

/-- The entry of a written word is listed byte by byte. -/
theorem readByte_isSome_of_mem {m : Memory} {c : Host.Cell} (h : c ∈ m) : (m.readByte c.1).isSome = true := by
  rw [readByte_eq, Option.isSome_map, List.find?_isSome]
  exact ⟨c, h, by simp⟩

theorem mem_of_readByte_isSome {m : Memory} {a : Nat} (h : (m.readByte a).isSome = true) : ∃ c ∈ m, c.1 = a := by
  rw [readByte_eq, Option.isSome_map, List.find?_isSome] at h
  simpa using h

end Memory

end Sys2Proof.Machine
end

