-- ==== Sys2Proof/Laws/State.lean ====
section
/-! SUPPORT. One lemma per field of State per shared update, and the fields of STATUS after each flag update. -/

namespace Sys2Proof.Machine

@[simp] theorem anyValue_status (s : State) : (anyValue s).2.status = s.status := rfl
@[simp] theorem anyValue_ie (s : State) : (anyValue s).2.ie = s.ie := rfl
@[simp] theorem anyValue_omega (s : State) : (anyValue s).2.omega = s.omega := rfl
@[simp] theorem anyValue_len (s : State) : (anyValue s).2.len = s.len := rfl
@[simp] theorem anyValue_kind (s : State) : (anyValue s).2.kind = s.kind := rfl
@[simp] theorem anyValue_cosOut (s : State) : (anyValue s).2.cosOut = s.cosOut := rfl
@[simp] theorem anyValue_sinOut (s : State) : (anyValue s).2.sinOut = s.sinOut := rfl
@[simp] theorem anyValue_dbgAcc (s : State) : (anyValue s).2.dbgAcc = s.dbgAcc := rfl
@[simp] theorem anyValue_dbgP1 (s : State) : (anyValue s).2.dbgP1 = s.dbgP1 := rfl
@[simp] theorem anyValue_dbgP2 (s : State) : (anyValue s).2.dbgP2 = s.dbgP2 := rfl
@[simp] theorem anyValue_dbgB (s : State) : (anyValue s).2.dbgB = s.dbgB := rfl
@[simp] theorem anyValue_mem (s : State) : (anyValue s).2.mem = s.mem := rfl
@[simp] theorem anyValue_seq (s : State) : (anyValue s).2.seq = s.seq := rfl
@[simp] theorem anyValue_eN (s : State) : (anyValue s).2.eN = s.eN := rfl
@[simp] theorem anyValue_eW (s : State) : (anyValue s).2.eW = s.eW := rfl
@[simp] theorem anyValue_eReg (s : State) : (anyValue s).2.eReg = s.eReg := rfl
@[simp] theorem anyValue_gKind (s : State) : (anyValue s).2.gKind = s.gKind := rfl
@[simp] theorem anyValue_rstN (s : State) : (anyValue s).2.rstN = s.rstN := rfl
@[simp] theorem anyValue_host (s : State) : (anyValue s).2.host = s.host := rfl
@[simp] theorem anyValue_turns (s : State) : (anyValue s).2.turns = s.turns := rfl
@[simp] theorem anyValue_lastRsp (s : State) : (anyValue s).2.lastRsp = s.lastRsp := rfl
@[simp] theorem anyValue_names (s : State) : (anyValue s).2.names = s.names := rfl
@[simp] theorem anyValue_draws (s : State) : (anyValue s).2.draws = s.draws + 1 := rfl

@[simp] theorem writeEntry_status (a : Nat) (v : Word) (s : State) : (writeEntry a v s).status = s.status := rfl
@[simp] theorem writeEntry_ie (a : Nat) (v : Word) (s : State) : (writeEntry a v s).ie = s.ie := rfl
@[simp] theorem writeEntry_omega (a : Nat) (v : Word) (s : State) : (writeEntry a v s).omega = s.omega := rfl
@[simp] theorem writeEntry_len (a : Nat) (v : Word) (s : State) : (writeEntry a v s).len = s.len := rfl
@[simp] theorem writeEntry_kind (a : Nat) (v : Word) (s : State) : (writeEntry a v s).kind = s.kind := rfl
@[simp] theorem writeEntry_cosOut (a : Nat) (v : Word) (s : State) : (writeEntry a v s).cosOut = s.cosOut := rfl
@[simp] theorem writeEntry_sinOut (a : Nat) (v : Word) (s : State) : (writeEntry a v s).sinOut = s.sinOut := rfl
@[simp] theorem writeEntry_dbgAcc (a : Nat) (v : Word) (s : State) : (writeEntry a v s).dbgAcc = s.dbgAcc := rfl
@[simp] theorem writeEntry_dbgP1 (a : Nat) (v : Word) (s : State) : (writeEntry a v s).dbgP1 = s.dbgP1 := rfl
@[simp] theorem writeEntry_dbgP2 (a : Nat) (v : Word) (s : State) : (writeEntry a v s).dbgP2 = s.dbgP2 := rfl
@[simp] theorem writeEntry_dbgB (a : Nat) (v : Word) (s : State) : (writeEntry a v s).dbgB = s.dbgB := rfl
@[simp] theorem writeEntry_mem (a : Nat) (v : Word) (s : State) : (writeEntry a v s).mem = s.mem.writeWord a v := rfl
@[simp] theorem writeEntry_seq (a : Nat) (v : Word) (s : State) : (writeEntry a v s).seq = s.seq := rfl
@[simp] theorem writeEntry_eN (a : Nat) (v : Word) (s : State) : (writeEntry a v s).eN = s.eN := rfl
@[simp] theorem writeEntry_eW (a : Nat) (v : Word) (s : State) : (writeEntry a v s).eW = s.eW := rfl
@[simp] theorem writeEntry_eReg (a : Nat) (v : Word) (s : State) : (writeEntry a v s).eReg = s.eReg := rfl
@[simp] theorem writeEntry_gKind (a : Nat) (v : Word) (s : State) : (writeEntry a v s).gKind = s.gKind := rfl
@[simp] theorem writeEntry_rstN (a : Nat) (v : Word) (s : State) : (writeEntry a v s).rstN = s.rstN := rfl
@[simp] theorem writeEntry_host (a : Nat) (v : Word) (s : State) : (writeEntry a v s).host = s.host := rfl
@[simp] theorem writeEntry_turns (a : Nat) (v : Word) (s : State) : (writeEntry a v s).turns = s.turns := rfl
@[simp] theorem writeEntry_lastRsp (a : Nat) (v : Word) (s : State) : (writeEntry a v s).lastRsp = s.lastRsp := rfl
@[simp] theorem writeEntry_names (a : Nat) (v : Word) (s : State) : (writeEntry a v s).names = s.names := rfl
@[simp] theorem writeEntry_draws (a : Nat) (v : Word) (s : State) : (writeEntry a v s).draws = s.draws := rfl

@[simp] theorem respond_status (v : Word) (s : State) : (respond v s).status = s.status := rfl
@[simp] theorem respond_ie (v : Word) (s : State) : (respond v s).ie = s.ie := rfl
@[simp] theorem respond_omega (v : Word) (s : State) : (respond v s).omega = s.omega := rfl
@[simp] theorem respond_len (v : Word) (s : State) : (respond v s).len = s.len := rfl
@[simp] theorem respond_kind (v : Word) (s : State) : (respond v s).kind = s.kind := rfl
@[simp] theorem respond_cosOut (v : Word) (s : State) : (respond v s).cosOut = s.cosOut := rfl
@[simp] theorem respond_sinOut (v : Word) (s : State) : (respond v s).sinOut = s.sinOut := rfl
@[simp] theorem respond_dbgAcc (v : Word) (s : State) : (respond v s).dbgAcc = s.dbgAcc := rfl
@[simp] theorem respond_dbgP1 (v : Word) (s : State) : (respond v s).dbgP1 = s.dbgP1 := rfl
@[simp] theorem respond_dbgP2 (v : Word) (s : State) : (respond v s).dbgP2 = s.dbgP2 := rfl
@[simp] theorem respond_dbgB (v : Word) (s : State) : (respond v s).dbgB = s.dbgB := rfl
@[simp] theorem respond_mem (v : Word) (s : State) : (respond v s).mem = s.mem := rfl
@[simp] theorem respond_seq (v : Word) (s : State) : (respond v s).seq = s.seq := rfl
@[simp] theorem respond_eN (v : Word) (s : State) : (respond v s).eN = s.eN := rfl
@[simp] theorem respond_eW (v : Word) (s : State) : (respond v s).eW = s.eW := rfl
@[simp] theorem respond_eReg (v : Word) (s : State) : (respond v s).eReg = s.eReg := rfl
@[simp] theorem respond_gKind (v : Word) (s : State) : (respond v s).gKind = s.gKind := rfl
@[simp] theorem respond_rstN (v : Word) (s : State) : (respond v s).rstN = s.rstN := rfl
@[simp] theorem respond_host (v : Word) (s : State) : (respond v s).host = s.host := rfl
@[simp] theorem respond_turns (v : Word) (s : State) : (respond v s).turns = s.turns := rfl
@[simp] theorem respond_lastRsp (v : Word) (s : State) : (respond v s).lastRsp = some { err := false, rdata := v } := rfl
@[simp] theorem respond_names (v : Word) (s : State) : (respond v s).names = s.names := rfl
@[simp] theorem respond_draws (v : Word) (s : State) : (respond v s).draws = s.draws := rfl

@[simp] theorem busError_status (s : State) : (busError s).status = s.status.busError := rfl
@[simp] theorem busError_ie (s : State) : (busError s).ie = s.ie := rfl
@[simp] theorem busError_omega (s : State) : (busError s).omega = s.omega := rfl
@[simp] theorem busError_len (s : State) : (busError s).len = s.len := rfl
@[simp] theorem busError_kind (s : State) : (busError s).kind = s.kind := rfl
@[simp] theorem busError_cosOut (s : State) : (busError s).cosOut = s.cosOut := rfl
@[simp] theorem busError_sinOut (s : State) : (busError s).sinOut = s.sinOut := rfl
@[simp] theorem busError_dbgAcc (s : State) : (busError s).dbgAcc = s.dbgAcc := rfl
@[simp] theorem busError_dbgP1 (s : State) : (busError s).dbgP1 = s.dbgP1 := rfl
@[simp] theorem busError_dbgP2 (s : State) : (busError s).dbgP2 = s.dbgP2 := rfl
@[simp] theorem busError_dbgB (s : State) : (busError s).dbgB = s.dbgB := rfl
@[simp] theorem busError_mem (s : State) : (busError s).mem = s.mem := rfl
@[simp] theorem busError_seq (s : State) : (busError s).seq = s.seq := rfl
@[simp] theorem busError_eN (s : State) : (busError s).eN = s.eN := rfl
@[simp] theorem busError_eW (s : State) : (busError s).eW = s.eW := rfl
@[simp] theorem busError_eReg (s : State) : (busError s).eReg = s.eReg := rfl
@[simp] theorem busError_gKind (s : State) : (busError s).gKind = s.gKind := rfl
@[simp] theorem busError_rstN (s : State) : (busError s).rstN = s.rstN := rfl
@[simp] theorem busError_host (s : State) : (busError s).host = s.host := rfl
@[simp] theorem busError_turns (s : State) : (busError s).turns = s.turns := rfl
@[simp] theorem busError_lastRsp (s : State) : (busError s).lastRsp = some { err := true, rdata := 0 } := rfl
@[simp] theorem busError_names (s : State) : (busError s).names = s.names := rfl
@[simp] theorem busError_draws (s : State) : (busError s).draws = s.draws := rfl

@[simp] theorem bindName_status (name : String) (s : State) : (bindName name s).status = s.status := rfl
@[simp] theorem bindName_ie (name : String) (s : State) : (bindName name s).ie = s.ie := rfl
@[simp] theorem bindName_omega (name : String) (s : State) : (bindName name s).omega = s.omega := rfl
@[simp] theorem bindName_len (name : String) (s : State) : (bindName name s).len = s.len := rfl
@[simp] theorem bindName_kind (name : String) (s : State) : (bindName name s).kind = s.kind := rfl
@[simp] theorem bindName_cosOut (name : String) (s : State) : (bindName name s).cosOut = s.cosOut := rfl
@[simp] theorem bindName_sinOut (name : String) (s : State) : (bindName name s).sinOut = s.sinOut := rfl
@[simp] theorem bindName_dbgAcc (name : String) (s : State) : (bindName name s).dbgAcc = s.dbgAcc := rfl
@[simp] theorem bindName_dbgP1 (name : String) (s : State) : (bindName name s).dbgP1 = s.dbgP1 := rfl
@[simp] theorem bindName_dbgP2 (name : String) (s : State) : (bindName name s).dbgP2 = s.dbgP2 := rfl
@[simp] theorem bindName_dbgB (name : String) (s : State) : (bindName name s).dbgB = s.dbgB := rfl
@[simp] theorem bindName_mem (name : String) (s : State) : (bindName name s).mem = s.mem := rfl
@[simp] theorem bindName_seq (name : String) (s : State) : (bindName name s).seq = s.seq := rfl
@[simp] theorem bindName_eN (name : String) (s : State) : (bindName name s).eN = s.eN := rfl
@[simp] theorem bindName_eW (name : String) (s : State) : (bindName name s).eW = s.eW := rfl
@[simp] theorem bindName_eReg (name : String) (s : State) : (bindName name s).eReg = s.eReg := rfl
@[simp] theorem bindName_gKind (name : String) (s : State) : (bindName name s).gKind = s.gKind := rfl
@[simp] theorem bindName_rstN (name : String) (s : State) : (bindName name s).rstN = s.rstN := rfl
@[simp] theorem bindName_host (name : String) (s : State) : (bindName name s).host = s.host := rfl
@[simp] theorem bindName_turns (name : String) (s : State) : (bindName name s).turns = s.turns := rfl
@[simp] theorem bindName_lastRsp (name : String) (s : State) : (bindName name s).lastRsp = s.lastRsp := rfl
@[simp] theorem bindName_names (name : String) (s : State) : (bindName name s).names =
    (name, lastData s) :: s.names.filter (fun b => b.1 != name) := rfl
@[simp] theorem bindName_draws (name : String) (s : State) : (bindName name s).draws = s.draws := rfl

@[simp] theorem dropCommand_status (s : State) : (dropCommand s).status = s.status.dropCommand := rfl
@[simp] theorem dropCommand_ie (s : State) : (dropCommand s).ie = s.ie := rfl
@[simp] theorem dropCommand_omega (s : State) : (dropCommand s).omega = s.omega := rfl
@[simp] theorem dropCommand_len (s : State) : (dropCommand s).len = s.len := rfl
@[simp] theorem dropCommand_kind (s : State) : (dropCommand s).kind = s.kind := rfl
@[simp] theorem dropCommand_cosOut (s : State) : (dropCommand s).cosOut = s.cosOut := rfl
@[simp] theorem dropCommand_sinOut (s : State) : (dropCommand s).sinOut = s.sinOut := rfl
@[simp] theorem dropCommand_dbgAcc (s : State) : (dropCommand s).dbgAcc = s.dbgAcc := rfl
@[simp] theorem dropCommand_dbgP1 (s : State) : (dropCommand s).dbgP1 = s.dbgP1 := rfl
@[simp] theorem dropCommand_dbgP2 (s : State) : (dropCommand s).dbgP2 = s.dbgP2 := rfl
@[simp] theorem dropCommand_dbgB (s : State) : (dropCommand s).dbgB = s.dbgB := rfl
@[simp] theorem dropCommand_mem (s : State) : (dropCommand s).mem = s.mem := rfl
@[simp] theorem dropCommand_seq (s : State) : (dropCommand s).seq = s.seq := rfl
@[simp] theorem dropCommand_eN (s : State) : (dropCommand s).eN = s.eN := rfl
@[simp] theorem dropCommand_eW (s : State) : (dropCommand s).eW = s.eW := rfl
@[simp] theorem dropCommand_eReg (s : State) : (dropCommand s).eReg = s.eReg := rfl
@[simp] theorem dropCommand_gKind (s : State) : (dropCommand s).gKind = s.gKind := rfl
@[simp] theorem dropCommand_rstN (s : State) : (dropCommand s).rstN = s.rstN := rfl
@[simp] theorem dropCommand_host (s : State) : (dropCommand s).host = s.host := rfl
@[simp] theorem dropCommand_turns (s : State) : (dropCommand s).turns = s.turns := rfl
@[simp] theorem dropCommand_lastRsp (s : State) : (dropCommand s).lastRsp = s.lastRsp := rfl
@[simp] theorem dropCommand_names (s : State) : (dropCommand s).names = s.names := rfl
@[simp] theorem dropCommand_draws (s : State) : (dropCommand s).draws = s.draws := rfl

@[simp] theorem reject_status (c : BitVec 4) (s : State) : (reject c s).status = s.status.reject c := rfl
@[simp] theorem reject_ie (c : BitVec 4) (s : State) : (reject c s).ie = s.ie := rfl
@[simp] theorem reject_omega (c : BitVec 4) (s : State) : (reject c s).omega = s.omega := rfl
@[simp] theorem reject_len (c : BitVec 4) (s : State) : (reject c s).len = s.len := rfl
@[simp] theorem reject_kind (c : BitVec 4) (s : State) : (reject c s).kind = s.kind := rfl
@[simp] theorem reject_cosOut (c : BitVec 4) (s : State) : (reject c s).cosOut = s.cosOut := rfl
@[simp] theorem reject_sinOut (c : BitVec 4) (s : State) : (reject c s).sinOut = s.sinOut := rfl
@[simp] theorem reject_dbgAcc (c : BitVec 4) (s : State) : (reject c s).dbgAcc = s.dbgAcc := rfl
@[simp] theorem reject_dbgP1 (c : BitVec 4) (s : State) : (reject c s).dbgP1 = s.dbgP1 := rfl
@[simp] theorem reject_dbgP2 (c : BitVec 4) (s : State) : (reject c s).dbgP2 = s.dbgP2 := rfl
@[simp] theorem reject_dbgB (c : BitVec 4) (s : State) : (reject c s).dbgB = s.dbgB := rfl
@[simp] theorem reject_mem (c : BitVec 4) (s : State) : (reject c s).mem = s.mem := rfl
@[simp] theorem reject_seq (c : BitVec 4) (s : State) : (reject c s).seq = s.seq := rfl
@[simp] theorem reject_eN (c : BitVec 4) (s : State) : (reject c s).eN = s.eN := rfl
@[simp] theorem reject_eW (c : BitVec 4) (s : State) : (reject c s).eW = s.eW := rfl
@[simp] theorem reject_eReg (c : BitVec 4) (s : State) : (reject c s).eReg = s.eReg := rfl
@[simp] theorem reject_gKind (c : BitVec 4) (s : State) : (reject c s).gKind = s.gKind := rfl
@[simp] theorem reject_rstN (c : BitVec 4) (s : State) : (reject c s).rstN = s.rstN := rfl
@[simp] theorem reject_host (c : BitVec 4) (s : State) : (reject c s).host = s.host := rfl
@[simp] theorem reject_turns (c : BitVec 4) (s : State) : (reject c s).turns = s.turns := rfl
@[simp] theorem reject_lastRsp (c : BitVec 4) (s : State) : (reject c s).lastRsp = s.lastRsp := rfl
@[simp] theorem reject_names (c : BitVec 4) (s : State) : (reject c s).names = s.names := rfl
@[simp] theorem reject_draws (c : BitVec 4) (s : State) : (reject c s).draws = s.draws := rfl

@[simp] theorem rejectEval_status (c : BitVec 4) (s : State) : (rejectEval c s).status = s.status.rejectEval c := rfl
@[simp] theorem rejectEval_ie (c : BitVec 4) (s : State) : (rejectEval c s).ie = s.ie := rfl
@[simp] theorem rejectEval_omega (c : BitVec 4) (s : State) : (rejectEval c s).omega = s.omega := rfl
@[simp] theorem rejectEval_len (c : BitVec 4) (s : State) : (rejectEval c s).len = s.len := rfl
@[simp] theorem rejectEval_kind (c : BitVec 4) (s : State) : (rejectEval c s).kind = s.kind := rfl
@[simp] theorem rejectEval_cosOut (c : BitVec 4) (s : State) : (rejectEval c s).cosOut = s.cosOut := rfl
@[simp] theorem rejectEval_sinOut (c : BitVec 4) (s : State) : (rejectEval c s).sinOut = s.sinOut := rfl
@[simp] theorem rejectEval_dbgAcc (c : BitVec 4) (s : State) : (rejectEval c s).dbgAcc = s.dbgAcc := rfl
@[simp] theorem rejectEval_dbgP1 (c : BitVec 4) (s : State) : (rejectEval c s).dbgP1 = s.dbgP1 := rfl
@[simp] theorem rejectEval_dbgP2 (c : BitVec 4) (s : State) : (rejectEval c s).dbgP2 = s.dbgP2 := rfl
@[simp] theorem rejectEval_dbgB (c : BitVec 4) (s : State) : (rejectEval c s).dbgB = s.dbgB := rfl
@[simp] theorem rejectEval_mem (c : BitVec 4) (s : State) : (rejectEval c s).mem = s.mem := rfl
@[simp] theorem rejectEval_seq (c : BitVec 4) (s : State) : (rejectEval c s).seq = s.seq := rfl
@[simp] theorem rejectEval_eN (c : BitVec 4) (s : State) : (rejectEval c s).eN = s.eN := rfl
@[simp] theorem rejectEval_eW (c : BitVec 4) (s : State) : (rejectEval c s).eW = s.eW := rfl
@[simp] theorem rejectEval_eReg (c : BitVec 4) (s : State) : (rejectEval c s).eReg = s.eReg := rfl
@[simp] theorem rejectEval_gKind (c : BitVec 4) (s : State) : (rejectEval c s).gKind = s.gKind := rfl
@[simp] theorem rejectEval_rstN (c : BitVec 4) (s : State) : (rejectEval c s).rstN = s.rstN := rfl
@[simp] theorem rejectEval_host (c : BitVec 4) (s : State) : (rejectEval c s).host = s.host := rfl
@[simp] theorem rejectEval_turns (c : BitVec 4) (s : State) : (rejectEval c s).turns = s.turns := rfl
@[simp] theorem rejectEval_lastRsp (c : BitVec 4) (s : State) : (rejectEval c s).lastRsp = s.lastRsp := rfl
@[simp] theorem rejectEval_names (c : BitVec 4) (s : State) : (rejectEval c s).names = s.names := rfl
@[simp] theorem rejectEval_draws (c : BitVec 4) (s : State) : (rejectEval c s).draws = s.draws := rfl

@[simp] theorem resetCore_status (s : State) : (resetCore s).status = State.reset.status := rfl
@[simp] theorem resetCore_ie (s : State) : (resetCore s).ie = State.reset.ie := rfl
@[simp] theorem resetCore_omega (s : State) : (resetCore s).omega = State.reset.omega := rfl
@[simp] theorem resetCore_len (s : State) : (resetCore s).len = State.reset.len := rfl
@[simp] theorem resetCore_kind (s : State) : (resetCore s).kind = State.reset.kind := rfl
@[simp] theorem resetCore_cosOut (s : State) : (resetCore s).cosOut = State.reset.cosOut := rfl
@[simp] theorem resetCore_sinOut (s : State) : (resetCore s).sinOut = State.reset.sinOut := rfl
@[simp] theorem resetCore_dbgAcc (s : State) : (resetCore s).dbgAcc = State.reset.dbgAcc := rfl
@[simp] theorem resetCore_dbgP1 (s : State) : (resetCore s).dbgP1 = State.reset.dbgP1 := rfl
@[simp] theorem resetCore_dbgP2 (s : State) : (resetCore s).dbgP2 = State.reset.dbgP2 := rfl
@[simp] theorem resetCore_dbgB (s : State) : (resetCore s).dbgB = State.reset.dbgB := rfl
@[simp] theorem resetCore_mem (s : State) : (resetCore s).mem = State.reset.mem := rfl
@[simp] theorem resetCore_seq (s : State) : (resetCore s).seq = State.reset.seq := rfl
@[simp] theorem resetCore_eN (s : State) : (resetCore s).eN = State.reset.eN := rfl
@[simp] theorem resetCore_eW (s : State) : (resetCore s).eW = State.reset.eW := rfl
@[simp] theorem resetCore_eReg (s : State) : (resetCore s).eReg = State.reset.eReg := rfl
@[simp] theorem resetCore_gKind (s : State) : (resetCore s).gKind = State.reset.gKind := rfl
@[simp] theorem resetCore_rstN (s : State) : (resetCore s).rstN = s.rstN := rfl
@[simp] theorem resetCore_host (s : State) : (resetCore s).host = s.host := rfl
@[simp] theorem resetCore_turns (s : State) : (resetCore s).turns = s.turns := rfl
@[simp] theorem resetCore_lastRsp (s : State) : (resetCore s).lastRsp = s.lastRsp := rfl
@[simp] theorem resetCore_names (s : State) : (resetCore s).names = s.names := rfl
@[simp] theorem resetCore_draws (s : State) : (resetCore s).draws = s.draws := rfl

theorem anyValue_fst (s : State) : (anyValue s).1 = Config.anyWord s.draws := rfl

@[simp] theorem Status.dropCommand_busy (f : Status) : f.dropCommand.busy = f.busy := rfl
@[simp] theorem Status.dropCommand_done (f : Status) : f.dropCommand.done = f.done := rfl
@[simp] theorem Status.dropCommand_err (f : Status) : f.dropCommand.err = f.err := rfl
@[simp] theorem Status.dropCommand_errcode (f : Status) : f.dropCommand.errcode = f.errcode := rfl
@[simp] theorem Status.dropCommand_rv (f : Status) : f.dropCommand.rv = f.rv := rfl
@[simp] theorem Status.dropCommand_tv (f : Status) : f.dropCommand.tv = f.tv := rfl
@[simp] theorem Status.dropCommand_tkind (f : Status) : f.dropCommand.tkind = f.tkind := rfl
@[simp] theorem Status.dropCommand_zk (f : Status) : f.dropCommand.zk = f.zk := rfl
@[simp] theorem Status.dropCommand_regime (f : Status) : f.dropCommand.regime = f.regime := rfl
@[simp] theorem Status.dropCommand_cbusy (f : Status) : f.dropCommand.cbusy = true := rfl
@[simp] theorem Status.dropCommand_wbusy (f : Status) : f.dropCommand.wbusy = f.wbusy := rfl
@[simp] theorem Status.dropCommand_buserr (f : Status) : f.dropCommand.buserr = f.buserr := rfl

@[simp] theorem Status.dropWrite_busy (f : Status) : f.dropWrite.busy = f.busy := rfl
@[simp] theorem Status.dropWrite_done (f : Status) : f.dropWrite.done = f.done := rfl
@[simp] theorem Status.dropWrite_err (f : Status) : f.dropWrite.err = f.err := rfl
@[simp] theorem Status.dropWrite_errcode (f : Status) : f.dropWrite.errcode = f.errcode := rfl
@[simp] theorem Status.dropWrite_rv (f : Status) : f.dropWrite.rv = f.rv := rfl
@[simp] theorem Status.dropWrite_tv (f : Status) : f.dropWrite.tv = f.tv := rfl
@[simp] theorem Status.dropWrite_tkind (f : Status) : f.dropWrite.tkind = f.tkind := rfl
@[simp] theorem Status.dropWrite_zk (f : Status) : f.dropWrite.zk = f.zk := rfl
@[simp] theorem Status.dropWrite_regime (f : Status) : f.dropWrite.regime = f.regime := rfl
@[simp] theorem Status.dropWrite_cbusy (f : Status) : f.dropWrite.cbusy = f.cbusy := rfl
@[simp] theorem Status.dropWrite_wbusy (f : Status) : f.dropWrite.wbusy = true := rfl
@[simp] theorem Status.dropWrite_buserr (f : Status) : f.dropWrite.buserr = f.buserr := rfl

@[simp] theorem Status.busError_busy (f : Status) : f.busError.busy = f.busy := rfl
@[simp] theorem Status.busError_done (f : Status) : f.busError.done = f.done := rfl
@[simp] theorem Status.busError_err (f : Status) : f.busError.err = f.err := rfl
@[simp] theorem Status.busError_errcode (f : Status) : f.busError.errcode = f.errcode := rfl
@[simp] theorem Status.busError_rv (f : Status) : f.busError.rv = f.rv := rfl
@[simp] theorem Status.busError_tv (f : Status) : f.busError.tv = f.tv := rfl
@[simp] theorem Status.busError_tkind (f : Status) : f.busError.tkind = f.tkind := rfl
@[simp] theorem Status.busError_zk (f : Status) : f.busError.zk = f.zk := rfl
@[simp] theorem Status.busError_regime (f : Status) : f.busError.regime = f.regime := rfl
@[simp] theorem Status.busError_cbusy (f : Status) : f.busError.cbusy = f.cbusy := rfl
@[simp] theorem Status.busError_wbusy (f : Status) : f.busError.wbusy = f.wbusy := rfl
@[simp] theorem Status.busError_buserr (f : Status) : f.busError.buserr = true := rfl

@[simp] theorem Status.reject_busy (f : Status) (c : BitVec 4) : (f.reject c).busy = f.busy := rfl
@[simp] theorem Status.reject_done (f : Status) (c : BitVec 4) : (f.reject c).done = true := rfl
@[simp] theorem Status.reject_err (f : Status) (c : BitVec 4) : (f.reject c).err = true := rfl
@[simp] theorem Status.reject_errcode (f : Status) (c : BitVec 4) : (f.reject c).errcode = c := rfl
@[simp] theorem Status.reject_rv (f : Status) (c : BitVec 4) : (f.reject c).rv = f.rv := rfl
@[simp] theorem Status.reject_tv (f : Status) (c : BitVec 4) : (f.reject c).tv = f.tv := rfl
@[simp] theorem Status.reject_tkind (f : Status) (c : BitVec 4) : (f.reject c).tkind = f.tkind := rfl
@[simp] theorem Status.reject_zk (f : Status) (c : BitVec 4) : (f.reject c).zk = f.zk := rfl
@[simp] theorem Status.reject_regime (f : Status) (c : BitVec 4) : (f.reject c).regime = f.regime := rfl
@[simp] theorem Status.reject_cbusy (f : Status) (c : BitVec 4) : (f.reject c).cbusy = f.cbusy := rfl
@[simp] theorem Status.reject_wbusy (f : Status) (c : BitVec 4) : (f.reject c).wbusy = f.wbusy := rfl
@[simp] theorem Status.reject_buserr (f : Status) (c : BitVec 4) : (f.reject c).buserr = f.buserr := rfl

@[simp] theorem Status.rejectEval_busy (f : Status) (c : BitVec 4) : (f.rejectEval c).busy = f.busy := rfl
@[simp] theorem Status.rejectEval_done (f : Status) (c : BitVec 4) : (f.rejectEval c).done = true := rfl
@[simp] theorem Status.rejectEval_err (f : Status) (c : BitVec 4) : (f.rejectEval c).err = true := rfl
@[simp] theorem Status.rejectEval_errcode (f : Status) (c : BitVec 4) : (f.rejectEval c).errcode = c := rfl
@[simp] theorem Status.rejectEval_rv (f : Status) (c : BitVec 4) : (f.rejectEval c).rv = false := rfl
@[simp] theorem Status.rejectEval_tv (f : Status) (c : BitVec 4) : (f.rejectEval c).tv = f.tv := rfl
@[simp] theorem Status.rejectEval_tkind (f : Status) (c : BitVec 4) : (f.rejectEval c).tkind = f.tkind := rfl
@[simp] theorem Status.rejectEval_zk (f : Status) (c : BitVec 4) : (f.rejectEval c).zk = f.zk := rfl
@[simp] theorem Status.rejectEval_regime (f : Status) (c : BitVec 4) : (f.rejectEval c).regime = 3 := rfl
@[simp] theorem Status.rejectEval_cbusy (f : Status) (c : BitVec 4) : (f.rejectEval c).cbusy = f.cbusy := rfl
@[simp] theorem Status.rejectEval_wbusy (f : Status) (c : BitVec 4) : (f.rejectEval c).wbusy = f.wbusy := rfl
@[simp] theorem Status.rejectEval_buserr (f : Status) (c : BitVec 4) : (f.rejectEval c).buserr = f.buserr := rfl

@[simp] theorem Status.acceptNop_busy (f : Status) : f.acceptNop.busy = f.busy := rfl
@[simp] theorem Status.acceptNop_done (f : Status) : f.acceptNop.done = true := rfl
@[simp] theorem Status.acceptNop_err (f : Status) : f.acceptNop.err = false := rfl
@[simp] theorem Status.acceptNop_errcode (f : Status) : f.acceptNop.errcode = 0 := rfl
@[simp] theorem Status.acceptNop_rv (f : Status) : f.acceptNop.rv = f.rv := rfl
@[simp] theorem Status.acceptNop_tv (f : Status) : f.acceptNop.tv = f.tv := rfl
@[simp] theorem Status.acceptNop_tkind (f : Status) : f.acceptNop.tkind = f.tkind := rfl
@[simp] theorem Status.acceptNop_zk (f : Status) : f.acceptNop.zk = f.zk := rfl
@[simp] theorem Status.acceptNop_regime (f : Status) : f.acceptNop.regime = f.regime := rfl
@[simp] theorem Status.acceptNop_cbusy (f : Status) : f.acceptNop.cbusy = f.cbusy := rfl
@[simp] theorem Status.acceptNop_wbusy (f : Status) : f.acceptNop.wbusy = f.wbusy := rfl
@[simp] theorem Status.acceptNop_buserr (f : Status) : f.acceptNop.buserr = f.buserr := rfl

@[simp] theorem Status.acceptEval_busy (f : Status) (r : Regime) : (f.acceptEval r).busy = true := rfl
@[simp] theorem Status.acceptEval_done (f : Status) (r : Regime) : (f.acceptEval r).done = false := rfl
@[simp] theorem Status.acceptEval_err (f : Status) (r : Regime) : (f.acceptEval r).err = false := rfl
@[simp] theorem Status.acceptEval_errcode (f : Status) (r : Regime) : (f.acceptEval r).errcode = 0 := rfl
@[simp] theorem Status.acceptEval_rv (f : Status) (r : Regime) : (f.acceptEval r).rv = false := rfl
@[simp] theorem Status.acceptEval_tv (f : Status) (r : Regime) : (f.acceptEval r).tv = f.tv := rfl
@[simp] theorem Status.acceptEval_tkind (f : Status) (r : Regime) : (f.acceptEval r).tkind = f.tkind := rfl
@[simp] theorem Status.acceptEval_zk (f : Status) (r : Regime) : (f.acceptEval r).zk = f.zk := rfl
@[simp] theorem Status.acceptEval_regime (f : Status) (r : Regime) : (f.acceptEval r).regime = r.code := rfl
@[simp] theorem Status.acceptEval_cbusy (f : Status) (r : Regime) : (f.acceptEval r).cbusy = f.cbusy := rfl
@[simp] theorem Status.acceptEval_wbusy (f : Status) (r : Regime) : (f.acceptEval r).wbusy = f.wbusy := rfl
@[simp] theorem Status.acceptEval_buserr (f : Status) (r : Regime) : (f.acceptEval r).buserr = f.buserr := rfl

@[simp] theorem Status.finishEval_busy (f : Status) : f.finishEval.busy = false := rfl
@[simp] theorem Status.finishEval_done (f : Status) : f.finishEval.done = true := rfl
@[simp] theorem Status.finishEval_err (f : Status) : f.finishEval.err = f.err := rfl
@[simp] theorem Status.finishEval_errcode (f : Status) : f.finishEval.errcode = f.errcode := rfl
@[simp] theorem Status.finishEval_rv (f : Status) : f.finishEval.rv = true := rfl
@[simp] theorem Status.finishEval_tv (f : Status) : f.finishEval.tv = f.tv := rfl
@[simp] theorem Status.finishEval_tkind (f : Status) : f.finishEval.tkind = f.tkind := rfl
@[simp] theorem Status.finishEval_zk (f : Status) : f.finishEval.zk = f.zk := rfl
@[simp] theorem Status.finishEval_regime (f : Status) : f.finishEval.regime = f.regime := rfl
@[simp] theorem Status.finishEval_cbusy (f : Status) : f.finishEval.cbusy = f.cbusy := rfl
@[simp] theorem Status.finishEval_wbusy (f : Status) : f.finishEval.wbusy = f.wbusy := rfl
@[simp] theorem Status.finishEval_buserr (f : Status) : f.finishEval.buserr = f.buserr := rfl

@[simp] theorem Status.acceptGen_busy (f : Status) (k : BitVec 32) : (f.acceptGen k).busy = true := rfl
@[simp] theorem Status.acceptGen_done (f : Status) (k : BitVec 32) : (f.acceptGen k).done = false := rfl
@[simp] theorem Status.acceptGen_err (f : Status) (k : BitVec 32) : (f.acceptGen k).err = false := rfl
@[simp] theorem Status.acceptGen_errcode (f : Status) (k : BitVec 32) : (f.acceptGen k).errcode = 0 := rfl
@[simp] theorem Status.acceptGen_rv (f : Status) (k : BitVec 32) : (f.acceptGen k).rv = f.rv := rfl
@[simp] theorem Status.acceptGen_tv (f : Status) (k : BitVec 32) : (f.acceptGen k).tv = false := rfl
@[simp] theorem Status.acceptGen_tkind (f : Status) (k : BitVec 32) : (f.acceptGen k).tkind = tkindOf k := rfl
@[simp] theorem Status.acceptGen_zk (f : Status) (k : BitVec 32) : (f.acceptGen k).zk = !selected k := rfl
@[simp] theorem Status.acceptGen_regime (f : Status) (k : BitVec 32) : (f.acceptGen k).regime = f.regime := rfl
@[simp] theorem Status.acceptGen_cbusy (f : Status) (k : BitVec 32) : (f.acceptGen k).cbusy = f.cbusy := rfl
@[simp] theorem Status.acceptGen_wbusy (f : Status) (k : BitVec 32) : (f.acceptGen k).wbusy = f.wbusy := rfl
@[simp] theorem Status.acceptGen_buserr (f : Status) (k : BitVec 32) : (f.acceptGen k).buserr = f.buserr := rfl

@[simp] theorem Status.finishGen_busy (f : Status) : f.finishGen.busy = false := rfl
@[simp] theorem Status.finishGen_done (f : Status) : f.finishGen.done = true := rfl
@[simp] theorem Status.finishGen_err (f : Status) : f.finishGen.err = f.err := rfl
@[simp] theorem Status.finishGen_errcode (f : Status) : f.finishGen.errcode = f.errcode := rfl
@[simp] theorem Status.finishGen_rv (f : Status) : f.finishGen.rv = f.rv := rfl
@[simp] theorem Status.finishGen_tv (f : Status) : f.finishGen.tv = true := rfl
@[simp] theorem Status.finishGen_tkind (f : Status) : f.finishGen.tkind = f.tkind := rfl
@[simp] theorem Status.finishGen_zk (f : Status) : f.finishGen.zk = f.zk := rfl
@[simp] theorem Status.finishGen_regime (f : Status) : f.finishGen.regime = f.regime := rfl
@[simp] theorem Status.finishGen_cbusy (f : Status) : f.finishGen.cbusy = f.cbusy := rfl
@[simp] theorem Status.finishGen_wbusy (f : Status) : f.finishGen.wbusy = f.wbusy := rfl
@[simp] theorem Status.finishGen_buserr (f : Status) : f.finishGen.buserr = f.buserr := rfl

@[simp] theorem Status.w1c_busy (f : Status) (v : Word) : (f.w1c v).busy = f.busy := rfl
@[simp] theorem Status.w1c_done (f : Status) (v : Word) : (f.w1c v).done = (f.done && !v.getLsbD 1) := rfl
@[simp] theorem Status.w1c_err (f : Status) (v : Word) : (f.w1c v).err = (f.err && !v.getLsbD 2) := rfl
@[simp] theorem Status.w1c_errcode (f : Status) (v : Word) : (f.w1c v).errcode = (if v.getLsbD 2 then 0 else f.errcode) := rfl
@[simp] theorem Status.w1c_rv (f : Status) (v : Word) : (f.w1c v).rv = f.rv := rfl
@[simp] theorem Status.w1c_tv (f : Status) (v : Word) : (f.w1c v).tv = f.tv := rfl
@[simp] theorem Status.w1c_tkind (f : Status) (v : Word) : (f.w1c v).tkind = f.tkind := rfl
@[simp] theorem Status.w1c_zk (f : Status) (v : Word) : (f.w1c v).zk = f.zk := rfl
@[simp] theorem Status.w1c_regime (f : Status) (v : Word) : (f.w1c v).regime = f.regime := rfl
@[simp] theorem Status.w1c_cbusy (f : Status) (v : Word) : (f.w1c v).cbusy = (f.cbusy && !v.getLsbD 16) := rfl
@[simp] theorem Status.w1c_wbusy (f : Status) (v : Word) : (f.w1c v).wbusy = (f.wbusy && !v.getLsbD 17) := rfl
@[simp] theorem Status.w1c_buserr (f : Status) (v : Word) : (f.w1c v).buserr = (f.buserr && !v.getLsbD 18) := rfl

end Sys2Proof.Machine
end

