-- ==== Sys2Proof/Laws/Ops.lean ====
section
/-! SUPPORT. What the shared operations do: one lemma says everything an operation can answer. -/

namespace Sys2Proof.Machine

/-- A read of a memory entry answers its value, or draws a free one (20 R98). -/
theorem readEntry_cases (a : Nat) (s : State) :
    (∃ v, s.mem.readWord a = some v ∧ readEntry a s = (v, s)) ∨
      (s.mem.readWord a = none ∧ readEntry a s = anyValue s) := by
  unfold readEntry
  cases h : s.mem.readWord a with
  | some v => exact .inl ⟨v, rfl, rfl⟩
  | none => exact .inr ⟨rfl, rfl⟩

theorem readEntry_of_some {a : Nat} {s : State} {v : Word} (h : s.mem.readWord a = some v) :
    readEntry a s = (v, s) := by unfold readEntry; rw [h]

theorem readEntry_of_none {a : Nat} {s : State} (h : s.mem.readWord a = none) :
    readEntry a s = anyValue s := by unfold readEntry; rw [h]

/-- Only the count of draws can change when an entry is read. -/
theorem readEntry_snd (a : Nat) (s : State) : ∃ n, (readEntry a s).2 = { s with draws := n } := by
  rcases readEntry_cases a s with ⟨v, -, h⟩ | ⟨-, h⟩
  · exact ⟨s.draws, by rw [h]⟩
  · exact ⟨s.draws + 1, by rw [h]; rfl⟩

theorem unlessBusy_busy {run : State → State} {s : State} (h : s.status.busy = true) :
    unlessBusy run s = dropCommand s := by simp [unlessBusy, h]

theorem unlessBusy_idle {run : State → State} {s : State} (h : s.status.busy = false) :
    unlessBusy run s = run s := by simp [unlessBusy, h]

theorem inputWrite_busy {store : State → State} {s : State} (h : s.status.busy = true) :
    inputWrite store s = { s with status := s.status.dropWrite } := by simp [inputWrite, h]

theorem inputWrite_idle {store : State → State} {s : State} (h : s.status.busy = false) :
    inputWrite store s = store s := by simp [inputWrite, h]

/-! Where the entries stand (20 R81-R84). -/

@[simp] theorem region_regOffset (r : Reg) : region (regOffset r) = .reg r := by cases r <;> decide

@[simp] theorem regOffset_aligned (r : Reg) : misaligned (regOffset r) = false := by cases r <;> decide

theorem misaligned_iff (a : Offset) : misaligned a = true ↔ a.toNat % 8 ≠ 0 := by
  have h : (a.extractLsb' 0 3).toNat = a.toNat % 8 := by simp [BitVec.extractLsb'_toNat]
  unfold misaligned
  rw [bne_iff_ne, ne_eq, ← BitVec.toNat_inj, h]
  rfl

theorem ofNat_toNat_offset {n : Nat} (h : n < 0x20000) : (BitVec.ofNat 17 n).toNat = n := by
  rw [BitVec.toNat_ofNat]; omega

theorem region_s {j : Nat} (h : j < Config.nMax) : region (BitVec.ofNat 17 (sAddr j)) = .s j := by
  unfold Config.nMax at h
  have e : (BitVec.ofNat 17 (sAddr j)).toNat = 0x10000 + 8 * j := ofNat_toNat_offset (by unfold sAddr; omega)
  unfold region
  simp only [e]
  rw [if_neg (by omega), if_neg (by omega), if_neg (by omega), if_neg (by omega), if_pos (by omega),
    if_pos (by unfold Config.nMax; omega)]
  congr 1; omega

theorem region_x {i : Nat} (h : i < Config.tableW) : region (BitVec.ofNat 17 (xAddr i)) = .x i := by
  unfold Config.tableW at h
  have e : (BitVec.ofNat 17 (xAddr i)).toNat = 0x01000 + 8 * i := ofNat_toNat_offset (by unfold xAddr; omega)
  unfold region
  simp only [e]
  rw [if_neg (by omega), if_pos (by omega)]
  congr 1; omega

theorem region_w {l i : Nat} (hl : l < Config.levels) (hi : i < Config.tableW) :
    region (BitVec.ofNat 17 (wAddr l i)) = .w l i := by
  unfold Config.tableW at hi
  unfold Config.levels at hl
  have e : (BitVec.ofNat 17 (wAddr l i)).toNat = 0x08000 + 0x1000 * l + 8 * i :=
    ofNat_toNat_offset (by unfold wAddr; omega)
  unfold region
  simp only [e]
  rw [if_neg (by omega), if_neg (by omega), if_neg (by omega), if_pos (by omega), if_pos (by omega)]
  congr 1 <;> omega

/-! The zero fill (41 R161). -/

theorem zeroTables_fold (m : Memory) (n : Nat) (b : Nat) :
    ((List.range n).foldl (fun m l => m.zeroWords (wAddr l 0) Config.tableW) m).readByte b =
      if 0x08000 ≤ b ∧ b < 0x08000 + 0x1000 * n ∧ b % 0x1000 < 0x808 then some 0 else m.readByte b := by
  induction n with
  | zero =>
    rw [if_neg (by omega)]
    rfl
  | succ n ih =>
    rw [List.range_succ, List.foldl_append]
    simp only [List.foldl_cons, List.foldl_nil]
    by_cases h : wAddr n 0 ≤ b ∧ b < wAddr n 0 + 8 * Config.tableW
    · rw [Memory.zeroWords, Memory.readByte_store, List.length_replicate, if_pos h, List.getElem?_replicate,
        if_pos (by omega)]
      unfold wAddr Config.tableW at h
      rw [if_pos (by omega)]
    · rw [Memory.readByte_zeroWords_other (by omega), ih]
      unfold wAddr Config.tableW at h
      split
      · rw [if_pos (by omega)]
      · rw [if_neg (by omega)]

/-- A byte after the zero fill: 0 in X and W, the old byte elsewhere. -/
theorem readByte_zeroTables (m : Memory) (b : Nat) :
    (zeroTables m).readByte b =
      if (0x01000 ≤ b ∧ b < 0x01808) ∨ (0x08000 ≤ b ∧ b < 0x10000 ∧ b % 0x1000 < 0x808) then some 0
      else m.readByte b := by
  unfold zeroTables
  rw [zeroTables_fold]
  unfold Config.levels
  by_cases h : 0x08000 ≤ b ∧ b < 0x08000 + 0x1000 * 8 ∧ b % 0x1000 < 0x808
  · rw [if_pos h, if_pos (by omega)]
  · rw [if_neg h]
    by_cases hx : xAddr 0 ≤ b ∧ b < xAddr 0 + 8 * Config.tableW
    · rw [Memory.zeroWords, Memory.readByte_store, List.length_replicate, if_pos hx, List.getElem?_replicate,
        if_pos (by omega)]
      unfold xAddr Config.tableW at hx
      rw [if_pos (by omega)]
    · rw [Memory.readByte_zeroWords_other (by omega)]
      unfold xAddr Config.tableW at hx
      rw [if_neg (by omega)]

theorem readWord_of_zero_bytes {m : Memory} {a : Nat} (h : ∀ j < 8, m.readByte (a + j) = some 0) :
    m.readWord a = some Config.zero := by
  rw [Memory.readWord_eq_some]
  intro j hj
  rw [h j hj]
  congr 1
  ext k hk
  simp [Config.zero]

theorem readWord_zeroTables_x (m : Memory) {i : Nat} (h : i < Config.tableW) :
    (zeroTables m).readWord (xAddr i) = some Config.zero := by
  unfold Config.tableW at h
  refine readWord_of_zero_bytes fun j hj => ?_
  rw [readByte_zeroTables, if_pos (by unfold xAddr; omega)]

theorem readWord_zeroTables_w (m : Memory) {l i : Nat} (hl : l < Config.levels) (hi : i < Config.tableW) :
    (zeroTables m).readWord (wAddr l i) = some Config.zero := by
  unfold Config.tableW at hi
  unfold Config.levels at hl
  refine readWord_of_zero_bytes fun j hj => ?_
  rw [readByte_zeroTables, if_pos (by unfold wAddr; omega)]

theorem readWord_zeroTables_s (m : Memory) (j : Nat) : (zeroTables m).readWord (sAddr j) = m.readWord (sAddr j) := by
  refine Memory.readWord_congr fun k hk => ?_
  rw [readByte_zeroTables, if_neg (by unfold sAddr; omega)]

theorem wf_zeroTables {m : Memory} (h : m.wf) : (zeroTables m).wf := by
  have aux : ∀ (ls : List Nat) (m : Memory), m.wf →
      (ls.foldl (fun m l => m.zeroWords (wAddr l 0) Config.tableW) m).wf := by
    intro ls
    induction ls with
    | nil => intro m h; exact h
    | cons l ls ih => intro m h; exact ih _ (Memory.wf_zeroWords h _ _)
  exact aux _ _ (Memory.wf_zeroWords h _ _)

/-- The name a read binds holds the data of its response (30 R123). -/
theorem named_bindName (name : String) (s : State) : (bindName name s).named name = some (lastData s) := by
  simp [State.named]

/-- A read binds no other name (30 R123). -/
theorem named_bindName_other {name other : String} (s : State) (h : other ≠ name) :
    (bindName name s).named other = s.named other := by
  simp only [State.named, bindName_names]
  rw [List.find?_cons_of_neg (by simpa using h.symm), List.find?_filter]
  congr 2
  funext b
  rcases b with ⟨n, v⟩
  by_cases e : n = other
  · subst e; simp [h]
  · simp [e]

end Sys2Proof.Machine
end

