-- ==== Sys2Proof/Laws/Trig.lean ====
section
/-! SUPPORT. The estimates of Machine/Trig.lean enclose the real cosine and sine. -/

namespace Sys2Proof.Machine.Trig

/-- The sign with which the term j enters the cosine series. -/
def cosCoef (j : Nat) : ℤ := if j % 4 = 0 then 1 else if j % 4 = 2 then -1 else 0

/-- The sign with which the term j enters the sine series. -/
def sinCoef (j : Nat) : ℤ := if j % 4 = 1 then 1 else if j % 4 = 3 then -1 else 0

theorem I_pow_parts (j : Nat) : (Complex.I ^ j).re = cosCoef j ∧ (Complex.I ^ j).im = sinCoef j := by
  have h : Complex.I ^ j = Complex.I ^ (j % 4) := by
    conv_lhs => rw [← Nat.div_add_mod j 4, pow_add, pow_mul, Complex.I_pow_four, one_pow, one_mul]
  rw [h]
  unfold cosCoef sinCoef
  have := Nat.mod_lt j (by norm_num : 0 < 4)
  generalize j % 4 = r at *
  rcases r with _ | _ | _ | _ | r
  · simp
  · simp
  · simp
  · have : Complex.I ^ 3 = -Complex.I := by rw [pow_succ, Complex.I_sq]; ring
    simp [this]
  · omega

/-- The Taylor polynomials of cosine and sine are near them, for a small angle. -/
theorem series_bound {θ : ℝ} (h0 : 0 ≤ θ) (h1 : θ ≤ 1) {n : Nat} (hn : 0 < n) :
    |Real.cos θ - ∑ j ∈ Finset.range n, cosCoef j * (θ ^ j / j.factorial)| ≤ 2 * θ ^ n ∧
    |Real.sin θ - ∑ j ∈ Finset.range n, sinCoef j * (θ ^ j / j.factorial)| ≤ 2 * θ ^ n := by
  have hb := Complex.exp_bound (x := (θ : ℂ) * Complex.I) (by simpa [abs_of_nonneg h0] using h1) hn
  have hnorm : ‖(θ : ℂ) * Complex.I‖ = θ := by simp [abs_of_nonneg h0]
  rw [hnorm] at hb
  have hc : ((n.succ : ℝ) * ((n.factorial : ℝ) * n)⁻¹) ≤ 2 := by
    have hn' : (1 : ℝ) ≤ n := by exact_mod_cast hn
    have hf : (1 : ℝ) ≤ n.factorial := by exact_mod_cast Nat.factorial_pos n
    rw [← div_eq_mul_inv, div_le_iff₀ (by positivity)]
    push_cast
    nlinarith
  have hb2 : ‖Complex.exp ((θ : ℂ) * Complex.I) -
      ∑ j ∈ Finset.range n, ((θ : ℂ) * Complex.I) ^ j / j.factorial‖ ≤ 2 * θ ^ n := by
    refine hb.trans ?_
    rw [mul_comm]
    gcongr
  have term : ∀ j : Nat, ((θ : ℂ) * Complex.I) ^ j / j.factorial = ((θ ^ j / j.factorial : ℝ) : ℂ) * Complex.I ^ j := by
    intro j
    push_cast
    rw [mul_pow]
    ring
  have re := (Complex.abs_re_le_norm _).trans hb2
  have im := (Complex.abs_im_le_norm _).trans hb2
  simp only [term, Complex.sub_re, Complex.sub_im, Complex.re_sum, Complex.im_sum, Complex.re_ofReal_mul,
    Complex.im_ofReal_mul, Complex.exp_ofReal_mul_I_re, Complex.exp_ofReal_mul_I_im, (I_pow_parts _).1,
    (I_pow_parts _).2] at re im
  constructor
  · rw [Finset.sum_congr rfl fun j _ => mul_comm (cosCoef j : ℝ) (θ ^ j / j.factorial)]
    exact re
  · rw [Finset.sum_congr rfl fun j _ => mul_comm (sinCoef j : ℝ) (θ ^ j / j.factorial)]
    exact im

/-- The fixed-point terms are low by at most 2 units; so a run of the loop is off by at most 2 units a term. -/
theorem taylor_spec {m h P : Nat} (hθ : (m : ℝ) / 2 ^ h ≤ 1 / 2) (fuel : Nat) :
    ∀ (i t : Nat) (c s : ℤ),
      (t : ℝ) ≤ 2 ^ P * (((m : ℝ) / 2 ^ h) ^ i / i.factorial) →
      2 ^ P * (((m : ℝ) / 2 ^ h) ^ i / i.factorial) ≤ t + 2 →
      |(((taylor m h fuel i t c s).1 : ℤ) : ℝ) - c -
          2 ^ P * ∑ j ∈ Finset.range fuel, cosCoef (i + j) * (((m : ℝ) / 2 ^ h) ^ (i + j) / (i + j).factorial)| ≤
        2 * fuel ∧
      |(((taylor m h fuel i t c s).2 : ℤ) : ℝ) - s -
          2 ^ P * ∑ j ∈ Finset.range fuel, sinCoef (i + j) * (((m : ℝ) / 2 ^ h) ^ (i + j) / (i + j).factorial)| ≤
        2 * fuel := by
  set θ : ℝ := (m : ℝ) / 2 ^ h with hθ'
  have θ0 : 0 ≤ θ := by positivity
  induction fuel with
  | zero => intro i t c s _ _; simp [taylor]
  | succ fuel ih =>
    intro i t c s ht1 ht2
    set τ : ℝ := 2 ^ P * (θ ^ i / i.factorial) with hτ
    have hτ' : 2 ^ P * (θ ^ (i + 1) / (i + 1).factorial) = τ * θ / (i + 1) := by
      rw [hτ, Nat.factorial_succ, pow_succ]
      push_cast
      field_simp
    -- the next term, rounded down
    have hq : ((t * m / (2 ^ h * (i + 1)) : Nat) : ℝ) ≤ t * θ / (i + 1) ∧
        t * θ / (i + 1) < ((t * m / (2 ^ h * (i + 1)) : Nat) : ℝ) + 1 := by
      have hd : (0 : ℝ) < 2 ^ h * (i + 1) := by positivity
      have e : (t : ℝ) * θ / (i + 1) = ((t * m : Nat) : ℝ) / ((2 ^ h * (i + 1) : Nat) : ℝ) := by
        rw [hθ']; push_cast; field_simp
      rw [e]
      constructor
      · exact Nat.cast_div_le
      · have hD : 0 < 2 ^ h * (i + 1) := by positivity
        have := Nat.lt_div_mul_add (a := t * m) hD
        rw [div_lt_iff₀ (by exact_mod_cast hD)]
        have h2 : t * m < (t * m / (2 ^ h * (i + 1)) + 1) * (2 ^ h * (i + 1)) := by
          rw [Nat.add_mul, Nat.one_mul]; exact this
        exact_mod_cast h2
    have hi : (1 : ℝ) ≤ (i : ℝ) + 1 := by have : (0 : ℝ) ≤ i := Nat.cast_nonneg i; linarith
    have f1 : (t : ℝ) * θ / (i + 1) ≤ τ * θ / (i + 1) := by gcongr
    have f2 : τ * θ / (i + 1) ≤ t * θ / (i + 1) + 1 := by
      have : τ * θ / (i + 1) ≤ (t + 2) * θ / (i + 1) := by gcongr
      have h3 : (2 : ℝ) * θ / (i + 1) ≤ 1 := by
        rw [div_le_one (by linarith)]; linarith
      have e : ((t : ℝ) + 2) * θ / (i + 1) = t * θ / (i + 1) + 2 * θ / (i + 1) := by ring
      linarith
    have step := ih (i + 1) (t * m / (2 ^ h * (i + 1)))
      (if i % 4 = 0 then c + t else if i % 4 = 2 then c - t else c)
      (if i % 4 = 1 then s + t else if i % 4 = 3 then s - t else s)
      (by rw [hτ']; exact hq.1.trans f1) (by rw [hτ']; linarith [hq.2])
    have run : taylor m h (fuel + 1) i t c s = taylor m h fuel (i + 1) (t * m / (2 ^ h * (i + 1)))
      (if i % 4 = 0 then c + t else if i % 4 = 2 then c - t else c)
      (if i % 4 = 1 then s + t else if i % 4 = 3 then s - t else s) := rfl
    have sumc : ∀ co : Nat → ℤ, ∑ j ∈ Finset.range (fuel + 1), (co (i + j) : ℝ) * (θ ^ (i + j) / (i + j).factorial) =
        ∑ j ∈ Finset.range fuel, (co (i + 1 + j) : ℝ) * (θ ^ (i + 1 + j) / (i + 1 + j).factorial) +
          co i * (θ ^ i / i.factorial) := by
      intro co
      rw [Finset.sum_range_succ', Nat.add_zero]
      congr 1
      refine Finset.sum_congr rfl fun j _ => ?_
      have : i + (j + 1) = i + 1 + j := by omega
      rw [this]
    have err : |(t : ℝ) - τ| ≤ 2 := by rw [abs_le]; constructor <;> linarith
    rw [run, sumc cosCoef, sumc sinCoef]
    set r := taylor m h fuel (i + 1) (t * m / (2 ^ h * (i + 1)))
      (if i % 4 = 0 then c + t else if i % 4 = 2 then c - t else c)
      (if i % 4 = 1 then s + t else if i % 4 = 3 then s - t else s)
    have ec : (((if i % 4 = 0 then c + t else if i % 4 = 2 then c - t else c : ℤ)) : ℝ) = c + cosCoef i * t := by
      unfold cosCoef; split_ifs <;> push_cast <;> ring
    have es : (((if i % 4 = 1 then s + t else if i % 4 = 3 then s - t else s : ℤ)) : ℝ) = s + sinCoef i * t := by
      unfold sinCoef; split_ifs <;> push_cast <;> ring
    rw [ec, es] at step
    have cc : |(cosCoef i : ℝ) * ((t : ℝ) - τ)| ≤ 2 := by
      rw [abs_mul]
      have : |(cosCoef i : ℝ)| ≤ 1 := by unfold cosCoef; split_ifs <;> simp
      nlinarith [abs_nonneg ((t : ℝ) - τ)]
    have cs : |(sinCoef i : ℝ) * ((t : ℝ) - τ)| ≤ 2 := by
      rw [abs_mul]
      have : |(sinCoef i : ℝ)| ≤ 1 := by unfold sinCoef; split_ifs <;> simp
      nlinarith [abs_nonneg ((t : ℝ) - τ)]
    constructor
    · have h1 := abs_le.1 step.1
      have h2 := abs_le.1 cc
      rw [abs_le]
      push_cast
      have e : ∀ S : ℝ, (2 : ℝ) ^ P * (S + cosCoef i * (θ ^ i / i.factorial)) = 2 ^ P * S + cosCoef i * τ := by
        intro S; rw [hτ]; ring
      rw [e]
      constructor <;> linarith
    · have h1 := abs_le.1 step.2
      have h2 := abs_le.1 cs
      rw [abs_le]
      push_cast
      have e : ∀ S : ℝ, (2 : ℝ) ^ P * (S + sinCoef i * (θ ^ i / i.factorial)) = 2 ^ P * S + sinCoef i * τ := by
        intro S; rw [hτ]; ring
      rw [e]
      constructor <;> linarith

/-- An estimate encloses the cosine and the sine of an angle. -/
def Encloses (P : Nat) (a : Estimate) (x : ℝ) : Prop :=
  |(a.cos : ℝ) - 2 ^ P * Real.cos x| ≤ a.err ∧ |(a.sin : ℝ) - 2 ^ P * Real.sin x| ≤ a.err

theorem small_encloses {m h P : Nat} (hθ : (m : ℝ) / 2 ^ h ≤ 1 / 2 ^ 8) :
    Encloses P (small m h P) ((m : ℝ) / 2 ^ h) := by
  set θ : ℝ := (m : ℝ) / 2 ^ h with hθ'
  have θ0 : 0 ≤ θ := by positivity
  have hn : 0 < terms P := by unfold terms; omega
  have ht := taylor_spec (m := m) (h := h) (P := P) (by rw [← hθ']; linarith) (terms P) 0 (2 ^ P) 0 0
    (by simp) (by simp)
  have hs := series_bound θ0 (by linarith) hn
  rw [← hθ'] at ht
  simp only [Nat.zero_add, Int.cast_zero, sub_zero] at ht
  have hrem : (2 : ℝ) ^ P * (2 * θ ^ terms P) ≤ 2 := by
    have h1 : θ ^ terms P ≤ (1 / 2 ^ 8) ^ terms P := by gcongr
    have h2 : ((1 : ℝ) / 2 ^ 8) ^ terms P ≤ 1 / 2 ^ P := by
      rw [div_pow, one_pow, ← pow_mul]
      apply one_div_le_one_div_of_le (by positivity)
      exact pow_le_pow_right₀ (by norm_num) (by unfold terms; omega)
    calc (2 : ℝ) ^ P * (2 * θ ^ terms P) ≤ 2 ^ P * (2 * (1 / 2 ^ P)) := by gcongr; exact h1.trans h2
      _ = 2 := by field_simp
  have p0 : (0 : ℝ) < 2 ^ P := by positivity
  have comb : ∀ (z S f : ℝ), |z - 2 ^ P * S| ≤ 2 * (terms P : ℝ) → |f - S| ≤ 2 * θ ^ terms P →
      |z - 2 ^ P * f| ≤ ((2 * terms P + 2 : Nat) : ℝ) := by
    intro z S f h1 h2
    have h3 : |2 ^ P * (f - S)| ≤ 2 := by
      rw [abs_mul, abs_of_pos p0]
      exact (mul_le_mul_of_nonneg_left h2 p0.le).trans hrem
    have h1 := abs_le.1 h1
    have h3 := abs_le.1 h3
    push_cast
    rw [abs_le]
    constructor <;> nlinarith
  exact ⟨comb _ _ _ ht.1 hs.1, comb _ _ _ ht.2 hs.2⟩

theorem double_encloses {P : Nat} {a : Estimate} {x : ℝ} (h : Encloses P a x) :
    Encloses P (double P a) (2 * x) := by
  obtain ⟨hc, hs⟩ := h
  have p0 : (0 : ℝ) < 2 ^ P := by positivity
  have c1 := Real.abs_cos_le_one x
  have s1 := Real.abs_sin_le_one x
  set E : ℝ := (a.err : ℝ) with hE
  have E0 : 0 ≤ E := Nat.cast_nonneg _
  -- integer division by 2^P is within one unit
  have fl : ∀ z : ℤ, ((z / (2 ^ P : Nat) : ℤ) : ℝ) ≤ z / 2 ^ P ∧ (z : ℝ) / 2 ^ P ≤ ((z / (2 ^ P : Nat) : ℤ) : ℝ) + 1 := by
    intro z
    have hd : (0 : ℤ) < (2 ^ P : Nat) := by positivity
    have h1 := Int.ediv_mul_le z hd.ne'
    have h2 := Int.lt_ediv_add_one_mul_self z hd
    constructor
    · rw [le_div_iff₀ p0]; exact_mod_cast h1
    · rw [div_le_iff₀ p0]; exact_mod_cast h2.le
  have flE : 2 * E * E / 2 ^ P ≤ ((2 * a.err * a.err / 2 ^ P : Nat) : ℝ) + 1 := by
    have hd : 0 < 2 ^ P := by positivity
    have h2 := Nat.lt_div_mul_add (a := 2 * a.err * a.err) hd
    have h3 : 2 * a.err * a.err < (2 * a.err * a.err / 2 ^ P + 1) * 2 ^ P := by
      rw [Nat.add_mul, Nat.one_mul]; exact h2
    rw [div_le_iff₀ p0, hE]
    exact_mod_cast h3.le
  have err : (((double P a).err : Nat) : ℝ) = 4 * E + ((2 * a.err * a.err / 2 ^ P : Nat) : ℝ) + 2 := by
    simp [double, hE]
  -- u, v: the errors of the two factors
  have prod : ∀ (y v f g : ℝ), |f| ≤ 1 → |g| ≤ 1 → |y - 2 ^ P * f| ≤ E → |v - 2 ^ P * g| ≤ E →
      |2 * y * v / 2 ^ P - 2 ^ P * (2 * f * g)| ≤ 4 * E + 2 * E * E / 2 ^ P := by
    intro y v f g hf hg hy hv
    have e : 2 * y * v / 2 ^ P - 2 ^ P * (2 * f * g) =
        2 * (f * (v - 2 ^ P * g)) + 2 * (g * (y - 2 ^ P * f)) + 2 * ((y - 2 ^ P * f) * (v - 2 ^ P * g)) / 2 ^ P := by
      field_simp
      ring
    rw [e]
    have b1 : |f * (v - 2 ^ P * g)| ≤ E := by
      rw [abs_mul]; nlinarith [abs_nonneg f, abs_nonneg (v - 2 ^ P * g)]
    have b2 : |g * (y - 2 ^ P * f)| ≤ E := by
      rw [abs_mul]; nlinarith [abs_nonneg g, abs_nonneg (y - 2 ^ P * f)]
    have b3 : |(y - 2 ^ P * f) * (v - 2 ^ P * g)| ≤ E * E := by
      rw [abs_mul]; gcongr
    have b4 : |2 * ((y - 2 ^ P * f) * (v - 2 ^ P * g)) / 2 ^ P| ≤ 2 * E * E / 2 ^ P := by
      rw [abs_div, abs_of_pos p0, abs_mul, abs_two, mul_assoc]
      gcongr
    have b1 := abs_le.1 b1
    have b2 := abs_le.1 b2
    have b4 := abs_le.1 b4
    rw [abs_le]
    constructor <;> linarith
  constructor
  · have hp := abs_le.1 (prod a.cos a.cos _ _ c1 c1 hc hc)
    have hf := fl (2 * a.cos * a.cos)
    push_cast at hf
    rw [err, Real.cos_two_mul]
    simp only [double]
    push_cast
    rw [abs_le]
    have e : (2 : ℝ) ^ P * (2 * Real.cos x ^ 2 - 1) = 2 ^ P * (2 * Real.cos x * Real.cos x) - 2 ^ P := by ring
    rw [e]
    constructor <;> linarith [hf.1, hf.2, hp.1, hp.2]
  · have hp := abs_le.1 (prod a.sin a.cos _ _ s1 c1 hs hc)
    have hf := fl (2 * a.sin * a.cos)
    push_cast at hf
    rw [err, Real.sin_two_mul]
    simp only [double]
    push_cast
    rw [abs_le]
    constructor <;> linarith [hf.1, hf.2, hp.1, hp.2]

theorem doubles_encloses {P : Nat} (k : Nat) : ∀ {a : Estimate} {x : ℝ}, Encloses P a x →
    Encloses P (doubles P k a) (2 ^ k * x) := by
  induction k with
  | zero => intro a x h; simpa [doubles] using h
  | succ k ih =>
    intro a x h
    have := ih (double_encloses h)
    rw [pow_succ, mul_assoc]
    exact this

/-- The estimate at m·2^e encloses the cosine and the sine there. -/
theorem estimate_encloses (m : Nat) (e : ℤ) (p : Nat) :
    Encloses (fracBits m e p) (estimate m e p) ((m : ℝ) * (2 : ℝ) ^ e) := by
  unfold estimate
  set k := halvings m e with hk
  set P := fracBits m e p
  have hk8 : (m.log2 : ℤ) + 1 + e + 8 ≤ k := by rw [hk]; unfold halvings magnitude; omega
  obtain ⟨h, hh⟩ := Int.eq_ofNat_of_zero_le (by omega : 0 ≤ (k : ℤ) - e)
  have hh' : ((k : ℤ) - e).toNat = h := by omega
  have two : (2 : ℝ) ≠ 0 := by norm_num
  have small_angle : (m : ℝ) / 2 ^ h ≤ 1 / 2 ^ 8 := by
    have h1 : (m : ℝ) < 2 ^ (m.log2 + 1) := by exact_mod_cast Nat.lt_log2_self
    have h2 : m.log2 + 1 + 8 ≤ h := by omega
    rw [div_le_div_iff₀ (by positivity) (by positivity), one_mul]
    calc (m : ℝ) * 2 ^ 8 ≤ 2 ^ (m.log2 + 1) * 2 ^ 8 := by gcongr
      _ = 2 ^ (m.log2 + 1 + 8) := by rw [← pow_add]
      _ ≤ 2 ^ h := pow_le_pow_right₀ (by norm_num) h2
  have := doubles_encloses k (small_encloses (P := P) small_angle)
  simp only [hh']
  have e' : (m : ℝ) * (2 : ℝ) ^ e = 2 ^ k * ((m : ℝ) / 2 ^ h) := by
    have : e = (k : ℤ) - (h : ℤ) := by omega
    rw [this, zpow_sub₀ two, zpow_natCast, zpow_natCast]
    ring
  rw [e']
  exact this

/-- What FSIN and FCOS answer is a rounding within [-1, 1]: a sign over a magnitude not above 1.0's. -/
theorem roundFixed_range (P : Nat) (z : ℤ) :
    ∃ s mag, roundFixed P z = F64.withSign s mag ∧ mag ≤ 0x3FF * 2 ^ 52 := by
  refine ⟨_, _, rfl, F64.roundMag_le_of (by positivity) (by norm_num [F64.infMag]) ?_⟩
  have h1 : F64.magValue (0x3FF * 2 ^ 52) = 1 := by
    have := F64.magValue_eq (c := 0x3FE) (m := 2 ^ 52) (by norm_num) (.inr le_rfl)
    have e : 0x3FE * 2 ^ 52 + 2 ^ 52 = 0x3FF * 2 ^ 52 := by norm_num
    rw [e] at this
    rw [this]
    norm_num
  rw [h1, div_le_one (by positivity)]
  have : (max (-(2 ^ P : Nat) : ℤ) (min z (2 ^ P : Nat))).natAbs ≤ 2 ^ P := by
    have : (0 : ℤ) < (2 ^ P : Nat) := by positivity
    omega
  exact_mod_cast this

theorem value_range (m : Nat) (e : ℤ) (pick : Estimate → ℤ) :
    ∃ s mag, value m e pick = F64.withSign s mag ∧ mag ≤ 0x3FF * 2 ^ 52 := by
  have hc : ∀ ps w, certified m e pick ps = some w → ∃ s mag, w = F64.withSign s mag ∧ mag ≤ 0x3FF * 2 ^ 52 := by
    intro ps
    induction ps with
    | nil => intro w h; simp [certified] at h
    | cons p ps ih =>
      intro w h
      unfold certified at h
      split at h
      · rename_i w' hw
        simp only [Option.some.injEq] at h
        subst h
        unfold agreed at hw
        split at hw
        · simp only [Option.some.injEq] at hw
          rw [← hw]; exact roundFixed_range _ _
        · simp at hw
      · exact ih w h
  unfold value
  split
  · rename_i w h; exact hc _ _ h
  · exact roundFixed_range _ _

end Sys2Proof.Machine.Trig
end

