-- ==== Sys2Proof/Laws/Invariant.lean ====
section
/-! SUPPORT. What each action of MT-CORE keeps of the invariant: memory first, then the registers and SEQ. -/

namespace Sys2Proof.Machine

/-! Memory. -/

/-- The memory clauses of the invariant. -/
structure MemOk (m : Memory) : Prop where
  wf : m.wf
  mapped : ∀ a, (m.readByte a).isSome = true → inStorage a = true
  whole : ∀ a, (m.readByte a).isSome = true → ∀ j < 8, (m.readByte (a / 8 * 8 + j)).isSome = true
  canon : tablesCanonical m

theorem State.Inv.memOk {s : State} (h : s.Inv) : MemOk s.mem where
  wf := h.memWf
  mapped a ha := by
    obtain ⟨c, hc, rfl⟩ := Memory.mem_of_readByte_isSome ha
    exact h.memMapped c hc
  whole a ha := by
    obtain ⟨c, hc, rfl⟩ := Memory.mem_of_readByte_isSome ha
    exact h.memWhole c hc
  canon := h.canonTables

theorem MemOk.mapped_mem {m : Memory} (h : MemOk m) : ∀ c ∈ m, inStorage c.1 = true :=
  fun c hc => h.mapped c.1 (Memory.readByte_isSome_of_mem hc)

theorem MemOk.whole_mem {m : Memory} (h : MemOk m) :
    ∀ c ∈ m, ∀ j < 8, (m.readByte (c.1 / 8 * 8 + j)).isSome = true :=
  fun c hc => h.whole c.1 (Memory.readByte_isSome_of_mem hc)

theorem readByte_writeWord_isSome {m : Memory} {a b : Nat} {v : Word} :
    ((m.writeWord a v).readByte b).isSome = true ↔ (a ≤ b ∧ b < a + 8) ∨ (m.readByte b).isSome = true := by
  rw [Memory.writeWord, Memory.readByte_store, wordBytes_length]
  by_cases h : a ≤ b ∧ b < a + 8
  · rw [if_pos h, wordBytes_getElem v _ (by omega)]
    simp [h]
  · rw [if_neg h]
    simp [h]

/-- An aligned entry of X, W or S. -/
def isEntry (a : Nat) : Prop := a % 8 = 0 ∧ inStorage a = true

theorem isEntry_inStorage {a b : Nat} (h : isEntry a) (h1 : a ≤ b) (h2 : b < a + 8) : inStorage b = true := by
  obtain ⟨ha, hs⟩ := h
  unfold inStorage Config.nMax at *
  simp only [Bool.or_eq_true, Bool.and_eq_true, decide_eq_true_eq] at *
  omega

theorem isEntry_s {j : Nat} (h : j < Config.nMax) : isEntry (sAddr j) := by
  unfold isEntry inStorage sAddr Config.nMax at *
  simp only [Bool.or_eq_true, Bool.and_eq_true, decide_eq_true_eq]
  omega

theorem isEntry_x {i : Nat} (h : i < Config.tableW) : isEntry (xAddr i) := by
  unfold isEntry inStorage xAddr Config.nMax Config.tableW at *
  simp only [Bool.or_eq_true, Bool.and_eq_true, decide_eq_true_eq]
  omega

theorem isEntry_w {l i : Nat} (hl : l < Config.levels) (hi : i < Config.tableW) : isEntry (wAddr l i) := by
  unfold isEntry inStorage wAddr Config.nMax Config.tableW Config.levels at *
  simp only [Bool.or_eq_true, Bool.and_eq_true, decide_eq_true_eq]
  omega

theorem written_writeWord {m : Memory} {a b : Nat} {v : Word} (h : written m b) : written (m.writeWord a v) b := by
  unfold written at *
  rw [Memory.isSome_readWord] at *
  intro j hj
  exact readByte_writeWord_isSome.2 (.inr (h j hj))

theorem tablesWritten_writeWord {m : Memory} {a : Nat} {v : Word} (h : tablesWritten m) :
    tablesWritten (m.writeWord a v) :=
  ⟨fun i hi => written_writeWord (h.1 i hi), fun l i hl hi => written_writeWord (h.2 l i hl hi)⟩

/-- A store of an entry keeps the memory clauses; in X and W it must be no NaN but CNAN. -/
theorem MemOk.writeWord {m : Memory} (h : MemOk m) {a : Nat} {v : Word} (ha : isEntry a)
    (hv : a < 0x10000 → F64.canon v = v) : MemOk (m.writeWord a v) where
  wf := Memory.wf_writeWord h.wf _ _
  mapped b hb := by
    rcases readByte_writeWord_isSome.1 hb with hb | hb
    · exact isEntry_inStorage ha hb.1 hb.2
    · exact h.mapped b hb
  whole b hb j hj := by
    refine readByte_writeWord_isSome.2 ?_
    have := ha.1
    rcases readByte_writeWord_isSome.1 hb with hb | hb
    · left; omega
    · right; exact h.whole b hb j hj
  canon := by
    have key : ∀ b w, b % 8 = 0 → b < 0x10000 → (m.readWord b = some w → F64.canon w = w) →
        (m.writeWord a v).readWord b = some w → F64.canon w = w := by
      intro b w hb8 hb hm hr
      by_cases e : b = a
      · subst e
        rw [Memory.readWord_writeWord, Option.some.injEq] at hr
        subst hr
        exact hv hb
      · have := ha.1
        rw [Memory.readWord_writeWord_other v (by omega)] at hr
        exact hm hr
    refine ⟨fun i w hi hr => ?_, fun l i w hl hi hr => ?_⟩
    · refine key _ _ ?_ ?_ (h.canon.1 i w hi) hr
      · unfold xAddr; omega
      · unfold xAddr Config.tableW at *; omega
    · refine key _ _ ?_ ?_ (h.canon.2 l i w hl hi) hr
      · unfold wAddr; omega
      · unfold wAddr Config.tableW Config.levels at *; omega

theorem MemOk.zeroTables {m : Memory} (h : MemOk m) : MemOk (zeroTables m) where
  wf := wf_zeroTables h.wf
  mapped b hb := by
    rw [readByte_zeroTables] at hb
    split at hb
    · rename_i h'
      unfold inStorage Config.nMax
      simp only [Bool.or_eq_true, Bool.and_eq_true, decide_eq_true_eq]
      omega
    · exact h.mapped b hb
  whole b hb j hj := by
    rw [readByte_zeroTables] at hb ⊢
    split
    · rfl
    · rename_i h'
      refine h.whole b ?_ j hj
      rw [if_neg (by omega)] at hb
      exact hb
  canon := by
    refine ⟨fun i w hi hr => ?_, fun l i w hl hi hr => ?_⟩
    · rw [readWord_zeroTables_x m hi, Option.some.injEq] at hr
      subst hr; exact F64.canon_zero
    · rw [readWord_zeroTables_w m hl hi, Option.some.injEq] at hr
      subst hr; exact F64.canon_zero

theorem MemOk.nil : MemOk [] where
  wf := Memory.wf_nil
  mapped b hb := by simp [Memory.readByte_eq] at hb
  whole b hb := by simp [Memory.readByte_eq] at hb
  canon := by
    have : ∀ a, Memory.readWord [] a = none := by
      intro a
      by_contra h
      have := Memory.isSome_readWord.1 (Option.isSome_iff_ne_none.2 h) 0 (by omega)
      simp [Memory.readByte_eq] at this
    exact ⟨fun i w _ hr => by simp [this] at hr, fun l i w _ _ hr => by simp [this] at hr⟩

theorem tablesWritten_zeroTables (m : Memory) : tablesWritten (zeroTables m) :=
  ⟨fun i hi => by unfold written; rw [readWord_zeroTables_x m hi]; rfl,
   fun l i hl hi => by unfold written; rw [readWord_zeroTables_w m hl hi]; rfl⟩

/-! The words the engine writes are no NaN but CNAN (00 R14). -/

theorem canon_coefficient (r : Regime) (w : Word) : F64.canon (coefficient r w) = coefficient r w := by
  cases r
  · exact F64.canon_neg _
  · exact F64.canon_mul _ _
  · exact F64.canon_mul _ _

/-- Each component of an iterated recursion state is canonical, given prev1 was (40 R136-R138). -/
theorem canon_iterate (reg : Regime) (b x : Word) (r : Recursion) (h : F64.canon r.p1 = r.p1) :
    F64.canon (iterate reg b x r).acc = (iterate reg b x r).acc ∧
    F64.canon (iterate reg b x r).p1 = (iterate reg b x r).p1 ∧
    F64.canon (iterate reg b x r).p2 = (iterate reg b x r).p2 := by
  cases reg
  · exact ⟨F64.canon_add _ _, F64.canon_add _ _, h⟩
  · exact ⟨F64.canon_sub _ _, F64.canon_sub _ _, h⟩
  · exact ⟨F64.canon_sub _ _, F64.canon_sub _ _, h⟩

/-! Levels (41 R162). -/

theorem halfPoints_le {l : Nat} (h : l ≤ 7) : halfPoints l ≤ 256 := by
  have : l = 0 ∨ l = 1 ∨ l = 2 ∨ l = 3 ∨ l = 4 ∨ l = 5 ∨ l = 6 ∨ l = 7 := by omega
  rcases this with rfl | rfl | rfl | rfl | rfl | rfl | rfl | rfl <;> decide

theorem selected_eq {k : BitVec 32} : selected k = true ↔ k = 1 ∨ k = 2 := by
  simp [selected]

theorem tkindOf_ne_three (k : BitVec 32) : tkindOf k ≠ 3 := by
  unfold tkindOf
  split
  · rename_i h
    rcases selected_eq.1 h with rfl | rfl <;> decide
  · decide

theorem tkindOf_unselected {k : BitVec 32} (h : selected k = false) : tkindOf k = 0 := by
  simp [tkindOf, h]

theorem code_ne_three (r : Regime) : r.code ≠ 3 := by cases r <;> decide

/-! The actions. -/

theorem low32_low32 (v : Word) : low32 (low32 v) = low32 v := by
  unfold low32
  apply BitVec.eq_of_toNat_eq
  simp [BitVec.extractLsb'_toNat]

theorem low3_low3 (v : Word) : low3 (low3 v) = low3 v := by
  unfold low3
  apply BitVec.eq_of_toNat_eq
  simp [BitVec.extractLsb'_toNat]

/-- The pin, the host, the schedule and the host's last response are none of MT-CORE's own state. -/
theorem inv_environment {s : State} (h : s.Inv) (hr : s.rstN = true) (ops : List HostOp) (ts : List Turn)
    (r : Option Response) (ns : List (String × Word)) (n : Nat) :
    ({ s with host := ops, turns := ts, lastRsp := r, names := ns, draws := n } : State).Inv :=
  { h with inReset := fun h' => by simp [hr] at h' }

theorem respond_inv {s : State} (h : s.Inv) (hr : s.rstN = true) (v : Word) : (respond v s).Inv :=
  inv_environment h hr s.host s.turns _ s.names s.draws

theorem bindName_inv {s : State} (h : s.Inv) (hr : s.rstN = true) (name : String) : (bindName name s).Inv :=
  inv_environment h hr s.host s.turns s.lastRsp _ s.draws

theorem anyValue_inv {s : State} (h : s.Inv) (hr : s.rstN = true) : (anyValue s).2.Inv :=
  inv_environment h hr s.host s.turns s.lastRsp s.names _

theorem readEntry_inv {s : State} (h : s.Inv) (hr : s.rstN = true) (a : Nat) : (readEntry a s).2.Inv := by
  obtain ⟨n, e⟩ := readEntry_snd a s
  rw [e]
  exact inv_environment h hr s.host s.turns s.lastRsp s.names n

theorem busError_inv {s : State} (h : s.Inv) (hr : s.rstN = true) : (busError s).Inv :=
  { h with inReset := fun h' => by simp [hr] at h' }

theorem dropCommand_inv {s : State} (h : s.Inv) (hr : s.rstN = true) : (dropCommand s).Inv :=
  { h with inReset := fun h' => by simp [hr] at h' }

/-- A rejection happens only while BUSY = 0 (60 R202), with a code from 1 to 5. -/
theorem reject_inv {s : State} (h : s.Inv) (hr : s.rstN = true) (hb : s.status.busy = false) {c : BitVec 4}
    (hc : c ≠ 0) (hc5 : c.toNat ≤ 5) : (reject c s).Inv :=
  { h with
    busyClean := fun h' => by simp [hb] at h'
    errCode := by simpa using hc
    errRange := hc5
    inReset := fun h' => by simp [hr] at h' }

theorem idle_of_not_busy {s : State} (h : s.Inv) (hb : s.status.busy = false) : s.seq = .idle := by
  by_contra hc
  have := h.busySeq.2 hc
  simp [hb] at this

theorem rejectEval_inv {s : State} (h : s.Inv) (hr : s.rstN = true) (hb : s.status.busy = false) {c : BitVec 4}
    (hc : c ≠ 0) (hc5 : c.toNat ≤ 5) : (rejectEval c s).Inv :=
  { h with
    busyClean := fun h' => by simp [hb] at h'
    errCode := by simpa using hc
    errRange := hc5
    rvRegime := fun h' => by simp at h'
    evalPhase := fun h' => by simp [idle_of_not_busy h hb, Seq.isEval] at h'
    inReset := fun h' => by simp [hr] at h' }

theorem unlessBusy_inv {run : State → State} {s : State} (h : s.Inv) (hr : s.rstN = true)
    (hrun : s.status.busy = false → (run s).Inv) : (unlessBusy run s).Inv := by
  cases hb : s.status.busy
  · rw [unlessBusy_idle hb]; exact hrun hb
  · rw [unlessBusy_busy hb]; exact dropCommand_inv h hr

theorem acceptNop_inv {s : State} (h : s.Inv) (hr : s.rstN = true) (hb : s.status.busy = false) :
    ({ s with status := s.status.acceptNop } : State).Inv :=
  { h with
    busyClean := fun h' => by simp [hb] at h'
    errCode := by simp
    errRange := by simp
    inReset := fun h' => by simp [hr] at h' }

theorem acceptEval_inv {s : State} (h : s.Inv) (hr : s.rstN = true) {n : Nat} (w : Word) (h1 : 1 ≤ n)
    (h2 : n ≤ Config.nMax) : (acceptEval n w s).Inv :=
  { h with
    busySeq := by simp [acceptEval]
    seqOk := by simp only [seqInRange, acceptEval]; omega
    busyClean := fun _ => by simp [acceptEval]
    errCode := by simp [acceptEval]
    errRange := by simp [acceptEval]
    rvRegime := fun h' => by simp [acceptEval] at h'
    evalPhase := fun _ => by simp [acceptEval]
    genPhase := fun h' => by simp [acceptEval, Seq.isGen] at h'
    canonRegs := ⟨h.canonRegs.1, h.canonRegs.2.1, F64.canon_zero, F64.canon_zero, F64.canon_zero,
      canon_coefficient _ _⟩
    genWritten := fun h' => h.genWritten (by
      rcases h' with h' | h'
      · exact .inl h'
      · simp [acceptEval, Seq.isGen] at h')
    inReset := fun h' => by simp [acceptEval, hr] at h' }

theorem evalCommand_inv {s : State} (h : s.Inv) (hr : s.rstN = true) (hb : s.status.busy = false) :
    (evalCommand s).Inv := by
  unfold evalCommand
  split
  · exact rejectEval_inv h hr hb (by decide) (by decide)
  split
  · exact rejectEval_inv h hr hb (by decide) (by decide)
  split
  · exact rejectEval_inv h hr hb (by decide) (by decide)
  · exact acceptEval_inv h hr _ (by omega) (by omega)

theorem acceptGen_inv {s : State} (h : s.Inv) (hr : s.rstN = true) : (acceptGen s).Inv :=
  { h with
    memWf := h.memOk.zeroTables.wf
    memMapped := h.memOk.zeroTables.mapped_mem
    memWhole := h.memOk.zeroTables.whole_mem
    busySeq := by simp [acceptGen]
    seqOk := by simp [seqInRange, acceptGen]
    busyClean := fun _ => by simp [acceptGen]
    errCode := by simp [acceptGen]
    errRange := by simp [acceptGen]
    tkindOk := ⟨tkindOf_ne_three _, fun h' => tkindOf_unselected (by simpa [acceptGen] using h')⟩
    evalPhase := fun h' => by simp [acceptGen, Seq.isEval] at h'
    genPhase := fun _ => by simp [acceptGen]
    canonTables := h.memOk.zeroTables.canon
    genWritten := fun _ => tablesWritten_zeroTables _
    inReset := fun h' => by simp [acceptGen, hr] at h' }

theorem evalIter_inv {s : State} (h : s.Inv) (hr : s.rstN = true) {k : Nat} (hk : s.seq = .evalIt k) :
    (evalIter k s).Inv := by
  obtain ⟨n, e⟩ := readEntry_snd (sAddr (s.eN - k)) s
  have hq := h.seqOk
  simp only [seqInRange, hk] at hq
  have hcan := canon_iterate s.eReg s.dbgB (readEntry (sAddr (s.eN - k)) s).1 (recursionOf s) h.canonRegs.2.2.2.1
  have e' : evalIter k s = { s with
      draws := n
      dbgAcc := (iterate s.eReg s.dbgB (readEntry (sAddr (s.eN - k)) s).1 (recursionOf s)).acc
      dbgP1 := (iterate s.eReg s.dbgB (readEntry (sAddr (s.eN - k)) s).1 (recursionOf s)).p1
      dbgP2 := (iterate s.eReg s.dbgB (readEntry (sAddr (s.eN - k)) s).1 (recursionOf s)).p2
      seq := nextEval s.eN k } := by
    unfold evalIter
    simp only [e]
    rfl
  have hne : s.seq ≠ .idle := by simp [hk]
  have hph := h.evalPhase (by simp [hk, Seq.isEval])
  rw [e']
  exact
    { h with
      busySeq := by
        refine ⟨fun _ => ?_, fun _ => h.busySeq.2 hne⟩
        simp only [nextEval]; split <;> simp
      seqOk := by
        simp only [seqInRange, nextEval]
        split <;> rename_i x heq <;> split at heq <;> simp at heq
        · subst heq; exact ⟨by omega, by omega, hq.2.2⟩
        · exact ⟨by omega, hq.2.2⟩
      evalPhase := fun _ => hph
      genPhase := fun h' => by simp only [nextEval] at h'; split at h' <;> simp [Seq.isGen] at h'
      canonRegs := ⟨h.canonRegs.1, h.canonRegs.2.1, hcan.1, hcan.2.1, hcan.2.2, h.canonRegs.2.2.2.2.2⟩
      genWritten := fun h' => h.genWritten (by
        rcases h' with h' | h'
        · exact .inl h'
        · simp only [nextEval] at h'; split at h' <;> simp [Seq.isGen] at h')
      inReset := fun h' => by simp [hr] at h' }

theorem evalFinal_inv {s : State} (h : s.Inv) (hr : s.rstN = true) (hk : s.seq = .evalFin) :
    (evalFinal s).Inv := by
  have hph := h.evalPhase (by simp [hk, Seq.isEval])
  have hcl := h.busyClean (h.busySeq.2 (by simp [hk]))
  exact
    { h with
      busySeq := by simp [evalFinal]
      seqOk := by simp [seqInRange, evalFinal]
      busyClean := fun h' => by simp [evalFinal] at h'
      rvRegime := fun _ => by
        have : (evalFinal s).status.regime = s.eReg.code := hph.2
        rw [this]; exact code_ne_three _
      evalPhase := fun h' => by simp [evalFinal, Seq.isEval] at h'
      genPhase := fun h' => by simp [evalFinal, Seq.isGen] at h'
      canonRegs := ⟨F64.canon_sub _ _, F64.canon_mul _ _, h.canonRegs.2.2⟩
      genWritten := fun h' => h.genWritten (by
        rcases h' with h' | h'
        · exact .inl h'
        · simp [evalFinal, Seq.isGen] at h')
      inReset := fun h' => by simp [evalFinal, hr] at h' }

/-- A grid point changes memory and SEQ only, and stores only in X[i] and W[l][i] (41 R163). -/
theorem genPoint_eq (l i : Nat) (s : State) : genPoint l i s = { s with
    mem := (pointWrites l i s).mem
    seq := nextPoint l i } := by
  unfold genPoint pointWrites
  split
  · rfl
  · split <;> rfl

theorem pointWrites_mem (l i : Nat) (s : State) :
    (pointWrites l i s).mem = s.mem ∨ ∃ x w, F64.canon x = x ∧ F64.canon w = w ∧
      (pointWrites l i s).mem = (s.mem.writeWord (xAddr i) x).writeWord (wAddr l i) w := by
  unfold pointWrites
  split
  · exact .inr ⟨_, _, F64.canon_mul _ _, F64.canon_div _ _, rfl⟩
  · split
    · exact .inr ⟨_, _, F64.canon_mul _ _, F64.canon_div _ _, rfl⟩
    · exact .inl rfl

theorem genPoint_inv {s : State} (h : s.Inv) (hr : s.rstN = true) {l i : Nat} (hk : s.seq = .genPt l i) :
    (genPoint l i s).Inv := by
  have hq := h.seqOk
  simp only [seqInRange, hk] at hq
  have hh := halfPoints_le hq.1
  have hgen : s.seq.isGen = true := by simp [hk, Seq.isGen]
  have hph := h.genPhase hgen
  have hw := h.genWritten (.inr hgen)
  have hmem : MemOk (pointWrites l i s).mem ∧ tablesWritten (pointWrites l i s).mem := by
    rcases pointWrites_mem l i s with e | ⟨x, w, hx, hw', e⟩
    · rw [e]; exact ⟨h.memOk, hw⟩
    · rw [e]
      refine ⟨(h.memOk.writeWord (isEntry_x (by unfold Config.tableW; omega)) fun _ => hx).writeWord
        (isEntry_w (by unfold Config.levels; omega) (by unfold Config.tableW; omega)) fun _ => hw', ?_⟩
      exact tablesWritten_writeWord (tablesWritten_writeWord hw)
  rw [genPoint_eq]
  exact
    { h with
      memWf := hmem.1.wf
      memMapped := hmem.1.mapped_mem
      memWhole := hmem.1.whole_mem
      busySeq := by
        refine ⟨fun _ => ?_, fun _ => h.busySeq.2 (by simp [hk])⟩
        simp only [nextPoint]; split <;> (try split) <;> simp
      seqOk := by
        simp only [seqInRange, nextPoint]
        split <;> rename_i heq <;> split at heq <;> (try split at heq) <;> simp at heq
        · obtain ⟨rfl, rfl⟩ := heq; exact ⟨hq.1, by omega⟩
        · obtain ⟨rfl, rfl⟩ := heq; exact ⟨by omega, Nat.zero_le _⟩
        · trivial
      evalPhase := fun h' => by
        simp only [nextPoint] at h'; split at h' <;> (try split at h') <;> simp [Seq.isEval] at h'
      genPhase := fun _ => hph
      canonTables := hmem.1.canon
      genWritten := fun _ => hmem.2
      inReset := fun h' => by simp [hr] at h' }

theorem genFinal_inv {s : State} (h : s.Inv) (hr : s.rstN = true) (hk : s.seq = .genFin) :
    (genFinal s).Inv := by
  have hgen : s.seq.isGen = true := by simp [hk, Seq.isGen]
  have hcl := h.busyClean (h.busySeq.2 (by simp [hk]))
  exact
    { h with
      busySeq := by simp [genFinal]
      seqOk := by simp [seqInRange, genFinal]
      busyClean := fun h' => by simp [genFinal] at h'
      evalPhase := fun h' => by simp [genFinal, Seq.isEval] at h'
      genPhase := fun h' => by simp [genFinal, Seq.isGen] at h'
      genWritten := fun _ => h.genWritten (.inr hgen)
      inReset := fun h' => by simp [genFinal, hr] at h' }

theorem engineStep_inv {s : State} (h : s.Inv) (hr : s.rstN = true) : (engineStep s).Inv := by
  unfold engineStep
  split
  · exact h
  · exact evalIter_inv h hr ‹_›
  · exact evalFinal_inv h hr ‹_›
  · exact genPoint_inv h hr ‹_›
  · exact genFinal_inv h hr ‹_›

theorem w1c_inv {s : State} (h : s.Inv) (hr : s.rstN = true) (v : Word) :
    ({ s with status := s.status.w1c v } : State).Inv :=
  { h with
    busyClean := fun h' => by
      have := h.busyClean h'
      simp [this.1, this.2]
    errCode := by
      have := h.errCode
      simp only [Status.w1c_err, Status.w1c_errcode]
      cases v.getLsbD 2
      · simpa using this
      · simp
    errRange := by
      have := h.errRange
      simp only [Status.w1c_errcode]
      split
      · simp
      · exact this
    inReset := fun h' => by simp [hr] at h' }

theorem writeS_inv {s : State} (h : s.Inv) (hr : s.rstN = true) {j : Nat} (hj : j < Config.nMax) (v : Word) :
    (writeS j v s).Inv := by
  have hm := h.memOk.writeWord (v := v) (isEntry_s hj) (by intro h'; unfold sAddr at h'; omega)
  exact
    { h with
      memWf := hm.wf
      memMapped := hm.mapped_mem
      memWhole := hm.whole_mem
      canonTables := hm.canon
      genWritten := fun h' => tablesWritten_writeWord (h.genWritten h')
      inReset := fun h' => by simp [writeS, hr] at h' }

/-- The reset effect gives the invariant from any state (10 R65). -/
theorem resetCore_inv (s : State) (b : Bool) : ({ resetCore s with rstN := b } : State).Inv where
  memWf := Memory.wf_nil
  memMapped c hc := by simp [State.reset] at hc
  memWhole c hc := by simp [State.reset] at hc
  busySeq := by simp [State.reset, Status.reset]
  seqOk := by simp [seqInRange, State.reset]
  busyClean := by simp [State.reset, Status.reset]
  errCode := by simp [State.reset, Status.reset]
  errRange := by simp [State.reset, Status.reset]
  tkindOk := by simp [State.reset, Status.reset]
  rvRegime := by simp [State.reset, Status.reset]
  evalPhase := by simp [State.reset, Seq.isEval]
  genPhase := by simp [State.reset, Seq.isGen]
  reserved := by simp only [resetCore_ie, resetCore_len, resetCore_kind]; decide
  canonRegs := by
    simp only [resetCore_cosOut, resetCore_sinOut, resetCore_dbgAcc, resetCore_dbgP1, resetCore_dbgP2, resetCore_dbgB]
    decide
  canonTables := MemOk.nil.canon
  genWritten := by simp [State.reset, Status.reset, Seq.isGen]
  inReset := fun _ => rfl

end Sys2Proof.Machine
end

