-- ==== Sys2Proof/Laws/Bus.lean ====
section
/-! SUPPORT. What a transaction and a step can answer. -/

namespace Sys2Proof.Machine

/-- Every command answers a next state; its effect as a function of the state (30 R117). -/
def effect (i : Instr) : State → State :=
  match i with
  | .nop => unlessBusy (fun s => { s with status := s.status.acceptNop })
  | .eval => unlessBusy evalCommand
  | .gen => unlessBusy acceptGen
  | .srst => resetCore

theorem exec_eq (i : Instr) (s : State) : exec i s = .next (effect i s) := by cases i <;> rfl

theorem effect_inv {s : State} (h : s.Inv) (hr : s.rstN = true) (i : Instr) : (effect i s).Inv := by
  cases i
  · exact unlessBusy_inv (run := fun s => { s with status := s.status.acceptNop }) h hr (acceptNop_inv h hr)
  · exact unlessBusy_inv h hr (evalCommand_inv h hr)
  · exact unlessBusy_inv h hr (fun _ => acceptGen_inv h hr)
  · have := resetCore_inv s true
    simp only [effect]
    have e : resetCore s = { resetCore s with rstN := true } := by
      have : (resetCore s).rstN = true := hr
      rw [← this]
    rw [e]; exact this

/-- `issue` answers a next state: a command's effect, or that of a reserved word (30 R117). -/
theorem issue_cases (c : Word) (s : State) :
    (∃ i, decode c = .ok i ∧ issue c s = .next (effect i s)) ∨
      (∃ r, decode c = .error r ∧ issue c s = .next (issueReserved r s)) := by
  unfold issue
  cases h : decode c with
  | ok i => exact .inl ⟨i, rfl, exec_eq i s⟩
  | error r => exact .inr ⟨r, rfl, rfl⟩

theorem issueReserved_inv {s : State} (h : s.Inv) (hr : s.rstN = true) (r : Reserved) : (issueReserved r s).Inv :=
  unlessBusy_inv h hr fun hb => reject_inv h hr hb (by cases r <;> decide) (by cases r <;> decide)

theorem issue_inv {s t : State} (h : s.Inv) (hr : s.rstN = true) {c : Word} (e : issue c s = .next t) : t.Inv := by
  rcases issue_cases c s with ⟨i, -, hi⟩ | ⟨r, -, hi⟩ <;> rw [hi] at e <;> injection e with e <;> subst e
  · exact effect_inv h hr i
  · exact issueReserved_inv h hr r

/-- A register or entry read changes at most the count of draws (20 R92, R97, R98). -/
theorem readRegion_snd (r : Region) (s : State) : ∃ n, (readRegion r s).2 = { s with draws := n } := by
  have keep : ∃ n, s = { s with draws := n } := ⟨s.draws, rfl⟩
  have draw : ∃ n, (anyValue s).2 = { s with draws := n } := ⟨_, rfl⟩
  unfold readRegion
  split
  · unfold readReg; split
    · exact draw
    · exact keep
  · unfold readTable; split
    · exact draw
    · exact readEntry_snd _ _
  · unfold readTable; split
    · exact draw
    · exact readEntry_snd _ _
  · exact readEntry_snd _ _
  · exact keep

/-- A host read changes only the response and the count of draws, or is an error response (20 R90, R92). -/
theorem hostRead_cases (a : Offset) (s : State) :
    (misaligned a = true ∧ hostRead a s = busError s) ∨
      (misaligned a = false ∧ ∃ v n, v = (readRegion (region a) s).1 ∧
        hostRead a s = respond v { s with draws := n }) := by
  unfold hostRead
  cases h : misaligned a
  · obtain ⟨n, e⟩ := readRegion_snd (region a) s
    exact .inr ⟨rfl, _, n, rfl, by simp [e]⟩
  · exact .inl ⟨rfl, rfl⟩

theorem hostRead_inv {s : State} (h : s.Inv) (hr : s.rstN = true) (a : Offset) : (hostRead a s).Inv := by
  rcases hostRead_cases a s with ⟨-, e⟩ | ⟨-, v, n, -, e⟩ <;> rw [e]
  · exact busError_inv h hr
  · exact inv_environment h hr s.host s.turns _ s.names n

theorem region_s_range {a : Offset} {j : Nat} (h : region a = .s j) : j < Config.nMax := by
  unfold region at h
  simp only at h
  split at h
  · split at h <;> simp at h
  split at h
  · simp at h
  split at h
  · simp at h
  split at h
  · split at h <;> simp at h
  split at h
  · split at h <;> simp at h
    · omega
  · simp at h

theorem inputWrite_inv {store : State → State} {s : State} (h : s.Inv) (hr : s.rstN = true)
    (hs : (store s).Inv) : (inputWrite store s).Inv := by
  cases hb : s.status.busy
  · rw [inputWrite_idle hb]; exact hs
  · rw [inputWrite_busy hb]; exact { h with inReset := fun h' => by simp [hr] at h' }

/-- A host write answers a next state, and keeps the invariant (20 R91). -/
theorem hostWrite_next (a : Offset) (v : Word) (strb : BitVec 8) (s : State) :
    ∃ t, hostWrite a v strb s = .next t := by
  unfold hostWrite
  split
  · exact ⟨_, rfl⟩
  split
  · exact ⟨_, rfl⟩
  unfold writeRegion
  split <;> try exact ⟨_, rfl⟩
  unfold writeReg
  split <;> try exact ⟨_, rfl⟩
  rcases issue_cases v (respond 0 s) with ⟨i, -, e⟩ | ⟨r, -, e⟩ <;> exact ⟨_, e⟩

theorem hostWrite_inv {s t : State} (h : s.Inv) (hr : s.rstN = true) {a : Offset} {v : Word} {strb : BitVec 8}
    (e : hostWrite a v strb s = .next t) : t.Inv := by
  have resp : ∀ u : State, u.Inv → u.rstN = true → (respond 0 u).Inv := fun u hu hur => respond_inv hu hur 0
  have rst : ∀ store : State → State, (store s).rstN = true → (inputWrite store s).rstN = true := by
    intro store hs
    unfold inputWrite
    split
    · exact hr
    · exact hs
  unfold hostWrite at e
  split at e
  · injection e with e; subst e; exact busError_inv h hr
  split at e
  · injection e with e; subst e; exact busError_inv h hr
  unfold writeRegion at e
  split at e
  · unfold writeReg at e
    split at e
    all_goals first
      | (injection e with e; subst e; exact busError_inv h hr)
      | (exact issue_inv (resp s h hr) hr e)
      | skip
    · injection e with e; subst e; exact resp _ (w1c_inv h hr v) hr
    · injection e with e; subst e
      exact resp _ { h with
        reserved := ⟨low3_low3 v, h.reserved.2⟩, inReset := fun h' => by simp [hr] at h' } hr
    · injection e with e; subst e
      exact resp _ (inputWrite_inv h hr { h with inReset := fun h' => by simp [hr] at h' }) (rst _ hr)
    · injection e with e; subst e
      exact resp _ (inputWrite_inv h hr { h with
        reserved := ⟨h.reserved.1, low32_low32 v, h.reserved.2.2⟩, inReset := fun h' => by simp [hr] at h' })
        (rst _ hr)
    · injection e with e; subst e
      exact resp _ (inputWrite_inv h hr { h with
        reserved := ⟨h.reserved.1, h.reserved.2.1, low32_low32 v⟩, inReset := fun h' => by simp [hr] at h' })
        (rst _ hr)
  · injection e with e; subst e; exact busError_inv h hr
  · injection e with e; subst e; exact busError_inv h hr
  · rename_i j hj
    injection e with e; subst e
    exact resp _ (inputWrite_inv h hr (writeS_inv h hr (region_s_range hj) v)) (rst _ hr)
  · injection e with e; subst e; exact resp _ h hr

/-- A transaction's effect on the pin, the host and the schedule: none of its own. -/
theorem hostRead_env (a : Offset) (s : State) :
    (hostRead a s).rstN = s.rstN ∧ (hostRead a s).host = s.host ∧ (hostRead a s).turns = s.turns := by
  rcases hostRead_cases a s with ⟨-, e⟩ | ⟨-, v, n, -, e⟩ <;> rw [e] <;> exact ⟨rfl, rfl, rfl⟩

end Sys2Proof.Machine
end

