-- ==== Sys2Proof/Laws/PerInstr.lean ====
section
/-! SUPPORT. Families of statements made once per command: the word of a command decodes to it, as a word and as bytes. -/

namespace Sys2Proof.Laws.RoundTrip

/-- The command's word decodes to the command, numbered as the opcode table numbers it too, and only that word does. -/
def Statement (i : Instr) : Prop :=
  i.wellFormed = true ∧ decode (encode i) = .ok i ∧
    decodeBytes (Machine.wordBytes (encode i)) = .ok i ∧ decodeTableWord 64 (encode i).toNat = some i

theorem nop : Statement .nop := by unfold Statement; decide

theorem eval : Statement .eval := by unfold Statement; decide

theorem gen : Statement .gen := by unfold Statement; decide

theorem srst : Statement .srst := by unfold Statement; decide

end Sys2Proof.Laws.RoundTrip
end

