-- ==== Sys2Proof/Laws/Step.lean ====
section
/-! SUPPORT. What one step can do, said once: the cases of a step that is no reset, and its form at each agent's turn. -/

namespace Sys2Proof.Machine

/-- At the host's turn the step is the host's transaction, the turn taken off the schedule. -/
theorem nextIsHost_step {s : State} (h : nextIsHost s) : step s = hostTurn { s with turns := s.turns.tail } := by
  obtain ⟨hr, ht⟩ := h
  unfold nextTurn at ht; unfold step
  cases e : s.turns with
  | nil => simp only [e] at ht; rw [ht]; simp only [takeTurn, hr, if_true]; cases s; simp_all
  | cons a b => simp only [e] at ht; subst ht; simp [takeTurn, hr]

/-- At the engine's turn the step is the engine's, the turn taken off the schedule. -/
theorem nextIsEngine_step {s : State} (h : nextIsEngine s) :
    step s = .next (engineStep { s with turns := s.turns.tail }) := by
  obtain ⟨hr, ht⟩ := h
  unfold nextTurn at ht; unfold step
  cases e : s.turns with
  | nil => simp only [e] at ht; rw [ht]; simp only [takeTurn, hr, if_true]; cases s; simp_all
  | cons a b => simp only [e] at ht; subst ht; simp [takeTurn, hr]

/-! Which offsets a region stands at. -/

theorem region_eq_reg {a : Offset} {r : Reg} (h : region a = .reg r) : a = regOffset r := by
  unfold region at h
  simp only at h
  split at h
  · split at h
    · rename_i r' hr
      cases h
      have := List.find?_some hr
      simpa using (by simpa using this : regOffset r = a).symm
    · cases h
  split at h
  · cases h
  split at h
  · cases h
  split at h
  · split at h <;> cases h
  split at h
  · split at h <;> cases h
  · cases h

theorem region_eq_s {a : Offset} {j : Nat} (h : region a = .s j) (h8 : a.toNat % 8 = 0) :
    a.toNat = 0x10000 + 8 * j ∧ j < 4096 := by
  unfold region at h
  simp only at h
  have := a.isLt
  split at h
  · split at h <;> cases h
  split at h
  · cases h
  split at h
  · cases h
  split at h
  · split at h <;> cases h
  split at h
  · split at h
    · cases h; unfold Config.nMax at *; omega
    · cases h
  · cases h

theorem region_table_readOnly {a : Offset} (h8 : a.toNat % 8 = 0)
    (h : (∃ i, region a = .x i) ∨ ∃ l i, region a = .w l i) : readOnlyOffset a.toNat := by
  unfold region at h
  simp only at h
  unfold readOnlyOffset
  split at h
  · split at h <;> simp at h
  split at h
  · omega
  split at h
  · simp at h
  split at h
  · split at h
    · omega
    · simp at h
  split at h
  · split at h <;> simp at h
  · simp at h

/-- MT-CORE's own state is the same in both: only the pin, the schedule and the host's side may differ. -/
def SameCore (s t : State) : Prop :=
  t = { s with
    rstN := t.rstN, turns := t.turns, host := t.host, lastRsp := t.lastRsp, names := t.names, draws := t.draws }

theorem SameCore.status {s u : State} (h : SameCore s u) : u.status = s.status := by rw [h]

/-- What a step that is no reset does, and what the machine was asked when it does it. -/
inductive StepCase (s t : State) : Prop
  /-- Nothing of MT-CORE's changes: a read, a reserved offset, an idle turn, the pin going high. -/
  | host (h : SameCore s t)
  /-- An error response (60 R205). -/
  | error (h : nextIsHost s) (he : errorAtHead s) (e : t.status = s.status.busError)
      (hu : SameCore s { t with status := s.status })
  /-- An engine step. -/
  | engine (h : nextIsEngine s) (e : t = engineStep { s with turns := s.turns.tail })
  | status (v : Word) (h : nextWrites s 0x18 v) (u : State) (e : t = { u with status := u.status.w1c v })
      (hu : SameCore s u)
  | ie (v : Word) (h : nextWrites s 0x20 v) (u : State) (e : t = { u with ie := low3 v }) (hu : SameCore s u)
  | omega (v : Word) (h : nextWrites s 0x28 v) (hb : s.status.busy = false) (u : State) (e : t = { u with omega := v })
      (hu : SameCore s u)
  | len (v : Word) (h : nextWrites s 0x30 v) (hb : s.status.busy = false) (u : State)
      (e : t = { u with len := low32 v }) (hu : SameCore s u)
  | kind (v : Word) (h : nextWrites s 0x38 v) (hb : s.status.busy = false) (u : State)
      (e : t = { u with kind := low32 v }) (hu : SameCore s u)
  | sample (v : Word) (j : Nat) (hj : j < 4096) (h : nextWrites s (0x10000 + 8 * j) v) (hb : s.status.busy = false)
      (u : State) (e : t = writeS j v u) (hu : SameCore s u)
  /-- An input write dropped while busy (20 R96). -/
  | dropWrite (a : Nat) (v : Word) (h : nextWrites s a v)
      (ha : a = 0x28 ∨ a = 0x30 ∨ a = 0x38 ∨ (0x10000 ≤ a ∧ a < 0x18000)) (hb : s.status.busy = true) (u : State)
      (e : t = { u with status := u.status.dropWrite }) (hu : SameCore s u)
  /-- A command word dropped while busy (42 R193). -/
  | dropCommand (v : Word) (h : nextWrites s 0x10 v) (hb : s.status.busy = true) (u : State) (e : t = dropCommand u)
      (hu : SameCore s u)
  /-- A reserved word rejected while idle (42 R192). -/
  | reserved (v : Word) (r : Reserved) (hd : decode v = .error r) (h : nextWrites s 0x10 v)
      (hb : s.status.busy = false) (u : State) (e : t = reject r.code u) (hu : SameCore s u)
  | nop (h : nextWrites s 0x10 0x0) (hb : s.status.busy = false) (u : State)
      (e : t = { u with status := u.status.acceptNop }) (hu : SameCore s u)
  | eval (h : nextWrites s 0x10 0x1) (hb : s.status.busy = false) (u : State) (e : t = evalCommand u)
      (hu : SameCore s u)
  | gen (h : nextWrites s 0x10 0x2) (hb : s.status.busy = false) (u : State) (e : t = acceptGen u)
      (hu : SameCore s u)

/-- A command word written to CMD, SRST apart, is one of the cases. -/
theorem issue_stepCase {s t u : State} {v : Word} (hr : ¬ nextResets s) (h : nextWrites s 0x10 v) (hu : SameCore s u)
    (e : issue v u = .next t) : StepCase s t := by
  have byBusy : ∀ run : State → State, unlessBusy run u = t →
      (s.status.busy = false → t = run u → StepCase s t) → StepCase s t := by
    intro run e k
    cases hb : s.status.busy with
    | true =>
      rw [unlessBusy_busy (by rw [hu.status]; exact hb)] at e
      exact .dropCommand v h hb u e.symm hu
    | false =>
      rw [unlessBusy_idle (by rw [hu.status]; exact hb)] at e
      exact k hb e.symm
  rcases issue_cases v u with ⟨i, hd, hi⟩ | ⟨r, hd, hi⟩ <;> rw [hi] at e <;> injection e with e
  · have hv : v = encode i := by
      rcases decode_cases v with ⟨-, d⟩ | ⟨h0, j, hj, d⟩ | ⟨-, -, d⟩ <;> rw [d] at hd <;> cases hd
      exact word_ext (by rw [h0]; cases i <;> decide) (by rw [hj]; cases i <;> decide)
    subst hv
    cases i
    · exact byBusy (fun s => { s with status := s.status.acceptNop }) e fun hb e => .nop h hb u e hu
    · exact byBusy evalCommand e fun hb e => .eval h hb u e hu
    · exact byBusy acceptGen e fun hb e => .gen h hb u e hu
    · exact absurd (Or.inr h) hr
  · exact byBusy _ e fun hb e => .reserved v r hd h hb u e hu

/-- A write is one of the cases. -/
theorem hostWrite_stepCase {s t u : State} {a : Offset} {v : Word} {strb : BitVec 8} {rest : List HostOp}
    (hr : ¬ nextResets s) (hH : nextIsHost s) (hh : s.host = .write a v strb :: rest) (hu : SameCore s u)
    (e : hostWrite a v strb u = .next t) : StepCase s t := by
  have resp : ∀ w : Word, SameCore s (respond w u) := fun w => by unfold SameCore at *; rw [hu]; rfl
  have error : (a.toNat % 8 ≠ 0 ∨ strb ≠ 0xFF ∨ readOnlyOffset a.toNat) → t = busError u → StepCase s t := by
    intro c e
    subst e
    exact .error hH (by unfold errorAtHead; rw [hh]; exact c) (by rw [← hu.status]; rfl)
      (by unfold SameCore at *; rw [hu]; rfl)
  unfold hostWrite at e
  split at e
  · injection e with e
    exact error (.inl ((misaligned_iff a).1 ‹_›)) e.symm
  rename_i hm
  split at e
  · injection e with e
    exact error (.inr (.inl ‹_›)) e.symm
  rename_i hs
  obtain rfl : strb = 0xFF := by simpa using hs
  have h8 : a.toNat % 8 = 0 := by by_contra h; exact hm ((misaligned_iff a).2 h)
  have nw : nextWrites s a.toNat v := ⟨hH, h8, a, rest, rfl, hh⟩
  -- an input write stores, or is dropped
  have input : ∀ store : State → State,
      (a.toNat = 0x28 ∨ a.toNat = 0x30 ∨ a.toNat = 0x38 ∨ (0x10000 ≤ a.toNat ∧ a.toNat < 0x18000)) →
      respond 0 (inputWrite store u) = t →
      (s.status.busy = false → t = respond 0 (store u) → StepCase s t) → StepCase s t := by
    intro store ha e k
    cases hb : s.status.busy with
    | true =>
      rw [inputWrite_busy (by rw [hu.status]; exact hb)] at e
      exact .dropWrite _ v nw ha hb (respond 0 u) e.symm (resp 0)
    | false =>
      rw [inputWrite_idle (by rw [hu.status]; exact hb)] at e
      exact k hb e.symm
  unfold writeRegion at e
  split at e
  · rename_i r hreg
    have ha := region_eq_reg hreg
    subst ha
    cases r
    case cmd => exact issue_stepCase hr nw (resp 0) e
    all_goals injection e with e
    case status => exact .status v nw (respond 0 u) e.symm (resp 0)
    case ie => exact .ie v nw (respond 0 u) e.symm (resp 0)
    case omega => exact input _ (.inl rfl) e fun hb e => .omega v nw hb (respond 0 u) e (resp 0)
    case len => exact input _ (.inr (.inl rfl)) e fun hb e => .len v nw hb (respond 0 u) e (resp 0)
    case kind => exact input _ (.inr (.inr (.inl rfl))) e fun hb e => .kind v nw hb (respond 0 u) e (resp 0)
    all_goals exact error (.inr (.inr (by unfold readOnlyOffset; decide))) e.symm
  · injection e with e
    exact error (.inr (.inr (region_table_readOnly h8 (.inl ⟨_, ‹_›⟩)))) e.symm
  · injection e with e
    exact error (.inr (.inr (region_table_readOnly h8 (.inr ⟨_, _, ‹_›⟩)))) e.symm
  · rename_i j hj
    obtain ⟨ha, hj⟩ := region_eq_s hj h8
    injection e with e
    refine input _ (.inr (.inr (.inr (by omega)))) e fun hb e => ?_
    rw [ha] at nw
    exact .sample v j hj nw hb (respond 0 u) e (resp 0)
  · injection e with e
    exact .host (by rw [← e]; exact resp 0)

/-- A step that is no reset is one of the cases. -/
theorem step_cases {s t : State} (e : step s = .next t) (hr : ¬ nextResets s) : StepCase s t := by
  by_cases hE : nextIsEngine s
  · rw [nextIsEngine_step hE] at e; injection e with e; exact .engine hE e.symm
  by_cases hH : nextIsHost s
  · rw [nextIsHost_step hH] at e
    unfold hostTurn at e
    split at e
    · injection e with e; subst e; exact .host rfl
    · rename_i a v strb rest hh
      refine hostWrite_stepCase hr hH hh ?_ e
      rfl
    · rename_i a name rest hh
      injection e with e; subst e
      rcases hostRead_cases a { s with turns := s.turns.tail, host := rest } with ⟨hm, e⟩ | ⟨_, v, n, _, e⟩ <;> rw [e]
      · exact .error hH (by unfold errorAtHead; rw [show s.host = _ from hh]; exact (misaligned_iff a).1 hm) rfl rfl
      · exact .host rfl
    · rename_i a m x rest hh
      dsimp only at e
      rcases hostRead_cases a { s with turns := s.turns.tail } with ⟨hm, e'⟩ | ⟨_, v, n, _, e'⟩ <;> rw [e'] at e
      · have he : errorAtHead s := by
          unfold errorAtHead; rw [show s.host = _ from hh]; exact (misaligned_iff a).1 hm
        split at e <;> injection e with e <;> subst e <;> exact .error hH he rfl rfl
      · split at e <;> injection e with e <;> subst e <;> exact .host rfl
  · refine .host ?_
    have key : ∀ (tu : Turn) (u : State), SameCore s u → u.rstN = s.rstN → nextTurn s = tu → takeTurn tu u = .next t →
        SameCore s t := by
      intro tu u hu hur hn e
      cases tu
      · rw [takeTurn, hur, if_neg fun h => hH ⟨h, hn⟩] at e; injection e with e; subst e; exact hu
      · rw [takeTurn, hur, if_neg fun h => hE ⟨h, hn⟩] at e; injection e with e; subst e; exact hu
      · exact absurd (Or.inl hn) hr
      · simp only [takeTurn] at e; injection e with e; subst e
        unfold SameCore at *; rw [hu]
    unfold step at e
    split at e
    · rename_i h0; exact key _ s rfl rfl (by unfold nextTurn; rw [h0]) e
    · rename_i tu ts h0; exact key tu { s with turns := ts } rfl rfl (by unfold nextTurn; rw [h0]) e

/-- An engine step leaves STATUS as it is, but for the two final steps. -/
theorem engineStep_status (s : State) :
    (engineStep s).status = s.status ∨
      (s.seq = .evalFin ∧ (engineStep s).status = s.status.finishEval) ∨
      (s.seq = .genFin ∧ (engineStep s).status = s.status.finishGen) := by
  unfold engineStep
  split
  · exact .inl rfl
  · rename_i k _
    obtain ⟨n, e⟩ := readEntry_snd (sAddr (s.eN - k)) s
    exact .inl (by simp only [evalIter, e])
  · exact .inr (.inl ⟨‹_›, rfl⟩)
  · rename_i l i _
    left
    unfold genPoint pointWrites writeCosine writeSine writeW writeX writeEntry
    simp only
    split
    · rfl
    · split <;> rfl
  · exact .inr (.inr ⟨‹_›, rfl⟩)

end Sys2Proof.Machine
end

