-- ==== Sys2Proof/Laws/TrigSign.lean ====
section
/-! SUPPORT. FSIN's sign bit is that of the real sine on the frequencies EVAL accepts (40 R142): every precision's error is
below the least magnitude the sine takes there. -/

namespace Sys2Proof.Machine.Trig

/-- While it stays below half of 2^P, an error grows at most eightfold in a doubling. -/
theorem doubles_err {P : Nat} (k : Nat) : ∀ a : Estimate, 2 ≤ a.err → 2 * (8 ^ k * a.err) ≤ 2 ^ P →
    (doubles P k a).err ≤ 8 ^ k * a.err := by
  induction k with
  | zero => intro a _ _; simp [doubles]
  | succ k ih =>
    intro a h2 h
    have grow : (double P a).err ≤ 8 * a.err := by
      have small : 2 * a.err ≤ 2 ^ P := by
        have : a.err ≤ 8 ^ (k + 1) * a.err := Nat.le_mul_of_pos_left _ (by positivity)
        omega
      have : 2 * a.err * a.err / 2 ^ P ≤ a.err :=
        Nat.div_le_of_le_mul (Nat.mul_le_mul_right _ small)
      simp only [double]
      omega
    have e : 8 ^ (k + 1) * a.err = 8 ^ k * (8 * a.err) := by ring
    rw [e] at h ⊢
    have : 8 ^ k * (double P a).err ≤ 8 ^ k * (8 * a.err) := Nat.mul_le_mul_left _ grow
    exact (ih (double P a) (Nat.le_add_left 2 _) (by omega)).trans this

/-- The error of an estimate below 8.0, at every precision the model uses, is less than 2^(P - 54 - nm): nm is how far the
argument lies below 1. -/
theorem estimate_err {m : Nat} {e : ℤ} {p : Nat} (he : -1074 ≤ e) (h8 : magnitude m e ≤ 3) (hp : 128 ≤ p)
    (hp' : p ≤ 4096) :
    (estimate m e p).err * 2 ^ (54 + (-magnitude m e).toNat) < 2 ^ fracBits m e p := by
  unfold estimate
  simp only
  set k := halvings m e with hk
  set nm := (-magnitude m e).toNat with hnm
  have hP : fracBits m e p = p + 3 * k + 16 + nm := rfl
  have k11 : k ≤ 11 := by rw [hk]; unfold halvings; omega
  have nm1074 : nm ≤ 1074 := by rw [hnm]; unfold magnitude; omega
  set P := fracBits m e p
  set a := small m ((k : ℤ) - e).toNat P
  have ha : a.err = 2 * terms P + 2 := rfl
  have ha' : a.err ≤ 2 ^ 12 := by rw [ha]; unfold terms; omega
  have h8k : (8 : Nat) ^ k = 2 ^ (3 * k) := by rw [pow_mul]; norm_num
  have bound : 8 ^ k * a.err ≤ 2 ^ (3 * k + 12) := by
    rw [h8k, pow_add]; exact Nat.mul_le_mul_left _ ha'
  have := doubles_err (P := P) k a (by omega) (by
    calc 2 * (8 ^ k * a.err) ≤ 2 * 2 ^ (3 * k + 12) := Nat.mul_le_mul_left _ bound
      _ = 2 ^ (3 * k + 13) := by ring
      _ ≤ 2 ^ P := Nat.pow_le_pow_right (by norm_num) (by omega))
  calc (doubles P k a).err * 2 ^ (54 + nm) ≤ 2 ^ (3 * k + 12) * 2 ^ (54 + nm) :=
        Nat.mul_le_mul_right _ (this.trans bound)
    _ = 2 ^ (3 * k + 12 + (54 + nm)) := by rw [pow_add _ (3 * k + 12)]
    _ < 2 ^ P := Nat.pow_lt_pow_right (by norm_num) (by omega)

theorem signBit_roundFixed (P : Nat) (z : ℤ) : F64.signBit (roundFixed P z) = decide (z < 0) := by
  unfold roundFixed F64.roundRat
  rw [F64.signBit_withSign _ (lt_of_le_of_lt (F64.roundMag_le _ _) F64.infMag_lt)]
  have : (0 : ℤ) < (2 ^ P : Nat) := by positivity
  rw [decide_eq_decide]
  omega

/-- What FSIN answers is the rounding of one of the estimates. -/
theorem value_eq_roundFixed (m : Nat) (e : ℤ) (pick : Estimate → ℤ) :
    ∃ p, 128 ≤ p ∧ p ≤ 4096 ∧ value m e pick = roundFixed (fracBits m e p) (pick (estimate m e p)) := by
  have hc : ∀ ps : List Nat, (∀ p ∈ ps, 128 ≤ p ∧ p ≤ 4096) → ∀ w, certified m e pick ps = some w →
      ∃ p, 128 ≤ p ∧ p ≤ 4096 ∧ w = roundFixed (fracBits m e p) (pick (estimate m e p)) := by
    intro ps
    induction ps with
    | nil => intro _ w h; simp [certified] at h
    | cons p ps ih =>
      intro hps w h
      unfold certified at h
      split at h
      · rename_i w' hw
        simp only [Option.some.injEq] at h
        subst h
        unfold agreed at hw
        split at hw
        · simp only [Option.some.injEq] at hw
          exact ⟨p, (hps p (by simp)).1, (hps p (by simp)).2, hw.symm⟩
        · simp at hw
      · exact ih (fun q hq => hps q (by simp [hq])) w h
  unfold value
  split
  · rename_i w h
    exact hc precisions (by decide) _ h
  · exact ⟨4096, by norm_num, le_rfl, rfl⟩

/-- Where the sine is not too near a zero, FSIN has its sign. -/
theorem value_sin_sign {m : Nat} {e : ℤ} (he : -1074 ≤ e) (h8 : magnitude m e ≤ 3)
    (hs : 1 ≤ |Real.sin ((m : ℝ) * (2 : ℝ) ^ e)| * 2 ^ (54 + (-magnitude m e).toNat)) :
    F64.signBit (value m e (fun t => t.sin)) = decide (Real.sin ((m : ℝ) * (2 : ℝ) ^ e) < 0) := by
  obtain ⟨p, hp, hp', hv⟩ := value_eq_roundFixed m e (fun t => t.sin)
  rw [hv, signBit_roundFixed, decide_eq_decide]
  have enc := abs_le.1 (estimate_encloses m e p).2
  have err := estimate_err he h8 hp hp'
  set x := Real.sin ((m : ℝ) * (2 : ℝ) ^ e)
  set N := 54 + (-magnitude m e).toNat
  set P := fracBits m e p
  set z := (estimate m e p).sin
  have errR : ((estimate m e p).err : ℝ) * 2 ^ N < 2 ^ P := by exact_mod_cast err
  have n0 : (0 : ℝ) < 2 ^ N := by positivity
  have p0 : (0 : ℝ) < 2 ^ P := by positivity
  have far : ((estimate m e p).err : ℝ) < 2 ^ P * |x| := by
    have : (2 : ℝ) ^ P ≤ 2 ^ P * (|x| * 2 ^ N) := le_mul_of_one_le_right p0.le hs
    nlinarith
  have cast : (z < 0) ↔ ((z : ℤ) : ℝ) < 0 := by exact_mod_cast Iff.rfl
  rw [cast]
  constructor
  · intro h
    by_contra hx
    rw [abs_of_nonneg (not_lt.1 hx)] at far
    linarith [enc.1]
  · intro h
    rw [abs_of_neg h] at far
    linarith [enc.2]

/-- The sine between 0 and π is at least half the distance to the nearer of the two. -/
theorem sin_lower {x d : ℝ} (h0 : 0 < x) (hd : 0 ≤ d) (hx : x ≤ Real.pi - d) :
    min (x / 2) (d / 2) ≤ Real.sin x := by
  have pi4 : Real.pi ≤ 4 := Real.pi_le_four
  have pi0 := Real.pi_pos
  have half : ∀ y : ℝ, 0 ≤ y → y / 2 ≤ 2 / Real.pi * y := by
    intro y hy
    have : (1 : ℝ) / 2 ≤ 2 / Real.pi := by
      rw [div_le_div_iff₀ (by norm_num) pi0]; linarith
    nlinarith
  rcases le_total x (Real.pi / 2) with h | h
  · exact (min_le_left _ _).trans ((half x h0.le).trans (Real.mul_le_sin h0.le h))
  · rw [← Real.sin_pi_sub]
    refine (min_le_right _ _).trans ?_
    have h1 : d / 2 ≤ (Real.pi - x) / 2 := by linarith
    exact h1.trans ((half _ (by linarith)).trans (Real.mul_le_sin (by linarith) (by linarith)))

end Sys2Proof.Machine.Trig

namespace Sys2Proof.Machine.F64

theorem magValue_pi64 : magValue 0x400921FB54442D18 = 7074237752028440 / 2 ^ 51 := by norm_num [magValue]

theorem magValue_after_pi64 : magValue 0x400921FB54442D19 = 7074237752028441 / 2 ^ 51 := by norm_num [magValue]

theorem magValue_before_twoPi64 : magValue 0x401921FB54442D17 = 7074237752028439 / 2 ^ 50 := by norm_num [magValue]

/-- FSIN is nonnegative in sign on [+0.0, PI64], and negative in sign at -0.0 and on (PI64, TWO_PI64). -/
theorem signBit_fsin {w : Word} (h : omegaLegal w) :
    signBit (fsin w) = decide (w = 0x8000000000000000#64 ∨ 0x400921FB54442D18 < w.toNat) := by
  rcases h with rfl | h
  · decide
  have hm : w.toNat < 2 ^ 63 := by omega
  have hs : signBit w = false := by rw [signBit_eq]; simpa using hm
  have ne : w ≠ 0x8000000000000000#64 := by rintro rfl; simp at hm
  have fin : isFinite w = true := isFinite_iff.2 (by unfold infMag; omega)
  rcases unpack_cases w with ⟨-, -, f⟩ | ⟨-, -, f, -⟩ | ⟨c, m, hu, -, -, hw, hlt, h53, hc⟩
  · simp [fin] at f
  · simp [fin] at f
  rw [hs] at hu hw
  have hn : w.toNat = c * 2 ^ 52 + m := by
    have := withSign_toNat false (lt_trans hlt infMag_lt)
    rw [← hw] at this; simpa using this
  have hv := magValue_eq h53.le hc
  rw [← hn] at hv
  have hf : fsin w = if m = 0 then w else Trig.value m ((c : ℤ) - 1074) (fun t => t.sin) := by
    unfold fsin; rw [hu]; simp
  rw [hf]
  rcases Nat.eq_zero_or_pos m with rfl | m0
  · rw [if_pos rfl, hs, eq_comm, decide_eq_false_iff_not]
    rintro (h | h)
    exacts [ne h, by omega]
  rw [if_neg m0.ne']
  have log52 : m.log2 ≤ 52 := by
    have := (Nat.log2_lt m0.ne').2 h53
    omega
  -- x, the real frequency
  set x : ℝ := (m : ℝ) * (2 : ℝ) ^ ((c : ℤ) - 1074) with hx
  have xv : x = ((magValue w.toNat : ℚ) : ℝ) := by rw [hv, hx]; push_cast; rfl
  set nm := (-Trig.magnitude m ((c : ℤ) - 1074)).toNat with hnm
  have n0 : (0 : ℝ) < 2 ^ nm := by positivity
  have n1 : (1 : ℝ) ≤ 2 ^ nm := one_le_pow₀ (by norm_num)
  have x1 : 1 ≤ x * 2 ^ (1 + nm) := by
    have h1 : ((2 : ℝ) ^ m.log2) ≤ m := by exact_mod_cast Nat.log2_self_le m0.ne'
    have h2 : (1 : ℝ) ≤ (2 : ℝ) ^ ((m.log2 : ℤ) + ((c : ℤ) - 1074) + (1 + nm : ℕ)) :=
      one_le_zpow₀ (by norm_num) (by rw [hnm]; unfold Trig.magnitude; push_cast; omega)
    rw [zpow_add₀ (by norm_num), zpow_add₀ (by norm_num), zpow_natCast, zpow_natCast] at h2
    refine h2.trans ?_
    rw [hx]
    gcongr
  have x0 : 0 < x := by
    by_contra hn
    have : x * 2 ^ (1 + nm) ≤ 0 := mul_nonpos_of_nonpos_of_nonneg (not_lt.1 hn) (by positivity)
    linarith
  have split54 : ∀ y : ℝ, y * 2 ^ (54 + nm) = y * 2 ^ 54 * 2 ^ nm := by intro y; rw [pow_add]; ring
  have enough : ∀ y : ℝ, min (x / 2) (2 ^ (-53 : ℤ) / 2) ≤ y → 1 ≤ y * 2 ^ (54 + nm) := by
    intro y hy
    rw [split54]
    rcases min_le_iff.1 hy with h | h
    · rw [pow_add] at x1
      nlinarith
    · have : (1 : ℝ) ≤ y * 2 ^ 54 := by norm_num at h ⊢; linarith
      nlinarith
  have key := fun hsin => Trig.value_sin_sign (m := m) (e := (c : ℤ) - 1074) (by omega)
    (by unfold Trig.magnitude; omega) hsin
  rw [← hx, ← hnm] at key
  have p1 := Real.pi_gt_d20
  have p2 := Real.pi_lt_d20
  by_cases hp : w.toNat ≤ 0x400921FB54442D18
  · have xle : x ≤ 7074237752028440 / 2 ^ 51 := by
      have := magValue_le_iff.2 hp
      rw [magValue_pi64] at this
      have := (Rat.cast_le (K := ℝ)).2 this
      push_cast at this
      rw [xv]; exact this
    have low := Trig.sin_lower x0 (d := 2 ^ (-53 : ℤ)) (by positivity) (by norm_num at xle p1 ⊢; linarith)
    have pos : 0 < Real.sin x := lt_of_lt_of_le (lt_min (by linarith) (by norm_num)) low
    rw [key (by rw [abs_of_pos pos]; exact enough _ low), decide_eq_decide]
    exact ⟨fun h => absurd pos (not_lt.2 h.le), fun h => by rcases h with h | h; exacts [absurd h ne, by omega]⟩
  · have xge : 7074237752028441 / 2 ^ 51 ≤ x := by
      have := magValue_le_iff.2 (show 0x400921FB54442D19 ≤ w.toNat by omega)
      rw [magValue_after_pi64] at this
      have := (Rat.cast_le (K := ℝ)).2 this
      push_cast at this
      rw [xv]; exact this
    have xle : x ≤ 7074237752028439 / 2 ^ 50 := by
      have := magValue_le_iff.2 (show w.toNat ≤ 0x401921FB54442D17 by omega)
      rw [magValue_before_twoPi64] at this
      have := (Rat.cast_le (K := ℝ)).2 this
      push_cast at this
      rw [xv]; exact this
    have y1 : (2 : ℝ) ^ (-53 : ℤ) ≤ x - Real.pi := by norm_num at xge p2 ⊢; linarith
    have low := Trig.sin_lower (x := x - Real.pi) (lt_of_lt_of_le (by positivity) y1) (d := 2 ^ (-53 : ℤ))
      (by positivity) (by norm_num at xle p1 ⊢; linarith)
    rw [Real.sin_sub_pi] at low
    have low' : 2 ^ (-53 : ℤ) / 2 ≤ -Real.sin x := (le_min (by linarith) le_rfl).trans low
    have neg : Real.sin x < 0 := by
      have : (0 : ℝ) < 2 ^ (-53 : ℤ) / 2 := by positivity
      linarith
    rw [key (by rw [abs_of_neg neg]; exact enough _ ((min_le_right _ _).trans low')), decide_eq_decide]
    exact ⟨fun _ => .inr (by omega), fun _ => neg⟩

end Sys2Proof.Machine.F64
end

