-- ==== Sys2Proof/Tests/Slice0.lean ====
section
/-! SUPPORT. The model's own tests: ill-formed terms refused, decoding by words written out from the spec, a few single steps
with values from 95_test_vectors.md, and for each statement with hypotheses a state and operands that meet them. -/

namespace Sys2Proof.Tests

open Sys2Proof.Machine

/-- The outcome is a next state of which `p` holds. -/
def answers (o : Host.Outcome State Fault Refusal) (p : State → Bool) : Bool :=
  match o with
  | .next t => p t
  | .fault _ => false
  | .refused _ => false

/-! ## Ill-formed terms (30 R122-R124, 20 R80-R84) -/

theorem test_commands_are_wellFormed : ∀ i ∈ [Instr.nop, .eval, .gen, .srst], i.wellFormed = true := by decide

theorem test_target_s_bound : Target.wellFormed (.s 4095) = true ∧ Target.wellFormed (.s 4096) = false := by decide

theorem test_target_x_bound : Target.wellFormed (.x 256) = true ∧ Target.wellFormed (.x 257) = false := by decide

theorem test_target_w_bound : Target.wellFormed (.w 7 256) = true ∧ Target.wellFormed (.w 8 0) = false ∧
    Target.wellFormed (.w 0 257) = false := by decide

theorem test_target_raw_bound : Target.wellFormed (.raw 0x1FFFF) = true ∧ Target.wellFormed (.raw 0x20000) = false := by
  decide

theorem test_target_reg : Target.wellFormed (.reg .dbgB) = true := by decide

theorem test_statements_check_their_targets :
    Stmt.wellFormed (.wr (.s 4096) 0) = false ∧ Stmt.wellFormed (.rd (.x 257) "v") = false ∧
    Stmt.wellFormed (.poll (.raw 0x20000) 1 0) = false ∧ Stmt.wellFormed (.rd (.x 256) "v") = true := by decide

theorem test_ldS_needs_a_sample : Stmt.wellFormed (.ldS []) = false ∧ Stmt.wellFormed (.ldS [0]) = true := by decide

theorem test_plain_statements : Stmt.wellFormed (.cmd .srst) = true ∧ Stmt.wellFormed .wait = true ∧
    Stmt.wellFormed .clrst = true := by decide

/-! ## Decoding (30 R111: OPC in bits 7:0, RSVD in bits 63:8; the words of R113, bit by bit) -/

theorem test_decode_nop : decode (0b00000000000000000000000000000000#32 ++ 0b00000000000000000000000000000000#32) =
    .ok .nop := by rfl

theorem test_decode_eval : decode (0b00000000000000000000000000000000#32 ++ 0b00000000000000000000000000000001#32) =
    .ok .eval := by rfl

theorem test_decode_gen : decode (0b00000000000000000000000000000000#32 ++ 0b00000000000000000000000000000010#32) =
    .ok .gen := by rfl

theorem test_decode_srst : decode (0b00000000000000000000000000000000#32 ++ 0b00000000000000000000000001011010#32) =
    .ok .srst := by rfl

theorem test_decode_reserved_opcodes :
    decode 0x03 = .error .badOpcode ∧ decode 0x59 = .error .badOpcode ∧ decode 0x5B = .error .badOpcode ∧
    decode 0xFF = .error .badOpcode := ⟨rfl, rfl, rfl, rfl⟩

theorem test_decode_reserved_bits :
    decode 0x100 = .error .cmdRsvd ∧ decode 0x15A = .error .cmdRsvd ∧
    decode 0x8000000000000001 = .error .cmdRsvd := ⟨rfl, rfl, rfl⟩

theorem test_decode_bytes_low_lane_first :
    decodeBytes [0x5A, 0, 0, 0, 0, 0, 0, 0] = .ok .srst ∧
    decodeBytes [0, 0, 0, 0, 0, 0, 0, 0x5A] = .error (.reserved .cmdRsvd) ∧
    decodeBytes [0x5A] = .error .notOneWord := ⟨rfl, rfl, rfl⟩

theorem test_decodeTableWord : decodeTableWord 64 0x5A = some .srst ∧ decodeTableWord 64 0x1 = some .eval ∧
    decodeTableWord 64 0x3 = none ∧ decodeTableWord 8 0x2 = some .gen := by decide

/-! ## Single steps, with values of 95_test_vectors.md -/

/-- V-C1: from reset, NOP leaves STATUS 0x6002; run by one step. -/
theorem test_nop_from_reset :
    answers (step (State.reset.withFetchWord 64 0x0)) (fun t => t.status.toWord == 0x6002 && !t.irq) = true := by decide

/-- V-C7: 0x5B is rejected with code 1, STATUS 0x6016. -/
theorem test_reserved_word_status :
    answers (step (State.reset.withFetchWord 64 0x5B)) (fun t => t.status.toWord == 0x6016) = true := by decide

/-- V-E15b's b: ω = 0.5 is LOW with b = 0xBFCF56BFCD241584. -/
theorem test_eval_accepts_low :
    answers (exec .eval { State.reset with len := 2, omega := 0x3FE0000000000000 }) (fun t =>
      t.dbgB == 0xBFCF56BFCD241584 && t.status.toWord == 0x1 && t.seq == .evalIt 1 && t.eN == 2) = true := by
  decide +kernel

/-- V-E23: ω = 2.5 is HIGH; the final combination of its recursion state. -/
theorem test_eval_final_high :
    (engineStep { State.reset with
        seq := .evalFin, eW := 0x4004000000000000, dbgB := 0x3FD9742041E9D20C
        dbgAcc := 0xBFD3CE3E13EB24B0, dbgP2 := 0xC0067473E748513C }).cosOut = 0x3FCFD56126576530 ∧
    (engineStep { State.reset with
        seq := .evalFin, eW := 0x4004000000000000, dbgB := 0x3FD9742041E9D20C
        dbgAcc := 0xBFD3CE3E13EB24B0, dbgP2 := 0xC0067473E748513C }).sinOut = 0x3FFAE093E3011B1D := by
  decide +kernel

/-- 41 R161, R119: kind 3 is unselected: BUSY and ZK, TKIND 0, REGIME still 3. -/
theorem test_gen_accepts_unselected :
    answers (exec .gen { State.reset with kind := 3 }) (fun t =>
      t.status.toWord == 0x7001 && t.seq == .genPt 0 0 && t.gKind == 3) = true := by decide

/-- V-G1: W[0][0] = 0x3F9999999999999B with kind 1, and X[0] = 1.0 there (41 R173). -/
theorem test_gen_first_point :
    (engineStep { State.reset with seq := .genPt 0 0, gKind := 1 }).mem.readWord 0x08000 = some 0x3F9999999999999B ∧
    (engineStep { State.reset with seq := .genPt 0 0, gKind := 1 }).mem.readWord 0x01000 = some 0x3FF0000000000000 := by
  decide +kernel

/-- V-C4: SRST aborts a running EVAL, STATUS 0x6000. -/
theorem test_srst_aborts :
    answers (step ({ State.reset with
        seq := .evalIt 1, eN := 4, status := State.reset.status.acceptEval .low, len := 4, ie := 7 }.withFetchWord 64 0x5A))
      (fun t => t.status.toWord == 0x6000 && t.seq == .idle && t.len == 0 && t.ie == 0) = true := by decide

/-- V-B2 and V-B6: a misaligned read; a misaligned write of the SRST word does not reset. -/
theorem test_misaligned_accesses :
    (hostRead 0x0001C State.reset).status.toWord = 0x46000 ∧
    answers (hostWrite 0x00014 0x5A 0xFF { State.reset with ie := 4 }) (fun t => t.status.toWord == 0x46000 && t.irq) =
      true := by decide

/-- V-B7: reserved register bits ignore writes. -/
theorem test_len_keeps_32_bits :
    answers (hostWrite 0x00030 0xFFFFFFFF00000004 0xFF State.reset) (fun t => t.len == 4) = true := by decide

/-- 30 R123: `rd ID -> id` binds the name to the word of 10 R34. -/
theorem test_rd_binds_its_name :
    answers (step { State.reset with host := Stmt.ops (.rd (.reg .id) "id") }) (fun t =>
      t.named "id" == some 0x474F455200070001 && t.named "cap" == none && t.host == []) = true := by decide

/-! ## Witnesses: states and operands that meet each statement's hypotheses -/

/-- Two samples written, LEN = 2, OMEGA = 0.5. -/
def ready : State :=
  { writeS 1 Config.two (writeS 0 Config.one State.reset) with len := 2, omega := 0x3FE0000000000000 }

/-- One sample, at the other end of the accepted frequencies. -/
def readyOne (x w : Word) : State := { writeS 0 x State.reset with len := 1, omega := w }

/-- An EVAL of two samples has just been accepted. -/
def evalBusy : State := acceptEval 2 0x3FE0000000000000 ready

/-- A GEN has just been accepted. -/
def genBusy : State := acceptGen { State.reset with kind := 1 }

theorem reset_inv : State.reset.Inv := resetCore_inv State.reset true

theorem ready_inv : ready.Inv := by
  have h := writeS_inv (writeS_inv reset_inv rfl (j := 0) (by decide) Config.one) rfl (j := 1) (by decide) Config.two
  exact { h with
    reserved := ⟨h.reserved.1, by decide, h.reserved.2.2⟩
    inReset := fun h' => absurd (h'.symm.trans (rfl : ready.rstN = true)) Bool.false_ne_true }

theorem evalBusy_inv : evalBusy.Inv := acceptEval_inv ready_inv rfl _ (by decide) (by decide)

theorem genBusy_inv : genBusy.Inv := by
  refine acceptGen_inv (s := { State.reset with kind := 1 }) ?_ rfl
  exact { reset_inv with
    reserved := ⟨reset_inv.reserved.1, reset_inv.reserved.2.1, by decide⟩
    inReset := fun h' => by simp [State.reset] at h' }

/-- StepKeepsInv: a running EVAL, an engine step. -/
theorem test_witness_StepKeepsInv : evalBusy.Inv ∧ step evalBusy = .next (engineStep evalBusy) := ⟨evalBusy_inv, rfl⟩

/-- ResetSetsEveryElement, each way in. -/
theorem test_witness_ResetSetsEveryElement :
    takeTurn .rstLow evalBusy = .next { resetCore evalBusy with rstN := false } ∧
    exec .srst evalBusy = .next (resetCore evalBusy) := ⟨rfl, rfl⟩

/-- SrstAbandonsAndResets: words with OPC 0x5A and reserved bits, at both ends of their range. -/
theorem test_witness_SrstAbandonsAndResets :
    (0x15A#64).toNat % 0x100 = 0x5A ∧ 0x100 ≤ (0x15A#64).toNat ∧ (0xFFFFFFFFFFFFFF5A#64).toNat % 0x100 = 0x5A ∧
    0x100 ≤ (0xFFFFFFFFFFFFFF5A#64).toNat ∧ State.reset.status.busy = false ∧ (0x5B#64) ≠ 0x5A := by decide

/-- HeldResetStopsBothAgents. -/
theorem test_witness_HeldResetStopsBothAgents :
    ({ resetCore evalBusy with rstN := false } : State).Inv ∧
    ({ resetCore evalBusy with rstN := false } : State).rstN = false := ⟨resetCore_inv evalBusy false, rfl⟩

/-- StepRunsDecodedCommand: the schedule names the host, or names nobody and the engine is idle; a command, a reserved word,
another register's write, a partial write, a read, a poll and an empty queue at the head. -/
theorem test_witness_StepRunsDecodedCommand :
    nextIsHost (State.reset.withFetchWord 64 0x1) ∧
    (State.reset.withFetchWord 64 0x1).host = .write 0x00010 0x1 0xFF :: [] ∧ decode 0x1 = .ok .eval ∧
    (∀ ops ∈ [[HostOp.write 0x00010 0x5A 0xFF], [.write 0x00010 0x5B 0xFF], [.write 0x00018 0x70006 0xFF],
        [.write 0x00020 0x7 0x0F], [.read 0x1FFFF "x"], [.poll 0x00018 0x1 0x0], []],
      nextIsHost { State.reset with host := ops }) := by
  refine ⟨⟨rfl, rfl⟩, rfl, rfl, ?_⟩
  intro ops _
  exact ⟨rfl, rfl⟩

/-- StepRunsEngineStep: by the default schedule and by a named turn. -/
theorem test_witness_StepRunsEngineStep :
    nextIsEngine evalBusy ∧ nextIsEngine { evalBusy with turns := [.engine, .host] } := ⟨⟨rfl, rfl⟩, rfl, rfl⟩

/-- NopSetsDone, GenAcceptance, GenCompletesInItsSteps, GenTables: an idle machine. -/
theorem test_witness_idle : State.reset.status.busy = false ∧ exec .gen State.reset = .next (acceptGen State.reset) :=
  ⟨rfl, rfl⟩

/-- ReservedWordsAreRejected: the ends of each reserved range. -/
theorem test_witness_ReservedWordsAreRejected :
    ∀ c ∈ [0x03#64, 0x59#64, 0x5B#64, 0xFF#64, 0x100#64, 0x15A#64, 0xFFFFFFFFFFFFFFFF#64],
      c ≠ 0x00 ∧ c ≠ 0x01 ∧ c ≠ 0x02 ∧ c ≠ 0x5A := by simp

/-- CommandsWhileBusyAreDropped. -/
theorem test_witness_CommandsWhileBusyAreDropped :
    evalBusy.status.busy = true ∧ (0x59#64) ≠ 0x5A ∧ (0x1#64) ≠ 0x5A ∧ Instr.gen ≠ .srst := ⟨rfl, by decide, by decide, by decide⟩

/-- HostReadReturnsTheLocation: each clause at the ends of its range. -/
theorem test_witness_HostReadReturnsTheLocation :
    (0x00001#17).toNat % 8 ≠ 0 ∧ (0x1FFFF#17).toNat % 8 ≠ 0 ∧ State.reset.seq.isEval = false ∧
    State.reset.seq.isGen = false ∧
    ({ State.reset with mem := Memory.writeWord 0x1000 7 (Memory.writeWord 0x1800 7 []) } : State).mem.readWord
      (0x1000 + 8 * 0) = some 7 ∧
    ({ State.reset with mem := Memory.writeWord 0x1000 7 (Memory.writeWord 0x1800 7 []) } : State).mem.readWord
      (0x1000 + 8 * 256) = some 7 ∧
    ({ State.reset with mem := Memory.writeWord 0x8000 7 (Memory.writeWord 0xF800 7 []) } : State).mem.readWord
      (0x8000 + 0x1000 * 0 + 8 * 0) = some 7 ∧
    ({ State.reset with mem := Memory.writeWord 0x8000 7 (Memory.writeWord 0xF800 7 []) } : State).mem.readWord
      (0x8000 + 0x1000 * 7 + 8 * 256) = some 7 ∧
    ready.mem.readWord (0x10000 + 8 * 0) = some Config.one ∧
    (writeS 4095 7 State.reset).mem.readWord (0x10000 + 8 * 4095) = some 7 := by decide

/-- The reserved offsets at the ends of their ranges, and the targets next to them that are not reserved. -/
theorem test_witness_reservedOffset :
    (∀ a ∈ [0x70, 0xFF8, 0x1808, 0x7FF8, 0x8808, 0x8FF8, 0xF808, 0xFFF8, 0x18000, 0x1FFF8], reservedOffset a) ∧
    (∀ a ∈ [0x68, 0x1000, 0x1800, 0x8000, 0x8800, 0xF800, 0x10000, 0x17FF8, 0x71, 0x20000], ¬ reservedOffset a) := by
  unfold reservedOffset; decide

/-- OpenReadsReturnAnyValue: a running EVAL, a running GEN, memory nothing has written. -/
theorem test_witness_OpenReadsReturnAnyValue :
    evalBusy.seq.isEval = true ∧ genBusy.seq.isGen = true ∧ State.reset.mem.readWord (0x1000 + 8 * 256) = none ∧
    State.reset.mem.readWord (0x8000 + 0x1000 * 7 + 8 * 256) = none ∧
    State.reset.mem.readWord (0x10000 + 8 * 4095) = none := ⟨rfl, rfl, rfl, rfl, rfl⟩

/-- HostWriteActsByTarget, BusErrorsAreTheThreeCases: misaligned, partial, and allowed writes; no allowed write is read-only. -/
theorem test_witness_BusErrorsAreTheThreeCases :
    (0x00014#17).toNat % 8 ≠ 0 ∧ (0x0F#8) ≠ 0xFF ∧ (0x00010#17).toNat % 8 = 0 ∧ (0x00038#17).toNat % 8 = 0 ∧
    (0x01808#17).toNat % 8 = 0 ∧ (0x10000#17).toNat % 8 = 0 ∧
    (∀ n ∈ [0x10, 0x18, 0x38, 0x70, 0x1808, 0x8808, 0x10000, 0x17FF8], ¬ readOnlyOffset n) ∧
    (∀ n ∈ [0x00, 0x08, 0x40, 0x68, 0x1000, 0x1800, 0x8000, 0x8800, 0xF000, 0xF800], readOnlyOffset n) := by
  unfold readOnlyOffset; decide

/-- EvalChecksItsOperands: each clause at the ends of its range. -/
theorem test_witness_EvalChecksItsOperands :
    (0xFFFFFFFF00000000#64).toNat % 2 ^ 32 = 0 ∧ 4096 < (4097#64).toNat % 2 ^ 32 ∧ 4096 < (0xFFFFFFFF#64).toNat % 2 ^ 32 ∧
    (1#64).toNat % 2 ^ 32 = 1 ∧ (4096#64).toNat % 2 ^ 32 = 4096 ∧
    (∀ w ∈ [0x8000000000000001#64, 0x401921FB54442D18#64, 0x7FF0000000000000#64, Config.cnan, 0xFFFFFFFFFFFFFFFF#64],
      ¬ omegaLegal w) ∧
    (∀ w ∈ [0x8000000000000000#64, 0x0000000000000000#64, 0x401921FB54442D17#64], omegaLegal w) := by
  simp [omegaLegal, Config.cnan]

/-- EvalAcceptance, EvalResult: two written samples. -/
theorem test_witness_EvalReady : EvalReady ready 2 (fun j => if j = 0 then Config.one else Config.two) where
  idle := by decide
  len := by decide
  atLeastOne := by decide
  atMostNMax := by decide
  omega := by unfold omegaLegal; decide
  samples := by decide

/-- AllZeroSamplesGiveZeros: one zero sample at ω = -0.0, and the ends of both intervals of its sign clauses. -/
theorem test_witness_AllZeroSamplesGiveZeros :
    (∀ w, omegaLegal w → EvalReady (readyOne 0 w) 1 (fun _ => 0)) ∧ omegaLegal 0x8000000000000000 ∧
    (omegaLegal 0x0000000000000000 ∧ omegaLegal 0x400921FB54442D18 ∧ (0x400921FB54442D18#64).toNat ≤ 0x400921FB54442D18) ∧
    (omegaLegal 0x400921FB54442D19 ∧ omegaLegal 0x401921FB54442D17 ∧
      0x400921FB54442D18 < (0x400921FB54442D19#64).toNat) := by
  refine ⟨fun w h => ?_, by simp [omegaLegal], by simp [omegaLegal], by simp [omegaLegal]⟩
  exact
    { idle := rfl
      len := rfl
      atLeastOne := le_rfl
      atMostNMax := by decide
      omega := h
      samples := fun j hj => by obtain rfl : j = 0 := by omega
                                rfl }

/-- OneSampleIsItsOwnCosine: an infinite sample at the largest accepted ω; the least positive value is no zero either. -/
theorem test_witness_OneSampleIsItsOwnCosine :
    EvalReady (readyOne 0x7FF0000000000000 0x401921FB54442D17) 1 (fun _ => 0x7FF0000000000000) ∧
    F64.isNaN 0x7FF0000000000000 = false ∧ (0x7FF0000000000000#64).toNat % 2 ^ 63 ≠ 0 ∧
    F64.isNaN 0x0000000000000001 = false ∧ (0x0000000000000001#64).toNat % 2 ^ 63 ≠ 0 where
  left :=
    { idle := by decide
      len := by decide
      atLeastOne := by decide
      atMostNMax := by decide
      omega := by unfold omegaLegal; decide
      samples := by decide }
  right := by decide

/-- NanSamplePropagates: a NaN at j = 0, where the DBG_P1 before it is finite, and one at j = 1. -/
theorem test_witness_NanSamplePropagates :
    EvalReady (writeS 0 0xFFF8000000000001 ready) 2 (fun j => if j = 0 then 0xFFF8000000000001 else Config.two) ∧
    EvalReady (writeS 1 0x7FF0000000000001 ready) 2 (fun j => if j = 0 then Config.one else 0x7FF0000000000001) ∧
    F64.isNaN 0xFFF8000000000001 = true ∧ F64.isNaN 0x7FF0000000000001 = true ∧
    F64.isFinite (recursionOver .low (coefficient .low 0x3FE0000000000000) [Config.two]).p1 = true where
  left :=
    { idle := by decide
      len := by decide
      atLeastOne := by decide
      atMostNMax := by decide
      omega := by unfold omegaLegal; decide
      samples := by decide }
  right :=
    ⟨{ idle := by decide
       len := by decide
       atLeastOne := by decide
       atMostNMax := by decide
       omega := by unfold omegaLegal; decide
       samples := by decide }, by decide, by decide, by decide +kernel⟩

/-- RegimeIntervals: the ends of the three intervals are accepted, and the order holds there. -/
theorem test_witness_RegimeIntervals :
    (∀ w ∈ [0x8000000000000000#64, 0x0000000000000000#64, 0x3FF0C152382D7364#64, 0x3FF0C152382D7365#64,
      0x4000C152382D7364#64, 0x4000C152382D7365#64, 0x401921FB54442D17#64], omegaLegal w) ∧
    F64.le 0x8000000000000000 0x3FF0C152382D7364 = true := ⟨by simp [omegaLegal], by decide⟩

/-- LowIteration, MidIteration, HighIteration: the first and the last sample of each regime. -/
theorem test_witness_iterations :
    evalBusy.seq = .evalIt 1 ∧ { evalBusy with eReg := .mid }.eReg = .mid ∧
    ({ ready with seq := .evalIt 1, eN := 2, eReg := .low } : State).mem.readWord (0x10000 + 8 * (2 - 1)) =
      some Config.two ∧
    ({ ready with seq := .evalIt 2, eN := 2, eReg := .high } : State).mem.readWord (0x10000 + 8 * (2 - 2)) =
      some Config.one := ⟨rfl, rfl, by decide, by decide⟩

/-- UnwrittenSampleIsAnyValue. -/
theorem test_witness_UnwrittenSampleIsAnyValue :
    ({ State.reset with seq := .evalIt 1, eN := 4096 } : State).seq = .evalIt 1 ∧
    ({ State.reset with seq := .evalIt 1, eN := 4096 } : State).mem.readWord (0x10000 + 8 * (4096 - 1)) = none := ⟨rfl, rfl⟩

/-- EvalFinalCombination, GenFinalStep. -/
theorem test_witness_final_steps :
    ({ evalBusy with seq := .evalFin } : State).seq = .evalFin ∧ ({ genBusy with seq := .genFin } : State).seq = .genFin :=
  ⟨rfl, rfl⟩

/-- EvalCompletesInItsSteps. -/
theorem test_witness_EvalCompletesInItsSteps :
    ready.status.busy = false ∧ exec .eval ready = .next evalBusy ∧ evalBusy.status.busy = true := by
  refine ⟨rfl, ?_, rfl⟩
  have h : evalCommand ready = evalBusy := by
    unfold evalCommand
    rw [if_neg (by decide), if_neg (by decide), if_neg (by decide)]
    rfl
  exact congrArg Host.Outcome.next h

/-- GenPointStep: the first and the last grid point, a selected and an unselected kind. -/
theorem test_witness_GenPointStep :
    genBusy.seq = .genPt 0 0 ∧ genBusy.gKind = 1 ∧ (0 ≤ halfPoints 0 ∧ 256 ≤ halfPoints 7) ∧
    ({ State.reset with seq := .genPt 7 256, gKind := 2 } : State).gKind = 2 ∧ (3#32) ≠ 1 ∧ (3#32) ≠ 2 :=
  ⟨rfl, rfl, by decide, rfl, by decide, by decide⟩

/-- RepeatedGenIsIdentical: KIND 1 in two different machines. -/
theorem test_witness_RepeatedGenIsIdentical :
    ({ ready with kind := 1 } : State).status.busy = false ∧
    ({ ready with kind := 1 } : State).kind.toNat % 2 ^ 32 = ({ State.reset with kind := 0x100000001 } : State).kind.toNat % 2 ^ 32 ∧
    exec .gen { ready with kind := 1 } = .next (acceptGen { ready with kind := 1 }) := ⟨rfl, by decide, rfl⟩

/-- ArithmeticRoundsToNearestEven, CoefficientRanges, ComparisonsAreOrdered, SpecialOperands: finite values at the ends of
their range, a nonzero divisor, both zeros. -/
theorem test_witness_finite_operands :
    (∀ a ∈ [0x0000000000000000#64, 0x8000000000000000#64, 0x0000000000000001#64, 0x7FEFFFFFFFFFFFFF#64,
      0xFFEFFFFFFFFFFFFF#64], F64.isFinite a = true) ∧
    F64.toRat 0x3FF0000000000000 ≠ 0 ∧ F64.toRat 0x8000000000000000 = 0 ∧ F64.isFinite 0x7FF0000000000000 = false := by
  refine ⟨by simp [F64.isFinite, F64.expField], ?_, ?_, by decide⟩
  · norm_num [F64.toRat, show F64.unpack 0x3FF0000000000000 = .fin false (2 ^ 52) (-52) by decide]
  · norm_num [F64.toRat, show F64.unpack 0x8000000000000000 = .fin true 0 (-1074) by decide]

/-- SineAndCosineAreCorrectlyRounded: the rounding is decided at 1.0 and, with the sign, at -1.0. -/
theorem test_witness_SineAndCosineAreCorrectlyRounded :
    F64.unpack 0x3FF0000000000000 = .fin false (2 ^ 52) (-52) ∧ F64.unpack 0xBFF0000000000000 = .fin true (2 ^ 52) (-52) ∧
    Trig.certified (2 ^ 52) (-52) (fun t => if false then -t.sin else t.sin) Trig.precisions ≠ none ∧
    Trig.certified (2 ^ 52) (-52) (fun t => if true then -t.sin else t.sin) Trig.precisions ≠ none ∧
    Trig.certified (2 ^ 52) (-52) (fun t => t.cos) Trig.precisions ≠ none := by
  refine ⟨by decide, by decide, ?_, ?_, ?_⟩ <;> decide +kernel

/-- NanResultsAreCanonical, NegHalfAndIntegers. -/
theorem test_witness_NanResultsAreCanonical :
    F64.isNaN 0x7FF0000000000001 = true ∧ F64.isNaN 0xFFFFFFFFFFFFFFFF = true ∧ F64.isNaN 0x7FF0000000000000 = false ∧
    (-260099 : Int) ≤ -260099 ∧ (512 : Int) ≤ 512 := by decide

/-- EvalIgnoresTheGenerator: two machines that differ in GEN's operand alone. -/
theorem test_witness_EvalIgnoresTheGenerator :
    evalBusy.Inv ∧ ({ evalBusy with gKind := 7 } : State).Inv ∧ evalBusy.seq.isEval = true ∧
    ({ evalBusy with gKind := 7 } : State).mem = evalBusy.mem ∧ ({ evalBusy with gKind := 7 } : State).seq = evalBusy.seq :=
  ⟨evalBusy_inv, { evalBusy_inv with
    genPhase := fun h => by simp [evalBusy, acceptEval, Seq.isGen] at h
    inReset := fun h => absurd (h.symm.trans (rfl : evalBusy.rstN = true)) Bool.false_ne_true }, rfl, rfl, rfl⟩

/-- GenIgnoresTheEvaluator: two machines that differ in EVAL's latches alone. -/
theorem test_witness_GenIgnoresTheEvaluator :
    genBusy.Inv ∧ ({ genBusy with eN := 9, eW := 5 } : State).Inv ∧ genBusy.seq.isGen = true ∧
    ({ genBusy with eN := 9, eW := 5 } : State).gKind = genBusy.gKind :=
  ⟨genBusy_inv, { genBusy_inv with
    seqOk := genBusy_inv.seqOk
    inReset := fun h => by simp [genBusy, acceptGen, State.reset] at h }, rfl, rfl⟩

/-- HostCannotDisturbARunningCommand, StateChangesOnlyByItsWriters, FlagsChangeOnlyByTheirEvents: a host read while an EVAL
runs. -/
theorem test_witness_HostCannotDisturbARunningCommand :
    ({ evalBusy with turns := [.host], host := [.read 0x00018 "st"] } : State).status.busy = true ∧
    nextIsHost { evalBusy with turns := [.host], host := [.read 0x00018 "st"] } ∧
    ¬ nextResets { evalBusy with turns := [.host], host := [.read 0x00018 "st"] } ∧
    step { evalBusy with turns := [.host], host := [.read 0x00018 "st"] } =
      .next (bindName "st" (hostRead 0x00018 evalBusy)) := by
  refine ⟨rfl, ⟨rfl, rfl⟩, ?_, rfl⟩
  rintro (h | ⟨_, _, o, rest, _, h⟩)
  · exact absurd h (by decide)
  · simp at h

/-- FlagsChangeOnlyByTheirEvents: ERR and ERRCODE set by a reserved word and cleared by NOP and by W1C, BUSERR set by each
erroneous head, and no error at the head of a good transaction. -/
theorem test_witness_FlagsChangeOnlyByTheirEvents :
    answers (step (State.reset.withFetchWord 64 0x5B)) (fun t => t.status.err && t.status.errcode == 1) = true ∧
    answers (exec .nop { State.reset with status := State.reset.status.reject 1 }) (fun t =>
      !t.status.err && t.status.errcode == 0) = true ∧
    answers (hostWrite 0x00018 0x4 0xFF { State.reset with status := State.reset.status.reject 1 }) (fun t =>
      !t.status.err && t.status.errcode == 0) = true ∧
    (∀ ops ∈ [[HostOp.read 0x0001C "x"], [.poll 0x00019 0x1 0x0], [.write 0x00020 0x7 0x0F], [.write 0x00014 0x0 0xFF],
        [.write 0x00008 0x0 0xFF]], errorAtHead { State.reset with host := ops }) ∧
    ¬ errorAtHead { State.reset with host := [.write 0x00010 0x1 0xFF] } := by
  refine ⟨by decide, by decide, by decide, ?_, ?_⟩ <;> simp [errorAtHead, readOnlyOffset]

/-- RunningCommandCompletesByDefault. -/
theorem test_witness_RunningCommandCompletesByDefault :
    evalBusy.Inv ∧ evalBusy.rstN = true ∧ evalBusy.turns = [] ∧ evalBusy.status.busy = true :=
  ⟨evalBusy_inv, rfl, rfl, rfl⟩

/-- SampleWriteIsLittleEndianAndReadsBack, PseudoInstructionsExpand: the ends of S. -/
theorem test_witness_sample_indexes : (0 < 4096 ∧ 4095 < 4096) ∧ [(1 : Word)].length ≤ 4096 := by decide

/-- The round trip of PerInstr, for every command. -/
theorem test_round_trip_every_command : ∀ i : Instr, Laws.RoundTrip.Statement i := by
  intro i
  cases i
  · exact Laws.RoundTrip.nop
  · exact Laws.RoundTrip.eval
  · exact Laws.RoundTrip.gen
  · exact Laws.RoundTrip.srst

end Sys2Proof.Tests
end

section
/-! PROOFS. The statements of the family 00_scope.md: NaN results (00 R14), neg, half and i2f (R13), the comparisons and
floorInt (R16). First the laws of binary64 words they need, then one theorem for each obligation. -/

namespace Sys2Proof.Machine.F64

/-! ## NaN operands and NaN results -/

theorem unpack_of_isNaN {v : Word} (h : isNaN v = true) : unpack v = .nan := by
  rcases unpack_cases v with ⟨hu, -⟩ | ⟨-, hn, -⟩ | ⟨_, _, -, hn, -⟩
  · exact hu
  · simp [h] at hn
  · simp [h] at hn

theorem isNaN_of_isFinite {v : Word} (h : isFinite v = true) : isNaN v = false := by
  rcases unpack_cases v with ⟨-, -, hf⟩ | ⟨-, hn, -⟩ | ⟨_, _, -, hn, -⟩
  · simp [h] at hf
  · exact hn
  · exact hn

theorem add_of_isNaN {a b : Word} (h : isNaN a = true ∨ isNaN b = true) : add a b = Config.cnan := by
  rcases h with h | h
  · simp [add, unpack_of_isNaN h]
  · cases ha : unpack a <;> simp [add, ha, unpack_of_isNaN h]

theorem sub_of_isNaN {a b : Word} (h : isNaN a = true ∨ isNaN b = true) : sub a b = Config.cnan :=
  add_of_isNaN (by rwa [isNaN_flipSign])

theorem mul_of_isNaN {a b : Word} (h : isNaN a = true ∨ isNaN b = true) : mul a b = Config.cnan := by
  rcases h with h | h
  · simp [mul, unpack_of_isNaN h]
  · cases ha : unpack a <;> simp [mul, ha, unpack_of_isNaN h]

theorem div_of_isNaN {a b : Word} (h : isNaN a = true ∨ isNaN b = true) : div a b = Config.cnan := by
  rcases h with h | h
  · simp [div, unpack_of_isNaN h]
  · cases ha : unpack a <;> simp [div, ha, unpack_of_isNaN h]

theorem neg_of_isNaN {a : Word} (h : isNaN a = true) : neg a = Config.cnan := by simp [neg, h]

theorem fsin_of_isNaN {a : Word} (h : isNaN a = true) : fsin a = Config.cnan := by simp [fsin, unpack_of_isNaN h]

theorem fcos_of_isNaN {a : Word} (h : isNaN a = true) : fcos a = Config.cnan := by simp [fcos, unpack_of_isNaN h]

/-- Every rounding that FSIN and FCOS take is within [-1, 1], so no NaN. -/
theorem canon_trigValue (m : Nat) (e : ℤ) (pick : Trig.Estimate → ℤ) :
    canon (Trig.value m e pick) = Trig.value m e pick := by
  obtain ⟨s, mag, hv, hm⟩ := Trig.value_range m e pick
  rw [hv]
  exact canon_withSign s (hm.trans (by norm_num [infMag]))

theorem canon_fsin (a : Word) : canon (fsin a) = fsin a := by
  unfold fsin
  split
  · rename_i hu
    split
    · exact canon_of_not_nan (isNaN_of_isFinite (isFinite_of_unpack_fin hu))
    · exact canon_trigValue _ _ _
  · exact canon_cnan

theorem canon_fcos (a : Word) : canon (fcos a) = fcos a := by
  unfold fcos
  split
  · split
    · exact canon_one
    · exact canon_trigValue _ _ _
  · exact canon_cnan

/-! ## Integers -/

/-- Every integer below 2^53 is the value of a finite magnitude: its 53 bits, at its own exponent. -/
theorem exists_magValue_eq_natCast {n : Nat} (h : n < 2 ^ 53) : ∃ mag < infMag, magValue mag = n := by
  rcases Nat.eq_zero_or_pos n with rfl | hn
  · exact ⟨0, by norm_num [infMag], by rw [magValue_zero, Nat.cast_zero]⟩
  obtain ⟨k, hk⟩ : ∃ k, n.log2 + k = 52 := ⟨52 - n.log2, by have := (Nat.log2_lt hn.ne').2 h; omega⟩
  have low : 2 ^ 52 ≤ n * 2 ^ k := by
    rw [← hk, pow_add]
    exact Nat.mul_le_mul_right _ (Nat.log2_self_le hn.ne')
  have high : n * 2 ^ k < 2 ^ 53 := by
    rw [show 53 = n.log2 + 1 + k by omega, pow_add]
    exact Nat.mul_lt_mul_of_pos_right Nat.lt_log2_self (by positivity)
  refine ⟨(1074 - k) * 2 ^ 52 + n * 2 ^ k, by unfold infMag; omega, ?_⟩
  rw [magValue_eq high.le (.inr low), show ((1074 - k : ℕ) : ℤ) - 1074 = -(k : ℤ) by omega, zpow_neg, zpow_natCast]
  push_cast
  field_simp

theorem i2f_eq_withSign (k : ℤ) : i2f k = withSign (decide (k < 0)) (roundMag k.natAbs 1) := by
  simp [i2f, roundInt, roundDyadic, roundRat]

/-- i2f is exact below 2^53 in magnitude (00 R13). -/
theorem i2f_exact {k : ℤ} (h : k.natAbs < 2 ^ 53) : isFinite (i2f k) = true ∧ toRat (i2f k) = k := by
  obtain ⟨mag, hlt, hv⟩ := exists_magValue_eq_natCast h
  have hr : roundMag k.natAbs 1 = mag := roundMag_exact one_pos hlt.le (by rw [hv, Nat.cast_one, div_one])
  rw [i2f_eq_withSign, hr]
  refine ⟨by simpa [isFinite_withSign _ hlt.le] using hlt, ?_⟩
  have habs : ((k.natAbs : ℕ) : ℚ) = |(k : ℚ)| := by rw [Nat.cast_natAbs, Int.cast_abs]
  rw [toRat_withSign _ hlt, hv, habs]
  rcases lt_or_ge k 0 with hk | hk
  · simp [hk, abs_of_neg (Int.cast_lt_zero.2 hk : (k : ℚ) < 0)]
  · simp [hk.not_gt, abs_of_nonneg (Int.cast_nonneg hk : (0 : ℚ) ≤ k)]

/-! ## The order of the finite words -/

/-- The value at a position of the number line of `orderKey`. -/
def keyValue (k : ℤ) : ℚ := k.sign * magValue k.natAbs

theorem keyValue_neg (k : ℤ) : keyValue (-k) = -keyValue k := by simp [keyValue]

theorem keyValue_natCast (n : Nat) : keyValue n = magValue n := by
  rcases Nat.eq_zero_or_pos n with rfl | hn
  · simp [keyValue, magValue_zero]
  · simp [keyValue, Int.sign_natCast_of_ne_zero hn.ne']

theorem keyValue_strictMono : StrictMono keyValue := by
  refine strictMono_of_odd_strictMonoOn_nonneg keyValue_neg fun a ha b hb hab => ?_
  lift a to ℕ using ha
  lift b to ℕ using hb
  rw [keyValue_natCast, keyValue_natCast]
  exact magValue_strictMono (by exact_mod_cast hab)

theorem orderKey_eq (v : Word) : orderKey v = signed (signBit v) (v.toNat % 2 ^ 63) := by rw [orderKey, mag_eq]

/-- The value of a finite word is a strictly monotone function of its order key alone. -/
theorem toRat_eq_keyValue {v : Word} (h : isFinite v = true) : toRat v = keyValue (orderKey v) := by
  have hlt := isFinite_iff.1 h
  have hv : toRat v = (if signBit v then -1 else 1) * magValue (v.toNat % 2 ^ 63) := by
    conv_lhs => rw [eq_withSign v, toRat_withSign _ hlt]
  rw [hv, orderKey_eq]
  generalize v.toNat % 2 ^ 63 = mag
  cases signBit v <;> simp [signed, keyValue_neg, keyValue_natCast]

theorem orderKey_lt_iff {a b : Word} (ha : isFinite a = true) (hb : isFinite b = true) :
    orderKey a < orderKey b ↔ toRat a < toRat b := by
  rw [toRat_eq_keyValue ha, toRat_eq_keyValue hb, keyValue_strictMono.lt_iff_lt]

theorem orderKey_le_iff {a b : Word} (ha : isFinite a = true) (hb : isFinite b = true) :
    orderKey a ≤ orderKey b ↔ toRat a ≤ toRat b := by
  rw [toRat_eq_keyValue ha, toRat_eq_keyValue hb, keyValue_strictMono.le_iff_le]

/-- Every finite word stands strictly between the two infinities. -/
theorem abs_orderKey_lt {v : Word} (h : isFinite v = true) : |orderKey v| < infMag := by
  have hlt := isFinite_iff.1 h
  rw [orderKey_eq]
  cases signBit v <;> simpa [signed] using by exact_mod_cast hlt

theorem lt_iff {a b : Word} (ha : isFinite a = true) (hb : isFinite b = true) :
    lt a b = true ↔ toRat a < toRat b := by
  simp [lt, isNaN_of_isFinite ha, isNaN_of_isFinite hb, orderKey_lt_iff ha hb]

theorem le_iff {a b : Word} (ha : isFinite a = true) (hb : isFinite b = true) :
    le a b = true ↔ toRat a ≤ toRat b := by
  simp [le, isNaN_of_isFinite ha, isNaN_of_isFinite hb, orderKey_le_iff ha hb]

theorem ge_iff {a b : Word} (ha : isFinite a = true) (hb : isFinite b = true) :
    ge a b = true ↔ toRat b ≤ toRat a := le_iff hb ha

theorem lt_of_isNaN {a b : Word} (h : isNaN a = true ∨ isNaN b = true) : lt a b = false := by
  rcases h with h | h <;> simp [lt, h]

theorem le_of_isNaN {a b : Word} (h : isNaN a = true ∨ isNaN b = true) : le a b = false := by
  rcases h with h | h <;> simp [le, h]

theorem ge_of_isNaN {a b : Word} (h : isNaN a = true ∨ isNaN b = true) : ge a b = false := le_of_isNaN h.symm

/-- A finite word is below +infinity and above -infinity. -/
theorem finite_between_infinities {a : Word} (h : isFinite a = true) :
    lt a 0x7FF0000000000000#64 = true ∧ lt 0xFFF0000000000000#64 a = true ∧
    le 0x7FF0000000000000#64 a = false ∧ le a 0xFFF0000000000000#64 = false := by
  have hpos : isNaN 0x7FF0000000000000#64 = false ∧ orderKey 0x7FF0000000000000#64 = infMag := by decide
  have hneg : isNaN 0xFFF0000000000000#64 = false ∧ orderKey 0xFFF0000000000000#64 = -infMag := by decide
  obtain ⟨hl, hu⟩ := abs_lt.1 (abs_orderKey_lt h)
  simp [lt, le, isNaN_of_isFinite h, hpos, hneg, hl, hu]

theorem isNaN_iff (v : Word) : isNaN v = true ↔ v.extractLsb' 52 11 = 0x7FF#11 ∧ v.extractLsb' 0 52 ≠ 0#52 := by
  rw [isNaN, Bool.and_eq_true, beq_iff_eq, bne_iff_ne, expField, fracField, ne_eq, ne_eq, ← BitVec.toNat_inj,
    ← BitVec.toNat_inj]
  rfl

/-- floorInt is the floor: the exact value is an integer over a power of two, and the model divides the two. -/
theorem floorInt_eq_floor {v : Word} (h : isFinite v = true) : floorInt v = ⌊toRat v⌋ := by
  obtain ⟨m, e, hu⟩ := unpack_fin_of_finite h
  have hq : toRat v = ((signed (signBit v) (m * 2 ^ e.toNat) : ℤ) : ℚ) / ((2 ^ (-e).toNat : ℕ) : ℚ) := by
    rw [toRat_fin hu, signed_cast, mul_div_assoc, roundDyadic_frac, mul_assoc]
  rw [hq, Rat.floor_intCast_div_natCast, floorInt, hu]

end Sys2Proof.Machine.F64

namespace Sys2Proof.Machine

/-! ## The host's writes -/

/-- A full write at a register's offset is that register's write (20 R91). -/
theorem hostWrite_regOffset (r : Reg) (v : Word) (s : State) : hostWrite (regOffset r) v 0xFF s = writeReg r v s := by
  simp [hostWrite, writeRegion]

/-- A full write at S[j] is an input write of that entry (20 R91, R96). -/
theorem hostWrite_sample {j : Nat} (hj : j < Config.nMax) (v : Word) (s : State) :
    hostWrite (BitVec.ofNat 17 (sAddr j)) v 0xFF s = .next (respond 0 (inputWrite (writeS j v) s)) := by
  have aligned : misaligned (BitVec.ofNat 17 (sAddr j)) = false := by
    rw [Bool.eq_false_iff, ne_eq, misaligned_iff, ofNat_toNat_offset (by unfold sAddr Config.nMax at *; omega), sAddr]
    omega
  simp [hostWrite, aligned, region_s hj, writeRegion]

/-- OMEGA holds the word the host wrote, NaN or not (00 R14). -/
theorem hostWrite_omega_stores {s : State} (hb : s.status.busy = false) (v : Word) :
    ∃ t, hostWrite (regOffset .omega) v 0xFF s = .next t ∧ t.omega = v := by
  refine ⟨_, hostWrite_regOffset .omega v s, ?_⟩
  rw [respond_omega, inputWrite_idle hb]

/-- S[j] holds the word the host wrote, NaN or not (00 R14). -/
theorem hostWrite_sample_stores {s : State} (hb : s.status.busy = false) {j : Nat} (hj : j < Config.nMax) (v : Word) :
    ∃ t, hostWrite (BitVec.ofNat 17 (sAddr j)) v 0xFF s = .next t ∧ t.mem.readWord (sAddr j) = some v := by
  refine ⟨_, hostWrite_sample hj v s, ?_⟩
  rw [respond_mem, inputWrite_idle hb, writeS, writeEntry_mem, Memory.readWord_writeWord]

end Sys2Proof.Machine

namespace Sys2Proof.Proofs

open Sys2Proof.Machine

/-- Settles O50: each primitive answers a word that canon leaves, and CNAN for a NaN operand; an idle write stores its
word. -/
theorem nanResultsAreCanonical : Obligations.NanResultsAreCanonical := by
  unfold Obligations.NanResultsAreCanonical
  refine ⟨fun _ => rfl, fun a b => ?_, fun k => F64.canon_roundInt k 0, fun a b h => ?_, fun a h => ?_, fun s v hb => ?_⟩
  · exact ⟨F64.canon_add a b, F64.canon_sub a b, F64.canon_mul a b, F64.canon_div a b, F64.canon_neg a,
      F64.canon_div a Config.two, F64.canon_fsin a, F64.canon_fcos a⟩
  · exact ⟨F64.add_of_isNaN h, F64.sub_of_isNaN h, F64.mul_of_isNaN h, F64.div_of_isNaN h⟩
  · exact ⟨F64.neg_of_isNaN h, F64.div_of_isNaN (.inl h), F64.fsin_of_isNaN h, F64.fcos_of_isNaN h⟩
  · exact ⟨hostWrite_omega_stores hb v, fun j hj => hostWrite_sample_stores hb hj v⟩

/-- Settles O51: neg and half are their definitions; i2f is exact on every integer of at most 53 bits. -/
theorem negHalfAndIntegers : Obligations.NegHalfAndIntegers := by
  unfold Obligations.NegHalfAndIntegers
  exact ⟨fun _ => rfl, fun _ => rfl, fun k hl hu => F64.i2f_exact (by omega)⟩

/-- Settles O52: on finite words the order key and the exact value are ordered alike, and the infinities' keys lie beyond. -/
theorem comparisonsAreOrdered : Obligations.ComparisonsAreOrdered := by
  unfold Obligations.ComparisonsAreOrdered
  exact ⟨fun a b ha hb => ⟨F64.lt_iff ha hb, F64.le_iff ha hb, F64.ge_iff ha hb⟩,
    fun a b h => ⟨F64.lt_of_isNaN h, F64.le_of_isNaN h, F64.ge_of_isNaN h⟩,
    fun a h => F64.finite_between_infinities h, by decide, by decide, by decide, by decide,
    by decide, by decide, F64.isNaN_iff, fun a h => F64.floorInt_eq_floor h⟩

end Sys2Proof.Proofs

end

section
/-! PROOFS. The statements of the family 10_state.md: writing 1 to STATUS clears (10 R44), and `irq` (10 R63). First the bits
of the STATUS word and the write of STATUS, then one theorem for each obligation. -/

namespace Sys2Proof.Machine

/-! ## The STATUS word, bit by bit -/

/-- What stands at each bit position of STATUS; the reserved positions hold 0 (10 R36). -/
def Status.bit (f : Status) : Nat → Bool
  | 0 => f.busy
  | 1 => f.done
  | 2 => f.err
  | 4 => f.errcode.getLsbD 0
  | 5 => f.errcode.getLsbD 1
  | 6 => f.errcode.getLsbD 2
  | 7 => f.errcode.getLsbD 3
  | 8 => f.rv
  | 9 => f.tv
  | 10 => f.tkind.getLsbD 0
  | 11 => f.tkind.getLsbD 1
  | 12 => f.zk
  | 13 => f.regime.getLsbD 0
  | 14 => f.regime.getLsbD 1
  | 16 => f.cbusy
  | 17 => f.wbusy
  | 18 => f.buserr
  | _ => false

@[simp] theorem Status.getElem_toWord (f : Status) (i : Nat) (h : i < 64) : f.toWord[i] = f.bit i := by
  rw [← BitVec.getLsbD_eq_getElem]
  simp only [Status.toWord, BitVec.getLsbD_append]
  rcases Nat.lt_or_ge i 19 with low | high
  · interval_cases i <;> simp [Status.bit]
  · obtain ⟨k, rfl⟩ := Nat.exists_eq_add_of_le' high
    simp [Status.bit]

/-- Bit by bit, W1C is a mask of the word: no bit above 18 is set before or after, and ERRCODE goes exactly when bit 2 of v
is 1 (10 R44). -/
theorem Status.toWord_w1c (f : Status) (v : Word) :
    (f.w1c v).toWord = f.toWord &&& ~~~(v &&& 0x0000000000070006) &&&
      ~~~(if v.getLsbD 2 then 0x00000000000000F0 else 0x0000000000000000) := by
  ext i hi
  rcases Nat.lt_or_ge i 19 with low | high
  · cases hv : v[2] <;> interval_cases i <;> simp [Status.bit, hv]
  · obtain ⟨k, rfl⟩ := Nat.exists_eq_add_of_le' high
    simp [Status.bit]

/-- A full write of STATUS answers OKAY, busy or not (10 R44, 20 R91). -/
theorem hostWrite_status (v : Word) (s : State) :
    hostWrite (regOffset .status) v 0xFF s = .next (respond 0 { s with status := s.status.w1c v }) :=
  hostWrite_regOffset .status v s

end Sys2Proof.Machine

namespace Sys2Proof.Proofs

open Sys2Proof.Machine

/-- Settles O23: the write's next state is the one before with its response and the W1C flags, whose word is the masked one. -/
theorem statusWriteOneClears : Obligations.StatusWriteOneClears := by
  unfold Obligations.StatusWriteOneClears
  exact fun s v => ⟨_, hostWrite_status v s, s.status.toWord_w1c v, rfl⟩

/-- Settles O24: each source is the bit of the STATUS word at its place. -/
theorem irqIsTheEnabledSources : Obligations.IrqIsTheEnabledSources := by
  unfold Obligations.IrqIsTheEnabledSources
  intro s
  simp [State.irq, doneIe, errIe, accIe, Status.bit, or_assoc]

end Sys2Proof.Proofs

end

section
/-! PROOFS. The statements of the family 20_memory.md: what a host read returns (20 R90) and what a host write does
(20 R91), region by region. First where the regions stand, then one lemma per region for each direction, then one theorem for each
obligation. -/

namespace Sys2Proof.Machine

/-! ## Where the regions stand -/

theorem misaligned_ofNat {n : Nat} (h : n % 8 = 0) : misaligned (BitVec.ofNat 17 n) = false := by
  rw [Bool.eq_false_iff, ne_eq, misaligned_iff, BitVec.toNat_ofNat]
  omega

theorem misaligned_xAddr (i : Nat) : misaligned (BitVec.ofNat 17 (xAddr i)) = false :=
  misaligned_ofNat (by unfold xAddr; omega)

theorem misaligned_wAddr (l i : Nat) : misaligned (BitVec.ofNat 17 (wAddr l i)) = false :=
  misaligned_ofNat (by unfold wAddr; omega)

theorem misaligned_sAddr (j : Nat) : misaligned (BitVec.ofNat 17 (sAddr j)) = false :=
  misaligned_ofNat (by unfold sAddr; omega)

theorem misaligned_of_reservedOffset {a : Offset} (h : reservedOffset a.toNat) : misaligned a = false := by
  rw [Bool.eq_false_iff, ne_eq, misaligned_iff]
  exact not_not_intro h.1

/-- The last register, DBG_B, stands at 0x68 (10 R32). -/
theorem regOffset_toNat_lt (r : Reg) : (regOffset r).toNat < 0x70 := by cases r <;> decide

theorem regAt_eq_none {a : Offset} (h : 0x70 ≤ a.toNat) : regAt a = none := by
  refine List.find?_eq_none.2 fun r _ hr => ?_
  have hlt := regOffset_toNat_lt r
  rw [eq_of_beq hr] at hlt
  omega

/-- No register, entry or sample stands at a reserved offset (20 R81, R84, R85). -/
theorem region_of_reservedOffset {a : Offset} (h : reservedOffset a.toNat) : region a = .reserved := by
  obtain ⟨-, h⟩ := h
  unfold region
  simp only
  rcases h with h | h | h | h
  · rw [if_pos h.2, regAt_eq_none h.1]
  · rw [if_neg (by omega), if_neg (by omega), if_pos h.2]
  · rw [if_neg (by omega), if_neg (by omega), if_neg (by omega), if_pos h.2.1, if_neg (by omega)]
  · rw [if_neg (by omega), if_neg (by omega), if_neg (by omega), if_neg (by omega), if_neg (by omega)]

/-! ## The registers' bits -/

theorem low3_eq_and (v : Word) : low3 v = v &&& 0x7 := by
  refine BitVec.eq_of_toNat_eq ?_
  simp [low3, Nat.and_two_pow_sub_one_eq_mod v.toNat 3, Nat.mod_lt_of_lt v.isLt]

theorem low32_eq_and (v : Word) : low32 v = v &&& 0xFFFFFFFF := by
  refine BitVec.eq_of_toNat_eq ?_
  simp [low32, Nat.and_two_pow_sub_one_eq_mod v.toNat 32, Nat.mod_lt_of_lt v.isLt]

theorem capWord_eq : Config.capWord = 0x0001010800001000 := by decide

/-! ## Reads -/

theorem hostRead_misaligned {a : Offset} (h : a.toNat % 8 ≠ 0) (s : State) : hostRead a s = busError s := by
  simp [hostRead, (misaligned_iff a).2 h]

/-- A read whose region answers v and leaves the state answers OKAY with v, and nothing else (20 R90). -/
theorem hostRead_of_readRegion {a : Offset} {s : State} {v : Word} (aligned : misaligned a = false)
    (h : readRegion (region a) s = (v, s)) : hostRead a s = respond v s := by
  simp [hostRead, aligned, h]

/-- A register reads as its value, but for a result register during an EVAL (20 R90, R97). -/
theorem hostRead_regOffset {r : Reg} {s : State} {v : Word} (noEval : (r.isResult && s.seq.isEval) = false)
    (hv : regValue r s = v) : hostRead (regOffset r) s = respond v s :=
  hostRead_of_readRegion (regOffset_aligned r) (by simp [readRegion, readReg, noEval, hv])

theorem readTable_of_some {a : Nat} {s : State} {v : Word} (hg : s.seq.isGen = false)
    (h : s.mem.readWord a = some v) : readTable a s = (v, s) := by
  simp [readTable, hg, readEntry_of_some h]

theorem hostRead_x {i : Nat} {s : State} {v : Word} (hi : i < Config.tableW) (hg : s.seq.isGen = false)
    (h : s.mem.readWord (xAddr i) = some v) : hostRead (BitVec.ofNat 17 (xAddr i)) s = respond v s :=
  hostRead_of_readRegion (misaligned_xAddr i) (by rw [region_x hi, readRegion, readTable_of_some hg h])

theorem hostRead_w {l i : Nat} {s : State} {v : Word} (hl : l < Config.levels) (hi : i < Config.tableW)
    (hg : s.seq.isGen = false) (h : s.mem.readWord (wAddr l i) = some v) :
    hostRead (BitVec.ofNat 17 (wAddr l i)) s = respond v s :=
  hostRead_of_readRegion (misaligned_wAddr l i) (by rw [region_w hl hi, readRegion, readTable_of_some hg h])

theorem hostRead_s {j : Nat} {s : State} {v : Word} (hj : j < Config.nMax)
    (h : s.mem.readWord (sAddr j) = some v) : hostRead (BitVec.ofNat 17 (sAddr j)) s = respond v s :=
  hostRead_of_readRegion (misaligned_sAddr j) (by rw [region_s hj, readRegion, readEntry_of_some h])

theorem hostRead_reserved {a : Offset} (h : reservedOffset a.toNat) (s : State) : hostRead a s = respond 0 s :=
  hostRead_of_readRegion (misaligned_of_reservedOffset h) (by rw [region_of_reservedOffset h, readRegion])

/-! ## Writes -/

/-- The two checks before the region is looked at (20 R91, 60 R208). -/
theorem hostWrite_misaligned_or_partial {a : Offset} {strb : BitVec 8} (h : a.toNat % 8 ≠ 0 ∨ strb ≠ 0xFF)
    (v : Word) (s : State) : hostWrite a v strb s = .next (busError s) := by
  unfold hostWrite
  rcases h with misalignedAt | partialAt
  · rw [if_pos ((misaligned_iff a).2 misalignedAt)]
  · rw [if_pos partialAt, ite_self]

theorem hostWrite_of_aligned {a : Offset} (aligned : misaligned a = false) (v : Word) (s : State) :
    hostWrite a v 0xFF s = writeRegion (region a) v s := by
  simp [hostWrite, aligned]

/-- The registers that no write changes: ID, CAP and the results (20 R91, 10 R32). -/
def readOnlyRegs : List Reg := [.id, .cap, .cosOut, .sinOut, .dbgAcc, .dbgP1, .dbgP2, .dbgB]

theorem writeReg_of_readOnly (v : Word) (s : State) : ∀ r ∈ readOnlyRegs, writeReg r v s = .next (busError s) := by
  simp [readOnlyRegs, writeReg]

theorem hostWrite_readOnly_regOffset (v : Word) (s : State) :
    ∀ a ∈ readOnlyRegs.map regOffset, hostWrite a v 0xFF s = .next (busError s) :=
  List.forall_mem_map.2 fun r hr => (hostWrite_regOffset r v s).trans (writeReg_of_readOnly v s r hr)

theorem hostWrite_x {i : Nat} (hi : i < Config.tableW) (v : Word) (s : State) :
    hostWrite (BitVec.ofNat 17 (xAddr i)) v 0xFF s = .next (busError s) := by
  rw [hostWrite_of_aligned (misaligned_xAddr i), region_x hi, writeRegion]

theorem hostWrite_w {l i : Nat} (hl : l < Config.levels) (hi : i < Config.tableW) (v : Word) (s : State) :
    hostWrite (BitVec.ofNat 17 (wAddr l i)) v 0xFF s = .next (busError s) := by
  rw [hostWrite_of_aligned (misaligned_wAddr l i), region_w hl hi, writeRegion]

theorem hostWrite_reserved {a : Offset} (h : reservedOffset a.toNat) (v : Word) (s : State) :
    hostWrite a v 0xFF s = .next (respond 0 s) := by
  rw [hostWrite_of_aligned (misaligned_of_reservedOffset h), region_of_reservedOffset h, writeRegion]

/-- An input write while busy sets WBUSY and stores nothing (20 R96). -/
theorem hostWrite_input_busy {a : Offset} {v : Word} {s : State} {store : State → State}
    (h : hostWrite a v 0xFF s = .next (respond 0 (inputWrite store s))) (hb : s.status.busy = true) :
    hostWrite a v 0xFF s = .next (respond 0 { s with status := s.status.dropWrite }) := by
  rw [h, inputWrite_busy hb]

/-- An input write while idle stores (20 R91). -/
theorem hostWrite_input_idle {a : Offset} {v : Word} {s : State} {store : State → State}
    (h : hostWrite a v 0xFF s = .next (respond 0 (inputWrite store s))) (hb : s.status.busy = false) :
    hostWrite a v 0xFF s = .next (respond 0 (store s)) := by
  rw [h, inputWrite_idle hb]

/-- An idle write of S[j] stores its eight bytes and leaves every other byte (20 R91). -/
theorem hostWrite_sample_idle {s : State} (hb : s.status.busy = false) {j : Nat} (hj : j < Config.nMax) (v : Word) :
    ∃ m : Memory, hostWrite (BitVec.ofNat 17 (sAddr j)) v 0xFF s = .next (respond 0 { s with mem := m }) ∧
      m.readWord (sAddr j) = some v ∧ ∀ b, b < sAddr j ∨ sAddr j + 8 ≤ b → m.readByte b = s.mem.readByte b :=
  ⟨s.mem.writeWord (sAddr j) v, hostWrite_input_idle (hostWrite_sample hj v s) hb,
    Memory.readWord_writeWord _ _ v, fun _ => Memory.readByte_writeWord_other v⟩

end Sys2Proof.Machine

namespace Sys2Proof.Proofs

open Sys2Proof.Machine

/-- Settles O17: the read of each region by its lemma; of the registers, only the results need that no EVAL runs. -/
theorem hostReadReturnsTheLocation : Obligations.HostReadReturnsTheLocation := by
  unfold Obligations.HostReadReturnsTheLocation
  intro s
  refine ⟨fun a h => hostRead_misaligned h s,
    hostRead_regOffset (r := .id) rfl rfl, hostRead_regOffset (r := .cap) rfl capWord_eq,
    hostRead_regOffset (r := .cmd) rfl rfl, hostRead_regOffset (r := .status) rfl rfl,
    hostRead_regOffset (r := .ie) rfl (low3_eq_and s.ie), hostRead_regOffset (r := .omega) rfl rfl,
    hostRead_regOffset (r := .len) rfl (low32_eq_and s.len), hostRead_regOffset (r := .kind) rfl (low32_eq_and s.kind),
    fun idle => ?results,
    fun hg i v hi h => hostRead_x (Nat.lt_succ_of_le hi) hg h,
    fun hg l i v hl hi h => hostRead_w (Nat.lt_succ_of_le hl) (Nat.lt_succ_of_le hi) hg h,
    fun j v hj h => hostRead_s hj h, fun a h => hostRead_reserved h s⟩
  case results =>
    exact ⟨hostRead_regOffset (r := .cosOut) idle rfl, hostRead_regOffset (r := .sinOut) idle rfl,
      hostRead_regOffset (r := .dbgAcc) idle rfl, hostRead_regOffset (r := .dbgP1) idle rfl,
      hostRead_regOffset (r := .dbgP2) idle rfl, hostRead_regOffset (r := .dbgB) idle rfl⟩

/-- Settles O19: the write of each region by its lemma; OMEGA, LEN, KIND and S are one input write, dropped or stored by
BUSY. -/
theorem hostWriteActsByTarget : Obligations.HostWriteActsByTarget := by
  unfold Obligations.HostWriteActsByTarget
  intro s v
  rw [← low3_eq_and, ← low32_eq_and]
  refine ⟨fun a strb h => hostWrite_misaligned_or_partial h v s, hostWrite_readOnly_regOffset v s,
    fun i hi => hostWrite_x (Nat.lt_succ_of_le hi) v s,
    fun l i hl hi => hostWrite_w (Nat.lt_succ_of_le hl) (Nat.lt_succ_of_le hi) v s,
    hostWrite_regOffset .cmd v s, hostWrite_status v s, hostWrite_regOffset .ie v s,
    fun busy => ?dropped, fun idle => ?stored, fun a h => hostWrite_reserved h v s⟩
  case dropped =>
    exact ⟨hostWrite_input_busy (hostWrite_regOffset .omega v s) busy,
      hostWrite_input_busy (hostWrite_regOffset .len v s) busy,
      hostWrite_input_busy (hostWrite_regOffset .kind v s) busy,
      fun j hj => hostWrite_input_busy (hostWrite_sample hj v s) busy⟩
  case stored =>
    exact ⟨hostWrite_input_idle (hostWrite_regOffset .omega v s) idle,
      hostWrite_input_idle (hostWrite_regOffset .len v s) idle,
      hostWrite_input_idle (hostWrite_regOffset .kind v s) idle,
      fun j hj => hostWrite_sample_idle idle hj v⟩

end Sys2Proof.Proofs

end

section
/-! PROOFS. The statements of the family 30_encoding.md: the opcode map in both directions (30 R113-R115), `issue` (R117) and
the host script's expansions (R124). First the decoder as an `↔` for each answer, then `issue` case by case, then one theorem
for each obligation. -/

namespace Sys2Proof

/-! ## The fields of a command word as numbers -/

theorem rsvd_toNat (c : Word) : (rsvd c).toNat = c.toNat / 0x100 := by
  have := word_fields c
  have := (opc c).isLt
  omega

theorem opc_toNat (c : Word) : (opc c).toNat = c.toNat % 0x100 := by
  have := word_fields c
  have := (opc c).isLt
  omega

theorem rsvd_eq_zero_iff (c : Word) : rsvd c = 0 ↔ c.toNat < 0x100 := by
  rw [← BitVec.toNat_inj, rsvd_toNat]
  exact Nat.div_eq_zero_iff_lt (by decide)

/-- A word is a command's word exactly when its fields are the command's (30 R111). -/
theorem eq_encode_iff (c : Word) (i : Instr) : c = encode i ↔ rsvd c = 0 ∧ opc c = opcOf i := by
  constructor
  · rintro rfl
    exact ⟨rsvd_encode i, opc_encode i⟩
  · rintro ⟨hr, ho⟩
    exact word_ext (hr.trans (rsvd_encode i).symm) (ho.trans (opc_encode i).symm)

/-! ## What decodes to what -/

theorem decode_eq_ok_iff (c : Word) (i : Instr) : decode c = .ok i ↔ c = encode i := by
  rw [eq_encode_iff]
  rcases decode_cases c with ⟨hr, hd⟩ | ⟨hr, j, ho, hd⟩ | ⟨-, hn, hd⟩
  · simp only [hd, hr, reduceCtorEq, false_and]
  · simp only [hd, hr, ho, Except.ok.injEq, true_and]
    exact ⟨congrArg opcOf, opcOf_injective⟩
  · simp [hd, hn i]

theorem decode_eq_cmdRsvd_iff (c : Word) : decode c = .error .cmdRsvd ↔ rsvd c ≠ 0 := by
  rcases decode_cases c with ⟨hr, hd⟩ | ⟨hr, _, -, hd⟩ | ⟨hr, -, hd⟩ <;>
    simp only [hd, hr, ne_eq, not_true, not_false_iff, Except.error.injEq, reduceCtorEq]

theorem decode_eq_badOpcode_iff (c : Word) :
    decode c = .error .badOpcode ↔ rsvd c = 0 ∧ ∀ i, opc c ≠ opcOf i := by
  rcases decode_cases c with ⟨hr, hd⟩ | ⟨-, j, ho, hd⟩ | ⟨hr, hn, hd⟩
  · simp only [hd, hr, Except.error.injEq, reduceCtorEq, false_and]
  · simp only [hd, reduceCtorEq, false_iff]
    exact fun h => h.2 j ho
  · simp [hd, hr, hn]

/-- An operation code of no command, as a number (30 R114). -/
theorem opc_ne_opcOf_iff (c : Word) : (∀ i, opc c ≠ opcOf i) ↔
    c.toNat % 0x100 ≠ 0x00 ∧ c.toNat % 0x100 ≠ 0x01 ∧ c.toNat % 0x100 ≠ 0x02 ∧ c.toNat % 0x100 ≠ 0x5A := by
  have toNat (i : Instr) : opc c ≠ opcOf i ↔ c.toNat % 0x100 ≠ (opcOf i).toNat := by
    rw [← opc_toNat, ne_eq, ne_eq, BitVec.toNat_inj]
  simp only [toNat]
  constructor
  · exact fun h => ⟨h .nop, h .eval, h .gen, h .srst⟩
  · rintro ⟨h0, h1, h2, h3⟩ (_ | _ | _ | _) <;> assumption

/-- Eight bytes hold a word exactly when they are its lanes (20 R86). -/
theorem bytesWord_eq_some_iff (bs : List Byte) (v : Word) :
    Machine.bytesWord bs = some v ↔ bs = Machine.wordBytes v := by
  constructor
  · intro h
    unfold Machine.bytesWord at h
    split at h
    · exact (Machine.bytesWord_eq_some h).symm
    · cases h
  · rintro rfl
    exact Machine.bytesWord_wordBytes v

theorem decodeBytes_eq_ok_iff (bs : List Byte) (i : Instr) :
    decodeBytes bs = .ok i ↔ ∃ c, Machine.bytesWord bs = some c ∧ decode c = .ok i := by
  unfold decodeBytes
  cases Machine.bytesWord bs with
  | none => simp
  | some c => cases h : decode c <;> simp [h]

end Sys2Proof

namespace Sys2Proof.Machine

/-! ## `issue`, case by case -/

theorem issue_encode (i : Instr) (s : State) : issue (encode i) s = exec i s := by
  rw [issue, (decode_eq_ok_iff _ i).2 rfl]

theorem issue_of_error {c : Word} {r : Reserved} (h : decode c = .error r) (s : State) :
    issue c s = .next (unlessBusy (reject r.code) s) := by
  simp [issue, h, issueReserved]

/-- While busy every command but SRST is dropped (42 R193). -/
theorem exec_busy {i : Instr} {s : State} (hi : i ≠ .srst) (busy : s.status.busy = true) :
    exec i s = .next (dropCommand s) := by
  rw [exec_eq]
  cases i with
  | srst => exact absurd rfl hi
  | nop | eval | gen => exact congrArg Host.Outcome.next (by rw [effect, unlessBusy_busy busy])

/-- While busy every word but SRST's is dropped, reserved words too (30 R114, R117). -/
theorem issue_busy {c : Word} {s : State} (hc : c ≠ encode .srst) (busy : s.status.busy = true) :
    issue c s = .next (dropCommand s) := by
  cases h : decode c with
  | ok i =>
    obtain rfl := (decode_eq_ok_iff c i).1 h
    rw [issue_encode, exec_busy (fun hi => hc (congrArg encode hi)) busy]
  | error r => rw [issue_of_error h, unlessBusy_busy busy]

/-- While idle a reserved word is rejected with its code (30 R114, R115). -/
theorem issue_reserved_idle {c : Word} {r : Reserved} {s : State} (h : decode c = .error r)
    (idle : s.status.busy = false) : issue c s = .next (reject r.code s) := by
  rw [issue_of_error h, unlessBusy_idle idle]

/-! ## The host script -/

/-- `ldS` from S[j] on, sample by sample (30 R124). -/
theorem ldSOps_eq_map (j : Nat) (vs : List Word) :
    ldSOps j vs = (List.range vs.length).map (fun k => wrOp (.s (j + k)) (vs.getD k 0)) := by
  induction vs generalizing j with
  | nil => rfl
  | cons v vs ih =>
    rw [ldSOps, ih, List.length_cons, List.range_succ_eq_map, List.map_cons, List.map_map]
    simp [Function.comp_def, Nat.add_assoc, Nat.add_comm 1]

end Sys2Proof.Machine

namespace Sys2Proof.Proofs

open Sys2Proof.Machine

/-- Settles O1: each clause is the decoder's `↔` for that answer, with the fields read as numbers. -/
theorem decodeAndEncodeAgree : Obligations.DecodeAndEncodeAgree := by
  unfold Obligations.DecodeAndEncodeAgree
  refine ⟨decode_eq_ok_iff, fun c => ?reservedBits, fun c => ?reservedOpcode, fun bs i => ?bytes⟩
  case reservedBits => rw [decode_eq_cmdRsvd_iff, ne_eq, rsvd_eq_zero_iff, not_lt]
  case reservedOpcode =>
    rw [decode_eq_badOpcode_iff, rsvd_eq_zero_iff, opc_ne_opcOf_iff]
    exact and_congr_right fun h => by rw [Nat.mod_eq_of_lt h]
  case bytes => simp [decodeBytes_eq_ok_iff, decode_eq_ok_iff, bytesWord_eq_some_iff]

/-- Settles O14: BUSY decides for every word but SRST's; while idle the first test that holds names the word, or the class
that rejects it. -/
theorem issueFollowsItsOrder : Obligations.IssueFollowsItsOrder := by
  unfold Obligations.IssueFollowsItsOrder
  intro c s
  have named (i : Instr) (hr : c.toNat / 0x100 = 0) (ho : c.toNat % 0x100 = (opcOf i).toNat) : c = encode i :=
    (eq_encode_iff c i).2 ⟨(rsvd_eq_zero_iff c).2 (by omega), BitVec.eq_of_toNat_eq ((opc_toNat c).trans ho)⟩
  split_ifs with srst busy hr nop eval gen
  · exact srst ▸ issue_encode .srst s
  · exact issue_busy srst busy
  all_goals have idle : s.status.busy = false := Bool.eq_false_iff.2 busy
  · exact issue_reserved_idle ((decode_eq_cmdRsvd_iff c).2 (by rw [ne_eq, rsvd_eq_zero_iff]; omega)) idle
  all_goals have hr := not_not.1 hr
  · rw [named .nop hr nop, issue_encode]
  · rw [named .eval hr eval, issue_encode]
  · rw [named .gen hr gen, issue_encode]
  · have noSrst : c.toNat % 0x100 ≠ 0x5A := fun h => srst (named .srst hr h)
    exact issue_reserved_idle ((decode_eq_badOpcode_iff c).2
      ⟨(rsvd_eq_zero_iff c).2 (by omega), (opc_ne_opcOf_iff c).2 ⟨nop, eval, gen, noSrst⟩⟩) idle

/-- Settles O3: all but `ldS` by evaluation, `ldS` by its expansion sample by sample. -/
theorem pseudoInstructionsExpand : Obligations.PseudoInstructionsExpand := by
  unfold Obligations.PseudoInstructionsExpand
  refine ⟨fun _ _ => rfl, fun _ _ => rfl, fun _ _ _ => rfl, by decide, by decide, by decide, by decide, by decide,
    by decide, fun vs _ => ?ldS⟩
  case ldS => simp [Stmt.ops, ldSOps_eq_map, wrOp, Target.offset, sAddr]

end Sys2Proof.Proofs

end

section
/-! PROOFS. The statements of the family 40_evaluator.md: what EVAL checks and what its acceptance writes (40 R131-R134), and
the engine's steps of a running EVAL (R136-R139). First the operands and their checks, then `EVAL()` case by case and the
engine's steps, then one theorem for each obligation. -/

namespace Sys2Proof.Machine

/-! ## The operands and their checks -/

theorem lenOperand_eq (s : State) : lenOperand s = s.len.toNat % 2 ^ 32 := by
  simp [lenOperand, BitVec.extractLsb'_toNat]

theorem isFinite_of_omegaLegal {w : Word} (h : omegaLegal w) : F64.isFinite w = true := by
  rcases h with rfl | h
  · decide
  · exact F64.isFinite_iff.2 (by unfold F64.infMag; omega)

/-- On the number line the legal frequencies are the words from the zeros on to below TWO_PI64: of the words with a sign bit
only -0.0 is not below the zeros (40 R131). -/
theorem omegaLegal_iff_orderKey (w : Word) :
    omegaLegal w ↔ 0 ≤ F64.orderKey w ∧ F64.orderKey w < 0x401921FB54442D18 := by
  have hlt := w.isLt
  rw [omegaLegal, ← BitVec.toNat_inj, F64.orderKey_eq, F64.signBit_eq]
  by_cases neg : 2 ^ 63 ≤ w.toNat
  · simp only [neg, decide_true, F64.signed, if_true, BitVec.reduceToNat]
    omega
  · simp only [neg, decide_false, F64.signed, BitVec.reduceToNat, Bool.false_eq_true, if_false]
    omega

/-- The range check is the legality of the frequency; a NaN fails it and is not legal (40 R131). -/
theorem omegaInRange_iff (w : Word) : omegaInRange w = true ↔ omegaLegal w := by
  have zero : F64.isNaN Config.zero = false ∧ F64.orderKey Config.zero = 0 := by decide
  have twoPi : F64.isNaN Config.twoPi64 = false ∧ F64.orderKey Config.twoPi64 = 0x401921FB54442D18 := by decide
  have noNaN : omegaLegal w → F64.isNaN w = false := fun h => F64.isNaN_of_isFinite (isFinite_of_omegaLegal h)
  have checks : omegaInRange w = true ↔
      F64.isNaN w = false ∧ 0 ≤ F64.orderKey w ∧ F64.orderKey w < 0x401921FB54442D18 := by
    cases h : F64.isNaN w <;> simp [omegaInRange, F64.ge, F64.le, F64.lt, zero, twoPi, h]
  rw [checks, ← omegaLegal_iff_orderKey]
  exact and_iff_right_of_imp noNaN

/-! ## `EVAL()` while idle, case by case -/

theorem exec_eval_idle {s : State} (idle : s.status.busy = false) : exec .eval s = .next (evalCommand s) := by
  rw [exec_eq, effect, unlessBusy_idle idle]

theorem evalCommand_of_len_zero {s : State} (h : lenOperand s = 0) : evalCommand s = rejectEval 3 s := by
  rw [evalCommand, if_pos h]

theorem evalCommand_of_len_above {s : State} (h : Config.nMax < lenOperand s) : evalCommand s = rejectEval 4 s := by
  rw [evalCommand, if_neg (Nat.ne_zero_of_lt h), if_pos h]

/-- With the sample count in range, the frequency decides (40 R131). -/
theorem evalCommand_of_len_ok {s : State} (h1 : 1 ≤ lenOperand s) (h2 : lenOperand s ≤ Config.nMax) :
    evalCommand s = if omegaInRange s.omega then acceptEval (lenOperand s) s.omega s else rejectEval 5 s := by
  rw [evalCommand, if_neg (Nat.ne_zero_of_lt h1), if_neg (Nat.not_lt.2 h2), omegaOperand]
  cases omegaInRange s.omega <;> rfl

theorem evalCommand_of_omega_illegal {s : State} (h1 : 1 ≤ lenOperand s) (h2 : lenOperand s ≤ Config.nMax)
    (h : ¬ omegaLegal s.omega) : evalCommand s = rejectEval 5 s := by
  rw [evalCommand_of_len_ok h1 h2, if_neg (mt (omegaInRange_iff _).1 h)]

theorem evalCommand_of_legal {s : State} (h1 : 1 ≤ lenOperand s) (h2 : lenOperand s ≤ Config.nMax)
    (h : omegaLegal s.omega) : evalCommand s = acceptEval (lenOperand s) s.omega s := by
  rw [evalCommand_of_len_ok h1 h2, if_pos ((omegaInRange_iff _).2 h)]

/-! ## The engine's steps of a running EVAL -/

/-- An iteration over a written sample: the regime's recursion from the registers before the step, and SEQ (40 R135). -/
theorem engineStep_evalIt {s : State} {k : Nat} {reg : Regime} {x : Word} (hseq : s.seq = .evalIt k)
    (hreg : s.eReg = reg) (hx : s.mem.readWord (sAddr (s.eN - k)) = some x) :
    engineStep s = { s with
      dbgAcc := (iterate reg s.dbgB x (recursionOf s)).acc
      dbgP1 := (iterate reg s.dbgB x (recursionOf s)).p1
      dbgP2 := (iterate reg s.dbgB x (recursionOf s)).p2
      seq := nextEval s.eN k } := by
  simp only [engineStep, hseq, hreg, evalIter, readEntry_of_some hx]

theorem engineStep_evalFin {s : State} (hseq : s.seq = .evalFin) : engineStep s = evalFinal s := by
  rw [engineStep, hseq]

end Sys2Proof.Machine

namespace Sys2Proof.Proofs

open Sys2Proof.Machine

/-- Settles O25: each clause is one case of `EVAL()` while idle, with n and the range of ω read as numbers. -/
theorem evalChecksItsOperands : Obligations.EvalChecksItsOperands := by
  unfold Obligations.EvalChecksItsOperands
  intro s idle
  simp only [← lenOperand_eq, exec_eval_idle idle]
  refine ⟨fun h => ?zero, fun h => ?above, fun h1 h2 h => ?illegal, fun h1 h2 h => ?accepted⟩
  case zero => rw [evalCommand_of_len_zero h]; rfl
  case above => rw [evalCommand_of_len_above h]; rfl
  case illegal => rw [evalCommand_of_omega_illegal h1 h2 h]; rfl
  case accepted => exact ⟨_, congrArg Host.Outcome.next (evalCommand_of_legal h1 h2 h), rfl, rfl⟩

/-- Settles O26: the accepting case of `EVAL()`; in each regime the coefficient and REGIME are those of the rule. -/
theorem evalAcceptance : Obligations.EvalAcceptance := by
  unfold Obligations.EvalAcceptance
  intro s idle h1 h2 h
  rw [← lenOperand_eq] at h1 h2 ⊢
  rw [exec_eval_idle idle, evalCommand_of_legal h1 h2 h, acceptEval]
  dsimp only
  cases regimeOf s.omega with
  | low | mid | high => rfl

/-- Settles O29: the engine's step with the LOW recursion. -/
theorem lowIteration : Obligations.LowIteration := by
  unfold Obligations.LowIteration
  exact fun s k x hseq low hx => engineStep_evalIt hseq low hx

/-- Settles O30: the engine's step with the MID recursion. -/
theorem midIteration : Obligations.MidIteration := by
  unfold Obligations.MidIteration
  exact fun s k x hseq mid hx => engineStep_evalIt hseq mid hx

/-- Settles O31: the engine's step with the HIGH recursion. -/
theorem highIteration : Obligations.HighIteration := by
  unfold Obligations.HighIteration
  exact fun s k x hseq high hx => engineStep_evalIt hseq high hx

/-- Settles O33: the engine's step at EVAL_FIN is the final step. -/
theorem evalFinalCombination : Obligations.EvalFinalCombination := by
  unfold Obligations.EvalFinalCombination
  exact fun s hseq => engineStep_evalFin hseq

end Sys2Proof.Proofs

end

section
/-! PROOFS. The statements of the family 41_generator.md: GEN's acceptance (41 R161), the levels (R162), the cosine series
(R164) and the engine's steps of a running GEN (R163-R168, R170). First what each of them answers, then one theorem for
each obligation. -/

namespace Sys2Proof.Machine

/-! ## `GEN()` while idle -/

theorem exec_gen_idle {s : State} (idle : s.status.busy = false) : exec .gen s = .next (acceptGen s) := by
  rw [exec_eq, effect, unlessBusy_idle idle]

theorem kindOperand_eq (s : State) : kindOperand s = BitVec.ofNat 32 s.kind.toNat := by
  rw [kindOperand, BitVec.extractLsb', Nat.shiftRight_zero]

theorem selected_eq_false {k : BitVec 32} (h : ¬ (k = 1 ∨ k = 2)) : selected k = false :=
  Bool.eq_false_iff.2 (mt selected_eq.1 h)

/-- A selected kind is its own TKIND (10 R41). -/
theorem tkindOf_eq_ite (k : BitVec 32) : tkindOf k = if k = 1 then 1 else if k = 2 then 2 else 0 := by
  by_cases h1 : k = 1
  · subst h1; rfl
  by_cases h2 : k = 2
  · subst h2; rfl
  rw [if_neg h1, if_neg h2, tkindOf_unselected (selected_eq_false (not_or.2 ⟨h1, h2⟩))]

theorem not_selected_eq_ite (k : BitVec 32) : (!selected k) = if k = 1 ∨ k = 2 then false else true := by
  by_cases h : k = 1 ∨ k = 2
  · rw [if_pos h, selected_eq.2 h, Bool.not_true]
  · rw [if_neg h, selected_eq_false h, Bool.not_false]

/-- The zero fill reaches X and W only (41 R161). -/
theorem readByte_zeroTables_other (m : Memory) {a : Nat} (hx : ¬ (0x1000 ≤ a ∧ a < 0x1808))
    (hw : ¬ (0x8000 ≤ a ∧ a < 0x10000 ∧ a % 0x1000 < 0x808)) : (zeroTables m).readByte a = m.readByte a := by
  rw [readByte_zeroTables, if_neg (not_or.2 ⟨hx, hw⟩)]

/-! ## The cosine series -/

theorem series_zero (t : Word) : series t 0 = F64.add Config.zero (seriesTerm t 0) := rfl

/-- One more even k adds its term last (41 R164). -/
theorem series_succ (t : Word) (m : Nat) :
    series t (2 * (m + 1)) = F64.add (series t (2 * m)) (seriesTerm t (2 * (m + 1))) := by
  have count (j : Nat) : 2 * j / 2 = j := Nat.mul_div_cancel_left j two_pos
  rw [series, series, count, count, List.range_succ (n := m + 1), List.foldl_append, List.foldl_cons, List.foldl_nil]

/-- +0.0 times a finite word is a zero (00 R12). -/
theorem mul_i2f_zero {t : Word} (h : F64.isFinite t = true) : ∃ neg, F64.mul (F64.i2f 0) t = F64.withSign neg 0 := by
  obtain ⟨m, e, ht⟩ := F64.unpack_fin_of_finite h
  have hz : F64.unpack (F64.i2f 0) = .fin false 0 (-1074) := by decide
  exact ⟨false != F64.signBit t, by simp [F64.mul, hz, ht, F64.roundDyadic, F64.roundRat, F64.roundMag]⟩

/-- FCOS of either zero is 1.0 (00 R17). -/
theorem fcos_signedZero (neg : Bool) : F64.fcos (F64.withSign neg 0) = Config.one := by cases neg <;> decide

/-- The term of k = 0 is 2.0·cos(0)/1 (41 R164). -/
theorem seriesTerm_zero {t : Word} (h : F64.isFinite t = true) : seriesTerm t 0 = Config.two := by
  obtain ⟨neg, hm⟩ := mul_i2f_zero h
  have quotient : F64.div (F64.mul Config.two Config.one) (F64.i2f 1) = Config.two := by decide
  rw [seriesTerm, if_pos rfl, Nat.cast_zero, hm, fcos_signedZero]
  exact quotient

/-! ## The engine's steps of a running GEN -/

theorem engineStep_genPt {s : State} {l i : Nat} (hseq : s.seq = .genPt l i) :
    engineStep s = { s with mem := (pointWrites l i s).mem, seq := nextPoint l i } := by
  rw [engineStep, hseq]
  exact genPoint_eq l i s

theorem engineStep_genFin {s : State} (hseq : s.seq = .genFin) : engineStep s = genFinal s := by
  rw [engineStep, hseq]

theorem pointWrites_of_sine {s : State} (h : s.gKind = 1) (l i : Nat) : pointWrites l i s = writeSine l i s := by
  rw [pointWrites, h, if_neg (by decide), if_pos rfl]

theorem pointWrites_of_cosine {s : State} (h : s.gKind = 2) (l i : Nat) : pointWrites l i s = writeCosine l i s := by
  rw [pointWrites, if_pos h]

/-- An unselected kind writes nothing (41 R168). -/
theorem pointWrites_of_unselected {s : State} (h1 : s.gKind ≠ 1) (h2 : s.gKind ≠ 2) (l i : Nat) :
    pointWrites l i s = s := by
  rw [pointWrites, if_neg h2, if_neg h1]

/-- X stands wholly below W (20 R83, R84). -/
theorem xAddr_add_le_wAddr {i : Nat} (hi : i ≤ 256) (l j : Nat) : xAddr i + 8 ≤ wAddr l j := by
  unfold xAddr wAddr
  omega

/-- A grid point's two stores each read back: they share no byte. -/
theorem readWord_writeW_writeX {i : Nat} (hi : i ≤ 256) (l : Nat) (x w : Word) (s : State) :
    (writeW l i w (writeX i x s)).mem.readWord (xAddr i) = some x ∧
      (writeW l i w (writeX i x s)).mem.readWord (wAddr l i) = some w := by
  refine ⟨?_, Memory.readWord_writeWord _ _ _⟩
  exact (Memory.readWord_writeWord_other w (.inl (xAddr_add_le_wAddr hi l i))).trans (Memory.readWord_writeWord _ _ _)

/-- Whatever the kind, a grid point leaves every byte outside X[i] and W[l][i] (41 R163). -/
theorem readByte_pointWrites_other {l i a : Nat} (s : State) (hx : ¬ (xAddr i ≤ a ∧ a < xAddr i + 8))
    (hw : ¬ (wAddr l i ≤ a ∧ a < wAddr l i + 8)) : (pointWrites l i s).mem.readByte a = s.mem.readByte a := by
  rcases pointWrites_mem l i s with same | ⟨x, w, -, -, stored⟩
  · rw [same]
  · rw [stored, Memory.readByte_writeWord_other w (by omega), Memory.readByte_writeWord_other x (by omega)]

end Sys2Proof.Machine

namespace Sys2Proof.Proofs

open Sys2Proof.Machine

/-- Settles O39: the memory after `GEN()` is the zero fill; the status is that of the kind read from KIND[31:0]. -/
theorem genAcceptance : Obligations.GenAcceptance := by
  unfold Obligations.GenAcceptance
  intro s idle k
  refine ⟨zeroTables s.mem, ?next, fun l i hl hi => ?w, fun i hi => ?x, fun a hx hw => ?other⟩
  case next =>
    rw [exec_gen_idle idle, acceptGen, kindOperand_eq, Status.acceptGen, tkindOf_eq_ite, not_selected_eq_ite]
  case w => exact readWord_zeroTables_w _ (Nat.lt_succ_of_le hl) (Nat.lt_succ_of_le hi)
  case x => exact readWord_zeroTables_x _ (Nat.lt_succ_of_le hi)
  case other => exact readByte_zeroTables_other _ hx hw

/-- Settles O40: the eight levels, evaluated. -/
theorem levelParameters : Obligations.LevelParameters := by
  unfold Obligations.LevelParameters
  decide

/-- Settles O41: the series is a fold over the even k, and its term of k is `seriesTerm`. -/
theorem seriesAccumulates : Obligations.SeriesAccumulates := by
  unfold Obligations.SeriesAccumulates
  exact fun t => ⟨series_zero t, seriesTerm_zero, series_succ t⟩

/-- Settles O42: the memory after the step is that of `pointWrites`, read for each kind. -/
theorem genPointStep : Obligations.GenPointStep := by
  unfold Obligations.GenPointStep
  intro s l i hseq hl hi n bound half t sum xAt wAt
  have hi' : i ≤ 256 := hi.trans (halfPoints_le hl)
  refine ⟨(pointWrites l i s).mem, engineStep_genPt hseq, fun sine => ?sine, fun cosine => ?cosine,
    fun h1 h2 => ?unselected, fun a hx hw => ?other⟩
  case sine =>
    rw [pointWrites_of_sine sine]
    exact readWord_writeW_writeX hi' l _ _ s
  case cosine =>
    rw [pointWrites_of_cosine cosine]
    exact readWord_writeW_writeX hi' l _ _ s
  case unselected => rw [pointWrites_of_unselected h1 h2]
  case other => exact readByte_pointWrites_other s hx hw

/-- Settles O43: the engine's step at GEN_FIN is the final step. -/
theorem genFinalStep : Obligations.GenFinalStep := by
  unfold Obligations.GenFinalStep
  exact fun s hseq => engineStep_genFin hseq

end Sys2Proof.Proofs

end

section
/-! PROOFS. The statements of the family 42_control.md: NOP while idle (42 R190), reserved words while idle (R192) and command
words while busy (R193). First which words are reserved, with their codes, and the write of CMD; then one theorem for each
obligation. -/

namespace Sys2Proof

/-- A word of no command is reserved: code 2 when bits 63:8 are not all 0, code 1 otherwise (30 R114, R115). -/
theorem decode_eq_error_of_ne_encode {c : Word} (hc : ∀ i, c ≠ encode i) :
    ∃ r, decode c = .error r ∧ r.code = if 0x100 ≤ c.toNat then 2 else 1 := by
  cases h : decode c with
  | ok i => exact absurd ((decode_eq_ok_iff c i).1 h) (hc i)
  | error r =>
    refine ⟨r, rfl, ?_⟩
    cases r with
    | cmdRsvd =>
      have above := (decode_eq_cmdRsvd_iff c).1 h
      rw [ne_eq, rsvd_eq_zero_iff, Nat.not_lt] at above
      rw [if_pos above, Reserved.code]
    | badOpcode =>
      have below := ((decode_eq_badOpcode_iff c).1 h).1
      rw [rsvd_eq_zero_iff] at below
      rw [if_neg (Nat.not_le.2 below), Reserved.code]

end Sys2Proof

namespace Sys2Proof.Machine

theorem exec_nop_idle {s : State} (idle : s.status.busy = false) :
    exec .nop s = .next { s with status := s.status.acceptNop } := by
  rw [exec_eq, effect, unlessBusy_idle idle]

/-- A full write of CMD answers OKAY and issues its word (20 R91, 30 R117). -/
theorem hostWrite_cmd (c : Word) (s : State) : hostWrite (regOffset .cmd) c 0xFF s = issue c (respond 0 s) :=
  hostWrite_regOffset .cmd c s

end Sys2Proof.Machine

namespace Sys2Proof.Proofs

open Sys2Proof.Machine

/-- Settles O13: while idle NOP is its acceptance. -/
theorem nopSetsDone : Obligations.NopSetsDone := by
  unfold Obligations.NopSetsDone
  exact fun s idle => exec_nop_idle idle

/-- Settles O15: the four excluded words are those of the commands, so the word is reserved, and the issue rejects it with
the code of its kind. -/
theorem reservedWordsAreRejected : Obligations.ReservedWordsAreRejected := by
  unfold Obligations.ReservedWordsAreRejected
  intro c s idle noNop noEval noGen noSrst
  have noCommand : ∀ i, c ≠ encode i
    | .nop => noNop
    | .eval => noEval
    | .gen => noGen
    | .srst => noSrst
  obtain ⟨r, reserved, code⟩ := decode_eq_error_of_ne_encode noCommand
  rw [← code]
  exact (hostWrite_cmd c s).trans (issue_reserved_idle reserved idle)

/-- Settles O16: while busy the issue drops every word but SRST's, and the meaning of every command but SRST drops it. -/
theorem commandsWhileBusyAreDropped : Obligations.CommandsWhileBusyAreDropped := by
  unfold Obligations.CommandsWhileBusyAreDropped
  exact ⟨fun c s busy hc => (hostWrite_cmd c s).trans (issue_busy hc busy), fun i s busy hi => exec_busy hi busy⟩

end Sys2Proof.Proofs

end

section
/-! PROOFS. The statement of the family 60_exceptions.md: which transactions get an error response (60 R205). First which offsets
are read-only, as their region says it, then the response of a write that is let through, then the theorem for the obligation. -/

namespace Sys2Proof.Machine

/-! ## The read-only offsets -/

/-- The regions that no write changes: ID, CAP, the results, X and W (20 R91). -/
def Region.readOnly : Region → Prop
  | .reg r => r ∈ readOnlyRegs
  | .x _ => True
  | .w _ _ => True
  | .s _ => False
  | .reserved => False

/-- The registers stand at every eighth offset from 0 on, in their order (10 R32). -/
theorem regOffset_regList : ∀ k : Fin regList.length, regOffset regList[k] = BitVec.ofNat 17 (8 * k) := by decide

/-- A register stands at every aligned offset below 0x70 (10 R32). -/
theorem exists_regOffset_eq {a : Offset} (h8 : a.toNat % 8 = 0) (h : a.toNat < 0x70) : ∃ r, regOffset r = a := by
  have hk : a.toNat / 8 < regList.length := Nat.div_lt_of_lt_mul h
  refine ⟨_, (regOffset_regList ⟨_, hk⟩).trans ?_⟩
  rw [Nat.mul_div_cancel' (Nat.dvd_of_mod_eq_zero h8), BitVec.ofNat_toNat, BitVec.setWidth_eq]

/-- An aligned offset where nothing stands is a reserved one, the converse of `region_of_reservedOffset`: below 0x1000 no
register stands there, and above that it lies past a memory's last entry (20 R81, R84, R85). -/
theorem reservedOffset_of_region {a : Offset} (h8 : a.toNat % 8 = 0) (h : region a = .reserved) :
    reservedOffset a.toNat := by
  refine ⟨h8, ?_⟩
  have noReg : 0x70 ≤ a.toNat := by
    by_contra below
    obtain ⟨r, rfl⟩ := exists_regOffset_eq h8 (Nat.not_le.1 below)
    simp at h
  have := a.isLt
  unfold region Config.nMax at h
  simp only at h
  split at h
  · omega
  split at h
  · cases h
  split at h
  · omega
  split at h
  · split at h
    · cases h
    · omega
  split at h
  · split at h
    · cases h
    · omega
  · omega

/-- At an aligned offset the read-only locations are those of the read-only regions (20 R91). -/
theorem region_readOnly_iff {a : Offset} (h8 : a.toNat % 8 = 0) : (region a).readOnly ↔ readOnlyOffset a.toNat := by
  cases h : region a with
  | reg r =>
    rw [region_eq_reg h, Region.readOnly, readOnlyOffset]
    cases r <;> decide
  | x i => exact iff_of_true trivial (region_table_readOnly h8 (.inl ⟨i, h⟩))
  | w l i => exact iff_of_true trivial (region_table_readOnly h8 (.inr ⟨l, i, h⟩))
  | s j =>
    obtain ⟨offset, inRange⟩ := region_eq_s h h8
    exact iff_of_false id (by unfold readOnlyOffset; omega)
  | reserved =>
    obtain ⟨-, free⟩ := reservedOffset_of_region h8 h
    exact iff_of_false id (by unfold readOnlyOffset; omega)

/-! ## No command touches the response -/

theorem unlessBusy_lastRsp {run : State → State} {s : State} (h : (run s).lastRsp = s.lastRsp) :
    (unlessBusy run s).lastRsp = s.lastRsp := by
  cases hb : s.status.busy
  · rw [unlessBusy_idle hb, h]
  · rw [unlessBusy_busy hb, dropCommand_lastRsp]

theorem evalCommand_lastRsp (s : State) : (evalCommand s).lastRsp = s.lastRsp := by
  unfold evalCommand
  split_ifs <;> rfl

/-- Neither a dropped, a rejected nor a running command answers for the transaction that issues it (20 R91, 30 R117). -/
theorem effect_lastRsp (i : Instr) (s : State) : (effect i s).lastRsp = s.lastRsp := by
  cases i with
  | nop => exact unlessBusy_lastRsp rfl
  | eval => exact unlessBusy_lastRsp (evalCommand_lastRsp s)
  | gen => exact unlessBusy_lastRsp rfl
  | srst => exact resetCore_lastRsp s

/-- The write of a command word is answered as any other write, whatever the word: a rejection is no error response
(60 R202, R205). -/
theorem issue_keeps_lastRsp (c : Word) (s : State) : ∃ t, issue c s = .next t ∧ t.lastRsp = s.lastRsp := by
  rcases issue_cases c s with ⟨i, -, e⟩ | ⟨r, -, e⟩
  · exact ⟨_, e, effect_lastRsp i s⟩
  · exact ⟨_, e, unlessBusy_lastRsp (reject_lastRsp r.code s)⟩

/-! ## Error and OKAY responses, by region -/

theorem writeRegion_of_readOnly {r : Region} (h : r.readOnly) (v : Word) (s : State) :
    writeRegion r v s = .next (busError s) := by
  cases r with
  | reg r => exact writeReg_of_readOnly v s r h
  | x i => rfl
  | w l i => rfl
  | s j => exact h.elim
  | reserved => exact h.elim

/-- A register that is not read-only answers OKAY with data 0 (20 R91). -/
theorem writeReg_okay {r : Reg} (h : r ∉ readOnlyRegs) (v : Word) (s : State) :
    ∃ t, writeReg r v s = .next t ∧ t.lastRsp = some { err := false, rdata := 0 } := by
  cases r with
  | cmd => exact issue_keeps_lastRsp v (respond 0 s)
  | status | ie | omega | len | kind => exact ⟨_, rfl, respond_lastRsp 0 _⟩
  | id | cap | cosOut | sinOut | dbgAcc | dbgP1 | dbgP2 | dbgB => exact absurd (by decide) h

/-- A region that is not read-only answers OKAY with data 0 (20 R91). -/
theorem writeRegion_okay {r : Region} (h : ¬ r.readOnly) (v : Word) (s : State) :
    ∃ t, writeRegion r v s = .next t ∧ t.lastRsp = some { err := false, rdata := 0 } := by
  cases r with
  | reg r => exact writeReg_okay h v s
  | x i => exact absurd trivial h
  | w l i => exact absurd trivial h
  | s j => exact ⟨_, rfl, respond_lastRsp 0 _⟩
  | reserved => exact ⟨_, rfl, respond_lastRsp 0 s⟩

theorem misaligned_eq_false {a : Offset} (h8 : a.toNat % 8 = 0) : misaligned a = false := by
  rw [Bool.eq_false_iff, ne_eq, misaligned_iff]
  exact not_not_intro h8

/-- The three cases of 60 R205 for a write; the first two stand before the region is looked at (60 R208). -/
theorem hostWrite_error {a : Offset} {strb : BitVec 8} (h : a.toNat % 8 ≠ 0 ∨ strb ≠ 0xFF ∨ readOnlyOffset a.toNat)
    (v : Word) (s : State) : hostWrite a v strb s = .next (busError s) := by
  by_cases early : a.toNat % 8 ≠ 0 ∨ strb ≠ 0xFF
  · exact hostWrite_misaligned_or_partial early v s
  · obtain ⟨h8, rfl⟩ : a.toNat % 8 = 0 ∧ strb = 0xFF := by simpa using early
    have readOnlyAt : readOnlyOffset a.toNat := by simpa [h8] using h
    rw [hostWrite_of_aligned (misaligned_eq_false h8),
      writeRegion_of_readOnly ((region_readOnly_iff h8).2 readOnlyAt)]

/-- Every other write answers OKAY with data 0 (20 R91, 60 R205). -/
theorem hostWrite_okay {a : Offset} (h8 : a.toNat % 8 = 0) (h : ¬ readOnlyOffset a.toNat) (v : Word) (s : State) :
    ∃ t, hostWrite a v 0xFF s = .next t ∧ t.lastRsp = some { err := false, rdata := 0 } := by
  rw [hostWrite_of_aligned (misaligned_eq_false h8)]
  exact writeRegion_okay (mt (region_readOnly_iff h8).1 h) v s

/-- An aligned read answers OKAY (20 R90, 60 R205). -/
theorem hostRead_okay {a : Offset} (h8 : a.toNat % 8 = 0) (s : State) :
    ∃ v, (hostRead a s).lastRsp = some { err := false, rdata := v } := by
  rcases hostRead_cases a s with ⟨misalignedAt, -⟩ | ⟨-, v, n, -, e⟩
  · exact absurd h8 ((misaligned_iff a).1 misalignedAt)
  · exact ⟨v, by rw [e, respond_lastRsp]⟩

end Sys2Proof.Machine

namespace Sys2Proof.Proofs

open Sys2Proof.Machine

/-- Settles O20: the error response is `busError`, answered in the three cases; every other read answers its value and every
other write data 0. -/
theorem busErrorsAreTheThreeCases : Obligations.BusErrorsAreTheThreeCases := by
  unfold Obligations.BusErrorsAreTheThreeCases
  intro s error
  refine ⟨fun a => ⟨fun h => hostRead_misaligned h s, fun h8 => hostRead_okay h8 s⟩,
    fun a v strb => ⟨fun h => hostWrite_error h v s, fun h8 full writable => ?okay⟩⟩
  case okay =>
    subst full
    exact hostWrite_okay h8 writable v s

end Sys2Proof.Proofs

end

section
/-! PROOFS. The statements about one step of the whole machine: which turn runs what (20 R100), the two resets (10 R65,
42 R191, 70 R230-R232) and the invariant that every step keeps. First the turns, then one theorem for each obligation. -/

namespace Sys2Proof.Machine

/-! ## The turns keep the invariant -/

/-- The schedule is not MT-CORE's: it may change under a held reset too. -/
theorem inv_turns {s : State} (h : s.Inv) (ts : List Turn) : ({ s with turns := ts } : State).Inv :=
  { h with inReset := fun low => congrArg (fun u : State => { u with turns := ts }) (h.inReset low) }

/-- No engine step and no transaction happens while `rst_n` is low, so what is said of a running machine needs no more
than the pin high. -/
theorem hostTurn_inv {s t : State} (h : s.Inv) (high : s.rstN = true) (e : hostTurn s = .next t) : t.Inv := by
  have queue (ops : List HostOp) : ({ s with host := ops } : State).Inv :=
    inv_environment h high ops s.turns s.lastRsp s.names s.draws
  unfold hostTurn at e
  split at e
  case h_1 => cases e; exact h
  case h_2 a v strb rest _ => exact hostWrite_inv (queue rest) high e
  case h_3 a name rest _ =>
    cases e
    exact bindName_inv (hostRead_inv (queue rest) high a) ((hostRead_env a _).1.trans high) name
  case h_4 a m x rest _ =>
    have read : (hostRead a s).Inv := hostRead_inv h high a
    have readHigh : (hostRead a s).rstN = true := (hostRead_env a s).1.trans high
    dsimp only at e
    split at e <;> cases e
    · exact inv_environment read readHigh rest _ _ _ _
    · exact read

theorem takeTurn_inv {s t : State} (h : s.Inv) {turn : Turn} (e : takeTurn turn s = .next t) : t.Inv := by
  cases turn with
  | host =>
    by_cases high : s.rstN = true
    · rw [takeTurn, if_pos high] at e; exact hostTurn_inv h high e
    · rw [takeTurn, if_neg high] at e; cases e; exact h
  | engine =>
    by_cases high : s.rstN = true
    · rw [takeTurn, if_pos high] at e; cases e; exact engineStep_inv h high
    · rw [takeTurn, if_neg high] at e; cases e; exact h
  | rstLow => cases e; exact resetCore_inv s false
  | rstHigh => cases e; exact { h with inReset := fun low => Bool.noConfusion low }

/-- A step is the next turn, taken off the schedule. -/
theorem step_eq_takeTurn (s : State) : step s = takeTurn (nextTurn s) { s with turns := s.turns.tail } := by
  cases e : s.turns with
  | nil =>
    have same : { s with turns := s.turns.tail } = s := by rw [e, List.tail_nil, ← e]
    rw [← e, same]
    simp only [step, nextTurn, e]
  | cons turn ts => simp only [step, nextTurn, e, List.tail_cons]

theorem hostTurn_next (s : State) : ∃ t, hostTurn s = .next t := by
  unfold hostTurn
  split
  case h_2 => exact hostWrite_next _ _ _ _
  case h_4 => dsimp only; split <;> exact ⟨_, rfl⟩
  all_goals exact ⟨_, rfl⟩

theorem takeTurn_next (turn : Turn) (s : State) : ∃ t, takeTurn turn s = .next t := by
  cases turn with
  | host =>
    rw [takeTurn]
    split
    · exact hostTurn_next s
    · exact ⟨s, rfl⟩
  | engine => rw [takeTurn]; split <;> exact ⟨_, rfl⟩
  | rstLow | rstHigh => exact ⟨_, rfl⟩

/-! ## What the two resets leave -/

theorem Status.toWord_reset : Status.reset.toWord = 0x0000000000006000 := by decide

/-- The reset effect leaves the reset values in MT-CORE's own state, busy or not (10 R65, 42 R191). -/
theorem resetCore_sameCore (s : State) : SameCore State.reset (resetCore s) := rfl

/-- The three ways to the reset values (10 R65). -/
theorem sameCore_of_reset {s t : State}
    (h : t = State.reset ∨ takeTurn .rstLow s = .next t ∨ exec .srst s = .next t) : SameCore State.reset t := by
  rcases h with rfl | low | srst
  · rfl
  · cases low; rfl
  · cases srst; exact resetCore_sameCore s

/-- With the engine idle there is no step for it to take (10 R60). -/
theorem engineStep_idle {s : State} (h : s.seq = .idle) : engineStep s = s := by rw [engineStep, h]

/-- While `rst_n` is low the machine already stands at its reset values (70 R231, R232). -/
theorem sameCore_of_inReset {s : State} (h : s.Inv) (low : s.rstN = false) : SameCore State.reset s := by
  rw [← h.inReset low]
  exact resetCore_sameCore s

/-! ## The host's turn, by the head of its queue -/

theorem hostTurn_nil {s : State} (h : s.host = []) : hostTurn s = .next s := by rw [hostTurn, h]

theorem hostTurn_write {s : State} {a : Offset} {v : Word} {strb : BitVec 8} {rest : List HostOp}
    (h : s.host = .write a v strb :: rest) : hostTurn s = hostWrite a v strb { s with host := rest } := by
  rw [hostTurn, h]

theorem hostTurn_read {s : State} {a : Offset} {name : String} {rest : List HostOp}
    (h : s.host = .read a name :: rest) :
    hostTurn s = .next (bindName name (hostRead a { s with host := rest })) := by
  rw [hostTurn, h]

theorem hostTurn_poll {s : State} {a : Offset} {m x : Word} {rest : List HostOp}
    (h : s.host = .poll a m x :: rest) :
    hostTurn s = .next (if lastData (hostRead a s) &&& m = x then { hostRead a s with host := rest }
      else hostRead a s) := by
  rw [hostTurn, h]
  dsimp only
  split <;> rfl

/-- A read always leaves a response, whose data is what the host keeps (10 R30). -/
theorem hostRead_lastData (a : Offset) (s : State) :
    ∃ r, (hostRead a s).lastRsp = some r ∧ lastData (hostRead a s) = r.rdata := by
  rcases hostRead_cases a s with ⟨-, e⟩ | ⟨-, v, n, -, e⟩ <;> rw [e] <;> exact ⟨_, rfl, rfl⟩

/-- A read keeps the names bound so far, and binds its own over them (30 R123). -/
theorem bindName_hostRead (name : String) (a : Offset) (s : State) :
    bindName name (hostRead a s) = { hostRead a s with
      names := (name, lastData (hostRead a s)) :: s.names.filter (fun b => b.1 != name) } := by
  rcases hostRead_cases a s with ⟨-, e⟩ | ⟨-, v, n, -, e⟩ <;> rw [e] <;> rfl

/-- The write of a command's word to CMD runs the command after the OKAY response (20 R91, 30 R117). -/
theorem hostWrite_encode (i : Instr) (s : State) :
    hostWrite (regOffset .cmd) (encode i) 0xFF s = exec i (respond 0 s) := by
  rw [hostWrite_cmd, issue_encode]

end Sys2Proof.Machine

namespace Sys2Proof.Proofs

open Sys2Proof.Machine

/-- Settles O8: a step is one turn, and each of the four turns keeps the invariant. -/
theorem stepKeepsInv : Obligations.StepKeepsInv := by
  unfold Obligations.StepKeepsInv
  intro s t h e
  rw [step_eq_takeTurn] at e
  exact takeTurn_inv (inv_turns h _) e

/-- Settles O7: the reset state is the reset effect of itself. -/
theorem invHoldsAtReset : Obligations.InvHoldsAtReset := resetCore_inv State.reset true

/-- Settles O9: an engine turn and a change of the pin always answer, and so does every transaction. -/
theorem stepAlwaysAnswersNext : Obligations.StepAlwaysAnswersNext := by
  unfold Obligations.StepAlwaysAnswersNext
  intro s
  rw [step_eq_takeTurn]
  exact takeTurn_next _ _

/-- Settles O2: the four words are those of the commands. -/
theorem commandWordsDecode : Obligations.CommandWordsDecode := by
  unfold Obligations.CommandWordsDecode
  exact ⟨(decode_eq_ok_iff _ .nop).2 rfl, (decode_eq_ok_iff _ .eval).2 rfl, (decode_eq_ok_iff _ .gen).2 rfl,
    (decode_eq_ok_iff _ .srst).2 rfl⟩

/-- Settles O4: each way in leaves MT-CORE's state as in State.reset. -/
theorem resetSetsEveryElement : Obligations.ResetSetsEveryElement := by
  unfold Obligations.ResetSetsEveryElement
  intro s t h
  rw [sameCore_of_reset h]
  exact ⟨rfl, capWord_eq, Status.toWord_reset, rfl, rfl, rfl, rfl, rfl, rfl, rfl, rfl, rfl, rfl, rfl, rfl, fun _ => rfl⟩

/-- Settles O5: SRST is the reset effect in the write that carries its word, and only its own word is one. -/
theorem srstAbandonsAndResets : Obligations.SrstAbandonsAndResets := by
  unfold Obligations.SrstAbandonsAndResets
  refine ⟨fun s => ⟨resetCore s, rfl, ?values⟩, hostWrite_encode .srst, fun c hc => ?only, fun c s hlow hhigh idle => ?code⟩
  case values =>
    exact ⟨Status.toWord_reset, rfl, rfl, rfl, rfl, rfl, rfl, rfl, rfl, rfl, rfl, rfl, engineStep_idle rfl,
      fun _ => rfl, rfl, rfl, rfl, rfl, rfl, rfl⟩
  case only => exact mt (decode_eq_ok_iff c .srst).1 hc
  case code =>
    refine issue_reserved_idle ((decode_eq_cmdRsvd_iff c).2 ?_) idle
    rw [ne_eq, rsvd_eq_zero_iff]
    exact Nat.not_lt.2 hhigh

/-- Settles O6: a turn of either agent is none while the pin is low, and the reset values stand when it rises. -/
theorem heldResetStopsBothAgents : Obligations.HeldResetStopsBothAgents := by
  unfold Obligations.HeldResetStopsBothAgents
  refine ⟨fun s low => ?stopped, fun s h low => ⟨{ s with rstN := true }, rfl, rfl, ?values⟩⟩
  case stopped => simp [takeTurn, low]
  case values =>
    rw [sameCore_of_inReset h low]
    exact ⟨Status.toWord_reset, rfl, rfl, rfl, rfl, rfl, rfl, rfl, rfl, rfl, rfl, rfl, rfl⟩

/-- Settles O10: the host's turn, head by head of its queue. -/
theorem stepRunsDecodedCommand : Obligations.StepRunsDecodedCommand := by
  unfold Obligations.StepRunsDecodedCommand
  intro s h taken
  simp only [nextIsHost_step h]
  refine ⟨fun w i rest hh hd => ?command, fun a v strb rest hh => hostTurn_write (s := taken s.host) hh,
    fun a name rest hh => ?read,
    fun a m e rest hh => ?poll, fun hh => ?nothing⟩
  case command =>
    obtain rfl := (decode_eq_ok_iff w i).1 hd
    exact (hostTurn_write (s := taken s.host) hh).trans (hostWrite_encode i _)
  case read =>
    obtain ⟨r, hr, data⟩ := hostRead_lastData a (taken rest)
    refine ⟨r, hr, (hostTurn_read (s := taken s.host) hh).trans (congrArg Host.Outcome.next ?_)⟩
    rw [← data]
    exact bindName_hostRead name a (taken rest)
  case poll =>
    obtain ⟨r, hr, data⟩ := hostRead_lastData a (taken s.host)
    exact ⟨r, hr, data ▸ hostTurn_poll (s := taken s.host) hh⟩
  case nothing =>
    rw [← hh]
    exact hostTurn_nil (s := taken s.host) hh

/-- Settles O11: the engine's turn. -/
theorem stepRunsEngineStep : Obligations.StepRunsEngineStep := by
  unfold Obligations.StepRunsEngineStep
  exact fun s h => nextIsEngine_step h

/-- Settles O12: the placed word is a full write to CMD at the head of the queue, and the turn is the host's. -/
theorem placedCommandRunsNext : Obligations.PlacedCommandRunsNext := by
  unfold Obligations.PlacedCommandRunsNext
  intro s i
  have word : BitVec.ofNat 64 ((encode i).toNat % 2 ^ 64) = encode i := by
    rw [Nat.mod_eq_of_lt (encode i).isLt, BitVec.ofNat_toNat, BitVec.setWidth_eq]
  rw [nextIsHost_step ⟨rfl, rfl⟩, hostTurn_write rfl, word]
  exact hostWrite_encode i _

end Sys2Proof.Proofs

end

section
/-! PROOFS. The statements about who may change what in a step (10 R37-R43, R66, R67; 60 R205, R206). First what an engine step
and a command change, then how STATUS changes in a step, then one theorem for each obligation. -/

namespace Sys2Proof.Machine

/-! ## What an engine step changes -/

/-- The value an iteration reads: the sample's, or a free one (20 R98). -/
theorem readEntry_fst (a : Nat) (s : State) :
    (readEntry a s).1 = (s.mem.readWord a).getD (Config.anyWord s.draws) := by
  rcases readEntry_cases a s with ⟨v, hv, e⟩ | ⟨hn, e⟩
  · rw [e, hv, Option.getD_some]
  · rw [e, hn, Option.getD_none, anyValue_fst]

/-- The sample an iteration at EVAL_IT(k) computes with. -/
def sampleAt (k : Nat) (s : State) : Word := (readEntry (sAddr (s.eN - k)) s).1

/-- The recursion state after the iteration at EVAL_IT(k) (40 R136-R138). -/
def iterated (k : Nat) (s : State) : Recursion := iterate s.eReg s.dbgB (sampleAt k s) (recursionOf s)

/-- An iteration changes the recursion registers, SEQ and perhaps the count of draws (40 R135, 10 R66). -/
theorem engineStep_evalIt_frame {s : State} {k : Nat} (hseq : s.seq = .evalIt k) :
    ∃ n, engineStep s = { s with
      dbgAcc := (iterated k s).acc, dbgP1 := (iterated k s).p1, dbgP2 := (iterated k s).p2
      seq := nextEval s.eN k, draws := n } := by
  obtain ⟨n, e⟩ := readEntry_snd (sAddr (s.eN - k)) s
  refine ⟨n, ?_⟩
  simp only [engineStep, hseq, evalIter, iterated, sampleAt, e]
  rfl

/-- A grid point leaves S: its entries of X and W lie below 0x10000 (20 R82-R84). -/
theorem readByte_pointWrites_s {l i a : Nat} (s : State) (hl : l ≤ 7) (hi : i ≤ 256) (ha : 0x10000 ≤ a) :
    (pointWrites l i s).mem.readByte a = s.mem.readByte a :=
  readByte_pointWrites_other s (by unfold xAddr; omega) (by unfold wAddr; omega)

theorem readWord_pointWrites_s {l i : Nat} (s : State) (hl : l ≤ 7) (hi : i ≤ 256) (j : Nat) :
    (pointWrites l i s).mem.readWord (sAddr j) = s.mem.readWord (sAddr j) :=
  Memory.readWord_congr fun k _ => readByte_pointWrites_s s hl hi (by unfold sAddr; omega)

/-- A running GEN's point lies in the grid (10 R60). -/
theorem State.Inv.point_range {s : State} (h : s.Inv) {l i : Nat} (hseq : s.seq = .genPt l i) : l ≤ 7 ∧ i ≤ 256 := by
  have range := h.seqOk
  rw [seqInRange, hseq] at range
  exact ⟨range.1, range.2.trans (halfPoints_le range.1)⟩

/-- A running EVAL's sample lies in S (10 R60, R61). -/
theorem State.Inv.sample_range {s : State} (h : s.Inv) {k : Nat} (hseq : s.seq = .evalIt k) : s.eN - k < 4096 := by
  have range := h.seqOk
  rw [seqInRange, hseq] at range
  unfold Config.nMax at range
  omega

theorem readByte_writeWord_congr {m m' : Memory} {b : Nat} (a : Nat) (v : Word) (same : m'.readByte b = m.readByte b) :
    (m'.writeWord a v).readByte b = (m.writeWord a v).readByte b := by
  rw [Memory.writeWord, Memory.writeWord, Memory.readByte_store, Memory.readByte_store, same]

/-- What a grid point stores depends on G_KIND and the point alone: where two memories agree on a byte, they agree on it
afterwards (41 R163, 10 R66). -/
theorem readByte_pointWrites_congr {s u : State} (l i : Nat) (gKind : u.gKind = s.gKind) {a : Nat}
    (same : u.mem.readByte a = s.mem.readByte a) :
    (pointWrites l i u).mem.readByte a = (pointWrites l i s).mem.readByte a := by
  have twoStores (x w : Word) : (writeW l i w (writeX i x u)).mem.readByte a =
      (writeW l i w (writeX i x s)).mem.readByte a :=
    readByte_writeWord_congr _ _ (readByte_writeWord_congr _ _ same)
  unfold pointWrites
  rw [gKind]
  split_ifs
  · exact twoStores _ _
  · exact twoStores _ _
  · exact same

/-- A running command has BUSY set and no outcome yet (10 R37-R39, 60 R200). -/
theorem State.Inv.running_flags {s : State} (h : s.Inv) (running : s.seq ≠ .idle) :
    s.status.busy = true ∧ s.status.done = false ∧ s.status.err = false ∧ s.status.errcode = 0 := by
  have busy := h.busySeq.2 running
  obtain ⟨done, err⟩ := h.busyClean busy
  exact ⟨busy, done, err, h.errCode.1 err⟩

/-! ## How STATUS changes in a step -/

/-- What a step that is no reset does to STATUS, and the event that makes it do so (10 R37-R43). -/
inductive StatusCase (s t : State) : Prop
  | same (e : t.status = s.status)
  | busError (h : nextIsHost s) (he : errorAtHead s) (e : t.status = s.status.busError)
  | finishEval (h : nextIsEngine s) (hq : s.seq = .evalFin) (e : t.status = s.status.finishEval)
  | finishGen (h : nextIsEngine s) (hq : s.seq = .genFin) (e : t.status = s.status.finishGen)
  | w1c (v : Word) (h : nextWrites s 0x18 v) (e : t.status = s.status.w1c v)
  | dropWrite (a : Nat) (v : Word) (h : nextWrites s a v)
      (ha : a = 0x28 ∨ a = 0x30 ∨ a = 0x38 ∨ (0x10000 ≤ a ∧ a < 0x18000)) (busy : s.status.busy = true)
      (e : t.status = s.status.dropWrite)
  | dropCommand (v : Word) (h : nextWrites s 0x10 v) (busy : s.status.busy = true) (e : t.status = s.status.dropCommand)
  | reject (c : Word) (code : BitVec 4) (h : nextWrites s 0x10 c) (hc : c ≠ 0x0#64 ∧ c ≠ 0x2#64 ∧ c ≠ 0x5A#64)
      (hcode : code ≠ 0#4) (idle : s.status.busy = false) (e : t.status = s.status.reject code)
  | rejectEval (code : BitVec 4) (h : nextWrites s 0x10 0x1#64) (hcode : code ≠ 0#4) (idle : s.status.busy = false)
      (e : t.status = s.status.rejectEval code)
  | acceptNop (h : nextWrites s 0x10 0x0#64) (idle : s.status.busy = false) (e : t.status = s.status.acceptNop)
  | acceptEval (r : Regime) (h : nextWrites s 0x10 0x1#64) (idle : s.status.busy = false)
      (e : t.status = s.status.acceptEval r)
  | acceptGen (k : BitVec 32) (h : nextWrites s 0x10 0x2#64) (idle : s.status.busy = false)
      (e : t.status = s.status.acceptGen k)

/-- `EVAL()` while idle is a rejection or the acceptance (40 R131). -/
theorem evalCommand_cases (s : State) :
    (∃ code, code ≠ 0 ∧ evalCommand s = rejectEval code s) ∨
      evalCommand s = acceptEval (lenOperand s) (omegaOperand s) s := by
  unfold evalCommand
  split_ifs
  · exact .inl ⟨3, by decide, rfl⟩
  · exact .inl ⟨4, by decide, rfl⟩
  · exact .inl ⟨5, by decide, rfl⟩
  · exact .inr rfl

/-- A reserved word is none of the commands' words. -/
theorem ne_encode_of_error {c : Word} {r : Reserved} (h : decode c = .error r) (i : Instr) : c ≠ encode i := by
  rintro rfl
  rw [(decode_eq_ok_iff _ i).2 rfl] at h
  cases h

theorem StepCase.statusCase {s t : State} (c : StepCase s t) : StatusCase s t := by
  cases c with
  | host h => exact .same h.status
  | error h he e hu => exact .busError h he e
  | engine h e =>
    subst e
    rcases engineStep_status { s with turns := s.turns.tail } with e | ⟨hq, e⟩ | ⟨hq, e⟩
    · exact .same e
    · exact .finishEval h hq e
    · exact .finishGen h hq e
  | status v h u e hu => subst e; exact .w1c v h (by rw [← hu.status])
  | ie v h u e hu => subst e; exact .same hu.status
  | omega v h hb u e hu => subst e; exact .same hu.status
  | len v h hb u e hu => subst e; exact .same hu.status
  | kind v h hb u e hu => subst e; exact .same hu.status
  | sample v j hj h hb u e hu => subst e; exact .same hu.status
  | dropWrite a v h ha hb u e hu => subst e; exact .dropWrite a v h ha hb (by rw [← hu.status])
  | dropCommand v h hb u e hu => subst e; exact .dropCommand v h hb (by rw [← hu.status, dropCommand_status])
  | reserved v r hd h hb u e hu =>
    subst e
    exact .reject v r.code h ⟨ne_encode_of_error hd .nop, ne_encode_of_error hd .gen, ne_encode_of_error hd .srst⟩
      (by cases r <;> decide) hb (by rw [← hu.status, reject_status])
  | nop h hb u e hu => subst e; exact .acceptNop h hb (by rw [← hu.status])
  | eval h hb u e hu =>
    subst e
    rcases evalCommand_cases u with ⟨code, hcode, e⟩ | e
    · exact .rejectEval code h hcode hb (by rw [e, rejectEval_status, hu.status])
    · exact .acceptEval _ h hb (by rw [e, acceptEval, hu.status])
  | gen h hb u e hu => subst e; exact .acceptGen _ h hb (by rw [acceptGen, hu.status])

/-! ## What a step keeps -/

/-- A state with the same core is `s` with the pin and the host's side of its own. -/
theorem SameCore.exists_eq {s u : State} (h : SameCore s u) : ∃ pin ts ops rsp ns n,
    u = { s with rstN := pin, turns := ts, host := ops, lastRsp := rsp, names := ns, draws := n } :=
  ⟨_, _, _, _, _, _, h⟩

theorem eq_of_sameCore_status {s t : State} {f : Status} (h : SameCore s { t with status := f }) :
    t = { s with
      status := t.status, rstN := t.rstN, turns := t.turns, host := t.host, lastRsp := t.lastRsp, names := t.names
      draws := t.draws } :=
  congrArg (fun v : State => { v with status := t.status }) h

/-! ## No transaction moves the pin -/

theorem unlessBusy_rstN {run : State → State} {s : State} (h : (run s).rstN = s.rstN) :
    (unlessBusy run s).rstN = s.rstN := by
  unfold unlessBusy
  split
  · exact dropCommand_rstN s
  · exact h

theorem inputWrite_rstN {store : State → State} {s : State} (h : (store s).rstN = s.rstN) :
    (inputWrite store s).rstN = s.rstN := by
  unfold inputWrite
  split
  · rfl
  · exact h

theorem evalCommand_rstN (s : State) : (evalCommand s).rstN = s.rstN := by
  rcases evalCommand_cases s with ⟨code, -, e⟩ | e
  · rw [e, rejectEval_rstN]
  · rw [e, acceptEval]

theorem effect_rstN (i : Instr) (s : State) : (effect i s).rstN = s.rstN := by
  cases i with
  | nop => exact unlessBusy_rstN rfl
  | eval => exact unlessBusy_rstN (evalCommand_rstN s)
  | gen => exact unlessBusy_rstN rfl
  | srst => exact resetCore_rstN s

theorem issue_rstN {c : Word} {s t : State} (e : issue c s = .next t) : t.rstN = s.rstN := by
  rcases issue_cases c s with ⟨i, -, h⟩ | ⟨r, -, h⟩ <;> rw [h] at e <;> cases e
  · exact effect_rstN i s
  · exact unlessBusy_rstN (reject_rstN r.code s)

theorem writeReg_rstN {r : Reg} {v : Word} {s t : State} (e : writeReg r v s = .next t) : t.rstN = s.rstN := by
  cases r with
  | cmd => exact issue_rstN (s := respond 0 s) e
  | omega | len | kind => cases e; exact inputWrite_rstN (s := s) rfl
  | status | ie | id | cap | cosOut | sinOut | dbgAcc | dbgP1 | dbgP2 | dbgB => cases e; rfl

theorem hostWrite_rstN {a : Offset} {v : Word} {strb : BitVec 8} {s t : State} (e : hostWrite a v strb s = .next t) :
    t.rstN = s.rstN := by
  unfold hostWrite at e
  split at e
  · cases e; rfl
  split at e
  · cases e; rfl
  cases h : region a with
  | reg r => rw [h] at e; exact writeReg_rstN e
  | s j => rw [h] at e; cases e; exact inputWrite_rstN (s := s) rfl
  | x i | w l i | reserved => rw [h] at e; cases e; rfl

theorem hostTurn_rstN {s t : State} (e : hostTurn s = .next t) : t.rstN = s.rstN := by
  cases hq : s.host with
  | nil => rw [hostTurn_nil hq] at e; cases e; rfl
  | cons op rest =>
    cases op with
    | write a v strb => rw [hostTurn_write hq] at e; exact (hostWrite_rstN e).trans rfl
    | read a name => rw [hostTurn_read hq] at e; cases e; exact (hostRead_env a _).1
    | poll a m x => rw [hostTurn_poll hq] at e; cases e; split <;> exact (hostRead_env a s).1

/-- A flag that a step leaves alone is not set by it. -/
theorem flag_not_set {b : Bool} {p : Prop} : (b = false → b = true → p) ↔ True :=
  iff_true_intro fun h h' => absurd (h.symm.trans h') Bool.false_ne_true

/-- A flag that a step leaves alone is not cleared by it. -/
theorem flag_not_cleared {b : Bool} {p : Prop} : (b = true → b = false → p) ↔ True :=
  iff_true_intro fun h h' => absurd (h'.symm.trans h) Bool.false_ne_true

end Sys2Proof.Machine

namespace Sys2Proof.Proofs

open Sys2Proof.Machine

/-- Settles O59: in each case of STATUS the flags that change are those of the case's event. -/
theorem flagsChangeOnlyByTheirEvents : Obligations.FlagsChangeOnlyByTheirEvents := by
  unfold Obligations.FlagsChangeOnlyByTheirEvents
  intro s t e hr final accept acceptNop
  cases (step_cases e hr).statusCase with
  | same e => simp [e, flag_not_set, flag_not_cleared]
  | busError h he e => simp [e, flag_not_set, flag_not_cleared, h, he]
  | finishEval h hq e => simp [e, flag_not_set, flag_not_cleared, final, h, hq]
  | finishGen h hq e => simp [e, flag_not_set, flag_not_cleared, final, h, hq]
  | w1c v h e =>
    have writes (i : Nat) (hi : v.getLsbD i = true) : ∃ v, nextWrites s 0x18 v ∧ v.getLsbD i = true := ⟨v, h, hi⟩
    simp only [e, Status.w1c_busy, flag_not_set, flag_not_cleared, Status.w1c_done, Nat.one_lt_ofNat,
      BitVec.getLsbD_eq_getElem, Bool.and_eq_false_imp, Bool.not_eq_eq_eq_not, Bool.not_false, Bool.and_eq_true,
      Bool.not_true, and_imp, Status.w1c_err, Nat.reduceLT, BitVec.ofNat_eq_ofNat, ne_eq, and_self_left,
      Status.w1c_errcode, ite_eq_right_iff, Classical.not_imp, ite_eq_left_iff, Bool.not_eq_true, Status.w1c_rv,
      not_true_eq_false, IsEmpty.forall_iff, Status.w1c_regime, Status.w1c_tv, Status.w1c_tkind, Status.w1c_zk,
      or_self, Status.w1c_cbusy, Status.w1c_wbusy, Status.w1c_buserr, exists_and_right, and_self, and_true, true_and]
    exact ⟨fun done bit => .inr (writes 1 (bit done)), fun err bit => .inr (.inr (writes 2 (bit err))),
      fun set _ clear => absurd (set.symm.trans clear) (by decide),
      fun set _ _ => ⟨fun _ => set, .inr (.inr (writes 2 set))⟩,
      fun cbusy bit => writes 16 (bit cbusy), fun wbusy bit => writes 17 (bit wbusy),
      fun buserr bit => writes 18 (bit buserr)⟩
  | dropWrite a v h ha busy e =>
    have input : ∃ a, (∃ v, nextWrites s a v) ∧ (a = 0x28 ∨ a = 0x30 ∨ a = 0x38 ∨ (0x10000 ≤ a ∧ a < 0x18000)) :=
      ⟨a, ⟨v, h⟩, ha⟩
    simp [e, flag_not_set, flag_not_cleared, busy, input]
  | dropCommand v h busy e =>
    have written : ∃ c, nextWrites s 0x10 c := ⟨v, h⟩
    simp [e, flag_not_set, flag_not_cleared, busy, written]
  | reject c code h hc hcode idle e =>
    have word : ∃ c, nextWrites s 0x10 c ∧ ¬ c = 0x0#64 ∧ ¬ c = 0x2#64 ∧ ¬ c = 0x5A#64 := ⟨c, h, hc⟩
    have written : ∃ c, nextWrites s 0x10 c := ⟨c, h⟩
    simp [e, flag_not_set, flag_not_cleared, idle, hcode, word, written]
  | rejectEval code h hcode idle e =>
    have word : ∃ c, nextWrites s 0x10 c ∧ ¬ c = 0x0#64 ∧ ¬ c = 0x2#64 ∧ ¬ c = 0x5A#64 := ⟨0x1#64, h, by decide⟩
    have written : ∃ c, nextWrites s 0x10 c := ⟨0x1#64, h⟩
    simp [e, flag_not_set, flag_not_cleared, h, idle, hcode, word, written]
  | acceptNop h idle e =>
    have written : ∃ c, nextWrites s 0x10 c := ⟨0x0#64, h⟩
    simp [e, flag_not_set, flag_not_cleared, acceptNop, h, idle, written]
  | acceptEval r h idle e => simp [e, flag_not_set, flag_not_cleared, accept, h, idle]
  | acceptGen k h idle e => simp [e, flag_not_set, flag_not_cleared, accept, h, idle]

/-- Settles O58: in each case of a step the pieces of state that change are those of the case's writer. -/
theorem stateChangesOnlyByItsWriters : Obligations.StateChangesOnlyByItsWriters := by
  unfold Obligations.StateChangesOnlyByItsWriters
  intro s t inv e hr
  cases step_cases e hr with
  | host h => obtain ⟨pin, ts, ops, rsp, ns, n, rfl⟩ := h.exists_eq; simp
  | error h he e hu => rw [eq_of_sameCore_status hu]; simp
  | engine h e =>
    subst e
    obtain ⟨u, hu⟩ : ∃ u : State, u = { s with turns := s.turns.tail } := ⟨_, rfl⟩
    rw [← hu]
    obtain ⟨q, hq⟩ : ∃ q, s.seq = q := ⟨_, rfl⟩
    have huq : u.seq = q := hu ▸ hq
    cases q with
    | idle => rw [engineStep_idle huq]; simp [hu]
    | evalIt k =>
      obtain ⟨n, frame⟩ := engineStep_evalIt_frame huq
      rw [frame]; simp [hu, hq, h]
    | evalFin => rw [engineStep_evalFin huq]; simp [hu, evalFinal, hq, h]
    | genPt l i =>
      obtain ⟨hl, hi⟩ := inv.point_range hq
      have samples (j : Nat) : (pointWrites l i u).mem.readWord (0x10000 + 8 * j) = s.mem.readWord (0x10000 + 8 * j) :=
        (readWord_pointWrites_s u hl hi j).trans (by rw [hu]; rfl)
      rw [engineStep_genPt huq]
      simp only [samples]
      simp [hu, hq, h]
    | genFin => rw [engineStep_genFin huq]; simp [hu, genFinal, h]
  | status v h u e hu => obtain ⟨pin, ts, ops, rsp, ns, n, rfl⟩ := hu.exists_eq; subst e; simp
  | ie v h u e hu =>
    obtain ⟨pin, ts, ops, rsp, ns, n, rfl⟩ := hu.exists_eq
    have written : ∃ v, nextWrites s 0x20 v := ⟨v, h⟩
    simp [e, written]
  | omega v h hb u e hu =>
    obtain ⟨pin, ts, ops, rsp, ns, n, rfl⟩ := hu.exists_eq
    simp [e, h, hb]
  | len v h hb u e hu =>
    obtain ⟨pin, ts, ops, rsp, ns, n, rfl⟩ := hu.exists_eq
    have written : ∃ v, nextWrites s 0x30 v := ⟨v, h⟩
    simp [e, written, hb]
  | kind v h hb u e hu =>
    obtain ⟨pin, ts, ops, rsp, ns, n, rfl⟩ := hu.exists_eq
    have written : ∃ v, nextWrites s 0x38 v := ⟨v, h⟩
    simp [e, written, hb]
  | sample v j hj h hb u e hu =>
    obtain ⟨pin, ts, ops, rsp, ns, n, rfl⟩ := hu.exists_eq
    have tables (a : Nat) (ha : a < 0x10000) : (s.mem.writeWord (sAddr j) v).readByte a = s.mem.readByte a :=
      Memory.readByte_writeWord_other v (.inl (by unfold sAddr; omega))
    have samples (i : Nat) (_ : i < 4096)
        (changed : (s.mem.writeWord (sAddr j) v).readWord (0x10000 + 8 * i) ≠ s.mem.readWord (0x10000 + 8 * i)) :
        ∃ w, nextWrites s (0x10000 + 8 * i) w ∧
          (s.mem.writeWord (sAddr j) v).readWord (0x10000 + 8 * i) = some w := by
      by_cases hij : i = j
      · subst hij
        exact ⟨v, h, Memory.readWord_writeWord _ _ _⟩
      · exact absurd (Memory.readWord_writeWord_other v (by unfold sAddr; omega)) changed
    subst e
    simpa +contextual [writeS, hb, tables] using samples
  | dropWrite a v h ha hb u e hu =>
    obtain ⟨pin, ts, ops, rsp, ns, n, rfl⟩ := hu.exists_eq
    simp [e]
  | dropCommand v h hb u e hu =>
    obtain ⟨pin, ts, ops, rsp, ns, n, rfl⟩ := hu.exists_eq
    simp [e]
  | reserved v r hd h hb u e hu =>
    obtain ⟨pin, ts, ops, rsp, ns, n, rfl⟩ := hu.exists_eq
    simp [e]
  | nop h hb u e hu =>
    obtain ⟨pin, ts, ops, rsp, ns, n, rfl⟩ := hu.exists_eq
    simp [e]
  | eval h hb u e hu =>
    rcases evalCommand_cases u with ⟨code, -, rejected⟩ | accepted
    · obtain ⟨pin, ts, ops, rsp, ns, n, rfl⟩ := hu.exists_eq
      simp [e, rejected]
    · obtain ⟨pin, ts, ops, rsp, ns, n, rfl⟩ := hu.exists_eq
      have word : nextWrites s 0x10 0x1#64 := h
      simp [e, accepted, acceptEval, word]
  | gen h hb u e hu =>
    obtain ⟨pin, ts, ops, rsp, ns, n, rfl⟩ := hu.exists_eq
    have samples (j : Nat) : (zeroTables s.mem).readWord (0x10000 + 8 * j) = s.mem.readWord (0x10000 + 8 * j) :=
      readWord_zeroTables_s s.mem j
    have word : nextWrites s 0x10 0x2#64 := h
    simp [e, acceptGen, word, samples]

/-- Settles O57: the step is one of the host's cases, and those that act only while idle cannot be it. -/
theorem hostCannotDisturbARunningCommand : Obligations.HostCannotDisturbARunningCommand := by
  unfold Obligations.HostCannotDisturbARunningCommand
  intro s t busy hH hr e
  have pin : t.rstN = s.rstN := by rw [nextIsHost_step hH] at e; exact hostTurn_rstN (s := { s with turns := s.turns.tail }) e
  have notIdle (idle : s.status.busy = false) : False := Bool.false_ne_true (idle.symm.trans busy)
  cases step_cases e hr with
  | host h =>
    obtain ⟨_, ts, ops, rsp, ns, n, rfl⟩ := h.exists_eq
    obtain rfl := pin
    exact ⟨rfl, id, id⟩
  | error h he e hu =>
    rw [eq_of_sameCore_status hu, e, pin]
    exact ⟨rfl, id, id⟩
  | engine h e => exact absurd (hH.2.symm.trans h.2) (by decide)
  | status v h u e hu =>
    obtain ⟨_, ts, ops, rsp, ns, n, rfl⟩ := hu.exists_eq
    subst e
    obtain rfl := pin
    exact ⟨rfl, fun done => by simp [done], fun err => by simp [err]⟩
  | ie v h u e hu =>
    obtain ⟨_, ts, ops, rsp, ns, n, rfl⟩ := hu.exists_eq
    subst e
    obtain rfl := pin
    exact ⟨rfl, id, id⟩
  | dropWrite a v h ha hb u e hu =>
    obtain ⟨_, ts, ops, rsp, ns, n, rfl⟩ := hu.exists_eq
    subst e
    obtain rfl := pin
    exact ⟨rfl, id, id⟩
  | dropCommand v h hb u e hu =>
    obtain ⟨_, ts, ops, rsp, ns, n, rfl⟩ := hu.exists_eq
    subst e
    obtain rfl := pin
    exact ⟨rfl, id, id⟩
  | omega v h hb | len v h hb | kind v h hb | sample v j hj h hb | reserved v r hd h hb | nop h hb | eval h hb
  | gen h hb => exact (notIdle hb).elim

/-- Settles O55: both engine steps compute the same from what the rule names, and the invariant fixes the flags of a running
EVAL. -/
theorem evalIgnoresTheGenerator : Obligations.EvalIgnoresTheGenerator := by
  unfold Obligations.EvalIgnoresTheGenerator
  intro s u hs hu isEval seq eN eW eReg acc p1 p2 b draws cosOut sinOut samples
  have running : s.seq ≠ .idle := by rintro idle; rw [idle] at isEval; cases isEval
  obtain ⟨sBusy, sDone, sErr, sCode⟩ := hs.running_flags running
  obtain ⟨uBusy, uDone, uErr, uCode⟩ := hu.running_flags (seq ▸ running)
  obtain ⟨sRv, sRegime⟩ := hs.evalPhase isEval
  obtain ⟨uRv, uRegime⟩ := hu.evalPhase (seq ▸ isEval)
  obtain ⟨q, hq⟩ : ∃ q, s.seq = q := ⟨_, rfl⟩
  cases q with
  | evalIt k =>
    obtain ⟨n, hs'⟩ := engineStep_evalIt_frame hq
    obtain ⟨n', hu'⟩ := engineStep_evalIt_frame (seq.trans hq)
    have sample : sampleAt k u = sampleAt k s := by
      rw [sampleAt, sampleAt, readEntry_fst, readEntry_fst, draws, eN]
      exact congrArg (·.getD (Config.anyWord s.draws)) (samples _ (hs.sample_range hq))
    have same : iterated k u = iterated k s := by
      rw [iterated, iterated, sample, recursionOf, recursionOf, eReg, b, acc, p1, p2]
    rw [hs', hu']
    exact ⟨congrArg (nextEval · k) eN, congrArg (·.acc) same, congrArg (·.p1) same, congrArg (·.p2) same, b, cosOut,
      sinOut, eN, eW, eReg, uBusy.trans sBusy.symm, uDone.trans sDone.symm, uErr.trans sErr.symm, uCode.trans sCode.symm,
      uRv.trans sRv.symm, uRegime.trans (eReg ▸ sRegime.symm), rfl, rfl, rfl, rfl, rfl, rfl⟩
  | evalFin =>
    rw [engineStep_evalFin hq, engineStep_evalFin (seq.trans hq)]
    exact ⟨rfl, acc, p1, p2, b, by simp only [evalFinal, acc, b, p2], by simp only [evalFinal, eW, p2], eN, eW, eReg,
      rfl, rfl, uErr.trans sErr.symm, uCode.trans sCode.symm, rfl, uRegime.trans (eReg ▸ sRegime.symm), rfl, rfl, rfl,
      rfl, rfl, rfl⟩
  | idle | genPt l i | genFin => rw [hq] at isEval; cases isEval

/-- Settles O56: a point's stores depend on G_KIND and SEQ alone, and the invariant fixes the flags of a running GEN. -/
theorem genIgnoresTheEvaluator : Obligations.GenIgnoresTheEvaluator := by
  unfold Obligations.GenIgnoresTheEvaluator
  intro s u hs hu isGen seq gKind
  have running : s.seq ≠ .idle := by rintro idle; rw [idle] at isGen; cases isGen
  obtain ⟨sBusy, sDone, sErr, sCode⟩ := hs.running_flags running
  obtain ⟨uBusy, uDone, uErr, uCode⟩ := hu.running_flags (seq ▸ running)
  obtain ⟨sTv, sTkind, sZk⟩ := hs.genPhase isGen
  obtain ⟨uTv, uTkind, uZk⟩ := hu.genPhase (seq ▸ isGen)
  rw [gKind] at uTkind uZk
  obtain ⟨q, hq⟩ : ∃ q, s.seq = q := ⟨_, rfl⟩
  cases q with
  | genPt l i =>
    obtain ⟨hl, hi⟩ := hs.point_range hq
    have tables (a : Nat) (same : u.mem.readByte a = s.mem.readByte a) := readByte_pointWrites_congr l i gKind same
    have samples (a : Nat) (ha : 0x10000 ≤ a) := readByte_pointWrites_s s hl hi ha
    rw [engineStep_genPt hq, engineStep_genPt (seq.trans hq)]
    exact ⟨rfl, gKind, uBusy.trans sBusy.symm, uDone.trans sDone.symm, uErr.trans sErr.symm, uCode.trans sCode.symm,
      uTv.trans sTv.symm, uTkind.trans sTkind.symm, uZk.trans sZk.symm, fun a _ => tables a, samples, rfl⟩
  | genFin =>
    rw [engineStep_genFin hq, engineStep_genFin (seq.trans hq)]
    exact ⟨rfl, gKind, rfl, rfl, uErr.trans sErr.symm, uCode.trans sCode.symm, rfl, uTkind.trans sTkind.symm,
      uZk.trans sZk.symm, fun a _ same => same, fun _ _ => rfl, rfl⟩
  | idle | evalIt k | evalFin => rw [hq] at isGen; cases isGen

end Sys2Proof.Proofs

end

section
/-! PROOFS. The statements about single locations: open reads (20 R97, R98), a sample written and read back (20 R86, R94) and the
layout of STATUS (10 R36). -/

namespace Sys2Proof.Machine

/-! ## Open reads -/

/-- A read whose region draws a free value answers it and counts it (20 R97, R98). -/
theorem hostRead_of_anyValue {a : Offset} {s : State} (aligned : misaligned a = false)
    (h : readRegion (region a) s = anyValue s) :
    hostRead a s = respond (Config.anyWord s.draws) { s with draws := s.draws + 1 } := by
  simp [hostRead, aligned, h, anyValue]

/-- The result registers are open while an EVAL runs (20 R97). -/
theorem readRegion_result {r : Reg} {s : State} (result : r.isResult = true) (running : s.seq.isEval = true) :
    readRegion (region (regOffset r)) s = anyValue s := by
  simp [readRegion, readReg, result, running]

/-- An entry of X or W is open while a GEN runs, and one that nothing has written always is (20 R97, R98). -/
theorem readTable_open {a : Nat} {s : State} (h : s.seq.isGen = true ∨ s.mem.readWord a = none) :
    readTable a s = anyValue s := by
  unfold readTable
  split
  · rfl
  · next notGen => exact readEntry_of_none (h.resolve_left notGen)

/-! ## A sample's bytes -/

theorem extractLsb'_byte (v : Word) (k : Nat) : v.extractLsb' (8 * k) 8 = BitVec.ofNat 8 (v.toNat / 2 ^ (8 * k)) := by
  rw [BitVec.extractLsb', Nat.shiftRight_eq_div_pow]

/-! ## The fields of the STATUS word -/

theorem Status.getLsbD_toWord (f : Status) (i : Nat) (h : i < 64) : f.toWord.getLsbD i = f.bit i := by
  rw [BitVec.getLsbD_eq_getElem h, f.getElem_toWord]

/-- A field of the word is the value whose bits stand at its place. -/
theorem Status.extractLsb'_toWord (f : Status) {lo n : Nat} {x : BitVec n} (inWord : lo + n ≤ 64)
    (bits : ∀ i < n, f.bit (lo + i) = x.getLsbD i) : f.toWord.extractLsb' lo n = x := by
  ext i hi
  rw [BitVec.getElem_extractLsb', f.getLsbD_toWord _ (by omega), bits i hi, BitVec.getLsbD_eq_getElem hi]

end Sys2Proof.Machine

namespace Sys2Proof.Proofs

open Sys2Proof.Machine

/-- Settles O18: in each clause the region draws a free value. -/
theorem openReadsReturnAnyValue : Obligations.OpenReadsReturnAnyValue := by
  unfold Obligations.OpenReadsReturnAnyValue
  intro s any
  refine ⟨fun running a ha => ?results, fun i hi h => ?x, fun l i hl hi h => ?w, fun j hj h => ?s⟩
  case results =>
    have results : ∀ r ∈ [Reg.cosOut, .sinOut, .dbgAcc, .dbgP1, .dbgP2, .dbgB], r.isResult = true := by decide
    obtain ⟨r, hr, rfl⟩ : ∃ r ∈ [Reg.cosOut, .sinOut, .dbgAcc, .dbgP1, .dbgP2, .dbgB], regOffset r = a :=
      List.mem_map.1 ha
    exact hostRead_of_anyValue (regOffset_aligned r) (readRegion_result (results r hr) running)
  case x =>
    exact hostRead_of_anyValue (misaligned_xAddr i)
      ((congrArg (readRegion · s) (region_x (Nat.lt_succ_of_le hi))).trans (readTable_open h))
  case w =>
    exact hostRead_of_anyValue (misaligned_wAddr l i)
      ((congrArg (readRegion · s) (region_w (Nat.lt_succ_of_le hl) (Nat.lt_succ_of_le hi))).trans (readTable_open h))
  case s =>
    exact hostRead_of_anyValue (misaligned_sAddr j)
      ((congrArg (readRegion · s) (region_s hj)).trans (readEntry_of_none h))

/-- Settles O21: the stored entry is its eight lanes, and every byte outside it is as before. -/
theorem sampleWriteIsLittleEndianAndReadsBack : Obligations.SampleWriteIsLittleEndianAndReadsBack := by
  unfold Obligations.SampleWriteIsLittleEndianAndReadsBack
  intro s v j idle hj
  obtain ⟨m, hw, stored, others⟩ := hostWrite_sample_idle idle hj v
  refine ⟨_, hw, fun k hk => ?lanes, ?back, fun i hi hij => ?others⟩
  case lanes => rw [← extractLsb'_byte]; exact Memory.readWord_eq_some.1 stored k hk
  case back => exact congrArg State.lastRsp (hostRead_s (s := respond 0 { s with mem := m }) hj stored)
  case others => exact Memory.readWord_congr fun k hk => others _ (by unfold sAddr; omega)

/-- Settles O22: each field is the bits at its place, read one by one. -/
theorem statusWordLayout : Obligations.StatusWordLayout := by
  unfold Obligations.StatusWordLayout
  intro f
  refine ⟨f.getLsbD_toWord 0 (by decide), f.getLsbD_toWord 1 (by decide), f.getLsbD_toWord 2 (by decide),
    f.getLsbD_toWord 3 (by decide), f.extractLsb'_toWord (by decide) fun i hi => ?errcode,
    f.getLsbD_toWord 8 (by decide), f.getLsbD_toWord 9 (by decide),
    f.extractLsb'_toWord (by decide) fun i hi => ?tkind, f.getLsbD_toWord 12 (by decide),
    f.extractLsb'_toWord (by decide) fun i hi => ?regime, f.getLsbD_toWord 15 (by decide),
    f.getLsbD_toWord 16 (by decide), f.getLsbD_toWord 17 (by decide), f.getLsbD_toWord 18 (by decide),
    f.extractLsb'_toWord (by decide) fun i hi => ?above⟩
  case errcode => interval_cases i <;> rfl
  case tkind => interval_cases i <;> rfl
  case regime => interval_cases i <;> rfl
  case above => rw [Nat.add_comm]; simp [Status.bit]

end Sys2Proof.Proofs

end

section
/-! PROOFS. The statements about binary64 arithmetic: one rounding to nearest, ties to even (00 R12, R15), and the special operands
that IEEE 754 adds (log 19). First the rounding of a signed fraction as `RoundsTo`, then each primitive's exact value, then one
theorem for each obligation. -/

namespace Sys2Proof.Machine.F64

/-! ## Around infinity -/

/-- Half a unit in the last place of the largest finite values: the unit in which the bounds around infinity are said. -/
theorem two_pow_1024 : (2 : ℚ) ^ 1024 = 2 ^ 54 * 2 ^ 970 := by rw [← pow_add]

theorem magValue_infMag : magValue infMag = 2 ^ 54 * 2 ^ 970 := by
  have e := magValue_eq (c := 2046) (m := 2 ^ 52) (by norm_num) (.inr le_rfl)
  rw [show 2046 * 2 ^ 52 + 2 ^ 52 = infMag by norm_num [infMag]] at e
  rw [e, show ((2046 : ℕ) : ℤ) - 1074 = ((2 + 970 : ℕ) : ℤ) by norm_num, zpow_natCast, pow_add]
  generalize (2 : ℚ) ^ 970 = half
  norm_num
  ring

theorem magValue_largest : magValue (infMag - 1) = (2 ^ 54 - 2) * 2 ^ 970 := by
  have e := magValue_eq (c := 2045) (m := 2 ^ 53 - 1) (by norm_num) (.inr (by norm_num))
  rw [show 2045 * 2 ^ 52 + (2 ^ 53 - 1) = infMag - 1 by norm_num [infMag]] at e
  rw [e, show ((2045 : ℕ) : ℤ) - 1074 = ((1 + 970 : ℕ) : ℤ) by norm_num, zpow_natCast, pow_add]
  generalize (2 : ℚ) ^ 970 = half
  norm_num
  ring

/-- Half a unit beyond the largest finite value (00 R12). -/
def overflowBound : ℚ := 2 ^ 1024 - 2 ^ 970

theorem overflowBound_eq : overflowBound = (2 ^ 54 - 1) * 2 ^ 970 := by
  rw [overflowBound, two_pow_1024, sub_mul, one_mul]

theorem overflowBound_pos : 0 < overflowBound := by
  rw [overflowBound_eq]
  exact mul_pos (by norm_num) (by positivity)

/-- From half a unit beyond the largest finite value on, the rounding is infinite: at the half unit itself the largest finite
magnitude is odd. -/
theorem roundMag_eq_infMag {n d : Nat} (hd : 0 < d) (h : overflowBound ≤ (n : ℚ) / d) :
    roundMag n d = infMag := by
  by_contra hne
  have below : roundMag n d ≤ infMag - 1 := by have := roundMag_le n d; omega
  have value := magValue_le_iff.2 below
  have near := roundMag_nearest (n := n) hd (le_refl infMag)
  have tie (even : |magValue (roundMag n d) - (n : ℚ) / d| = |magValue infMag - (n : ℚ) / d|) :
      magValue (roundMag n d) ≠ magValue (infMag - 1) := fun largest => by
    have := roundMag_tie_even hd (Ne.symm hne) even
    rw [magValue_inj.1 largest] at this
    exact absurd this (by decide)
  rw [overflowBound_eq] at h
  rw [magValue_largest] at value tie
  rw [magValue_infMag] at near tie
  have pos : (0 : ℚ) < 2 ^ 970 := by positivity
  generalize (2 : ℚ) ^ 970 = half at h value near tie pos
  generalize magValue (roundMag n d) = v at value near tie
  rw [abs_of_nonpos (by linarith)] at near tie
  rcases le_total ((n : ℚ) / d) (2 ^ 54 * half) with hx | hx
  · rw [abs_of_nonneg (by linarith)] at near tie
    exact tie (by linarith) (by linarith)
  · rw [abs_of_nonpos (by linarith)] at near
    linarith

theorem roundMag_lt_infMag {n d : Nat} (hd : 0 < d) (h : (n : ℚ) / d < overflowBound) : roundMag n d < infMag := by
  refine lt_of_le_of_ne (roundMag_le n d) fun he => ?_
  have near := roundMag_nearest (n := n) hd (Nat.sub_le infMag 1)
  rw [he, magValue_infMag, magValue_largest] at near
  rw [overflowBound_eq] at h
  have pos : (0 : ℚ) < 2 ^ 970 := by positivity
  generalize (2 : ℚ) ^ 970 = half at h near pos
  rw [abs_of_nonneg (by linarith)] at near
  rcases abs_cases ((2 ^ 54 - 2) * half - (n : ℚ) / d) with ⟨e, _⟩ | ⟨e, _⟩ <;> rw [e] at near <;> linarith

/-! ## The rounding of a signed fraction -/

/-- The sign as a factor. -/
def unit (neg : Bool) : ℚ := if neg then -1 else 1

theorem unit_mul_unit (s t : Bool) : unit s * unit t = unit (s != t) := by cases s <;> cases t <;> norm_num [unit]

theorem abs_unit_mul (s : Bool) (x : ℚ) : |unit s * x| = |x| := by cases s <;> simp [unit]

theorem toRat_eq_unit_mul {v : Word} (h : isFinite v = true) :
    toRat v = unit (signBit v) * magValue (v.toNat % 2 ^ 63) := by
  conv_lhs => rw [eq_withSign v, toRat_withSign _ (isFinite_iff.1 h)]
  rfl

theorem getLsbD_zero_withSign (neg : Bool) (mag : Nat) : (withSign neg mag).getLsbD 0 = decide (mag % 2 = 1) := by
  rw [withSign, BitVec.getLsbD_ofNat, Nat.testBit_zero]
  cases neg
  · simp
  · simp; omega

/-- Among the finite words a result at a tie is even: a word of the other sign ties only as a zero. -/
theorem roundMag_even_of_tie {neg : Bool} {n d : Nat} (hd : 0 < d) {u : Word} (hu : isFinite u = true)
    (tie : |toRat u - unit neg * ((n : ℚ) / d)| = |unit neg * magValue (roundMag n d) - unit neg * ((n : ℚ) / d)|)
    (hne : toRat u ≠ unit neg * magValue (roundMag n d)) : roundMag n d % 2 = 0 := by
  have nonneg : 0 ≤ (n : ℚ) / d := by positivity
  have zero := roundMag_nearest (n := n) hd (Nat.zero_le infMag)
  rw [magValue_zero, zero_sub, abs_neg, abs_of_nonneg nonneg] at zero
  have even (b : Nat) (hb : magValue b ≠ magValue (roundMag n d))
      (h : |magValue (roundMag n d) - (n : ℚ) / d| = |magValue b - (n : ℚ) / d|) : roundMag n d % 2 = 0 :=
    roundMag_tie_even hd (fun e => hb (congrArg magValue e)) h
  have value := magValue_nonneg (u.toNat % 2 ^ 63)
  have evenU := even (u.toNat % 2 ^ 63)
  have evenZero := even 0
  rw [magValue_zero, zero_sub, abs_neg, abs_of_nonneg nonneg] at evenZero
  rw [toRat_eq_unit_mul hu] at tie hne
  generalize magValue (u.toNat % 2 ^ 63) = y at value evenU tie hne
  generalize (n : ℚ) / d = x at *
  rw [← mul_sub, abs_unit_mul] at tie
  by_cases same : signBit u = neg
  · rw [same] at tie hne
    rw [← mul_sub, abs_unit_mul] at tie
    exact evenU (fun h => hne (by rw [h])) tie.symm
  · have opposite : unit (signBit u) = -unit neg := by
      revert same
      cases signBit u <;> cases neg <;> simp [unit]
    rw [opposite, neg_mul, ← neg_add', ← mul_add, abs_neg, abs_unit_mul, abs_of_nonneg (by linarith)] at tie
    obtain rfl : y = 0 := by linarith
    rw [mul_zero] at hne
    exact evenZero (fun h => hne (by rw [← h, mul_zero])) (by linarith)

/-- What `roundRat` answers is ±n/d rounded to nearest, ties to even (00 R12). -/
theorem roundsTo_roundRat (neg : Bool) {n d : Nat} (hd : 0 < d) :
    RoundsTo (unit neg * ((n : ℚ) / d)) (roundRat neg n d) := by
  have nonneg : 0 ≤ (n : ℚ) / d := by positivity
  have bound := overflowBound_pos
  have inRange (h : |unit neg * ((n : ℚ) / d)| < overflowBound) : roundMag n d < infMag :=
    roundMag_lt_infMag hd (by rwa [abs_unit_mul, abs_of_nonneg nonneg] at h)
  have isFin (h : |unit neg * ((n : ℚ) / d)| < overflowBound) : isFinite (roundRat neg n d) = true := by
    rw [roundRat, isFinite_withSign neg (roundMag_le n d), decide_eq_true_eq]
    exact inRange h
  have sign : signBit (roundRat neg n d) = neg := signBit_withSign neg (lt_of_le_of_lt (roundMag_le n d) infMag_lt)
  refine ⟨fun h => ?overflowUp, fun h => ?overflowDown, isFin, fun h => roundRat_spec neg hd (isFin h),
    fun h u hu tie hne => ?even, fun h => ?signPos, fun h => ?signNeg⟩
  case overflowUp =>
    change overflowBound ≤ _ at h
    cases neg
    · rw [roundRat, roundMag_eq_infMag hd (by simpa [unit] using h)]; decide
    · simp only [unit, if_true] at h; linarith
  case overflowDown =>
    change _ ≤ -overflowBound at h
    cases neg
    · simp only [unit, if_false, Bool.false_eq_true] at h; linarith
    · rw [roundRat, roundMag_eq_infMag hd (by simp only [unit, if_true] at h; linarith)]; decide
  case even =>
    have value : toRat (roundRat neg n d) = unit neg * magValue (roundMag n d) := toRat_withSign neg (inRange h)
    rw [value] at tie hne
    rw [roundRat, getLsbD_zero_withSign, roundMag_even_of_tie hd hu tie hne]
    rfl
  case signPos =>
    rw [sign]
    cases neg
    · rfl
    · simp only [unit, if_true] at h; linarith
  case signNeg =>
    rw [sign]
    cases neg
    · simp only [unit, if_false, Bool.false_eq_true] at h; linarith
    · rfl

/-! ## The exact value behind each primitive -/

theorem roundsTo_signedZero (neg : Bool) : RoundsTo 0 (withSign neg 0) := by
  have h := roundsTo_roundRat neg (n := 0) (d := 1) one_pos
  rwa [Nat.cast_zero, zero_div, mul_zero] at h

theorem roundsTo_roundDyadic (neg : Bool) (m : Nat) (e : ℤ) :
    RoundsTo (unit neg * (m * (2 : ℚ) ^ e)) (roundDyadic neg m e) := by
  rw [← roundDyadic_frac]
  exact roundsTo_roundRat neg (by positivity)

theorem unit_mul_natAbs (x : ℤ) : unit (decide (x < 0)) * (x.natAbs : ℚ) = x := by
  rw [Nat.cast_natAbs, Int.cast_abs]
  rcases lt_or_ge x 0 with h | h
  · simp [unit, h, abs_of_neg (Int.cast_lt_zero.2 h : (x : ℚ) < 0)]
  · simp [unit, h.not_gt, abs_of_nonneg (Int.cast_nonneg h : (0 : ℚ) ≤ x)]

theorem roundsTo_roundInt (x e : ℤ) : RoundsTo (x * (2 : ℚ) ^ e) (roundInt x e) := by
  have h := roundsTo_roundDyadic (decide (x < 0)) x.natAbs e
  rwa [← mul_assoc, unit_mul_natAbs] at h

/-- An exponent's power splits off the smaller one's. -/
theorem pow_toNat_mul_zpow {e e0 : ℤ} (h : e0 ≤ e) : ((2 ^ (e - e0).toNat : ℕ) : ℚ) * 2 ^ e0 = 2 ^ e := by
  obtain ⟨k, hk⟩ := Int.eq_ofNat_of_zero_le (Int.sub_nonneg_of_le h)
  rw [hk, Int.toNat_natCast, Nat.cast_pow, Nat.cast_ofNat, ← zpow_natCast, ← zpow_add₀ two_ne_zero]
  congr 1
  omega

theorem toRat_of_unpack {v : Word} {s : Bool} {m : Nat} {e : ℤ} (h : unpack v = .fin s m e) :
    toRat v = unit s * m * (2 : ℚ) ^ e := toRat_fin h

theorem toRat_flipSign {b : Word} (hb : isFinite b = true) : toRat (flipSign b) = -toRat b := by
  have hlt := isFinite_iff.1 hb
  rw [eq_withSign b, flipSign_withSign _ (lt_trans hlt infMag_lt), toRat_withSign _ hlt, toRat_withSign _ hlt]
  cases signBit b <;> simp

theorem isFinite_flipSign (b : Word) : isFinite (flipSign b) = isFinite b := by
  rw [isFinite, isFinite, expField_flipSign]

/-- `add` of finite words: the exact sum as an integer number of units, rounded; an exact zero has the common sign. -/
theorem add_finite {a b : Word} (ha : isFinite a = true) (hb : isFinite b = true) :
    ∃ x e : ℤ, toRat a + toRat b = x * (2 : ℚ) ^ e ∧
      add a b = if x = 0 then withSign (signBit a && signBit b) 0 else roundInt x e := by
  obtain ⟨m, e, hm⟩ := unpack_fin_of_finite ha
  obtain ⟨m', e', hm'⟩ := unpack_fin_of_finite hb
  refine ⟨signed (signBit a) (m * 2 ^ (e - min e e').toNat) + signed (signBit b) (m' * 2 ^ (e' - min e e').toNat),
    min e e', ?_, by simp only [add, hm, hm']⟩
  rw [toRat_of_unpack hm, toRat_of_unpack hm', ← pow_toNat_mul_zpow (min_le_left e e'),
    ← pow_toNat_mul_zpow (min_le_right e e'), Int.cast_add, signed_cast, signed_cast]
  push_cast
  simp only [unit]
  ring

/-- `mul` of finite words: the exact product, rounded; its sign is the exclusive or. -/
theorem mul_finite {a b : Word} (ha : isFinite a = true) (hb : isFinite b = true) :
    ∃ (m : Nat) (e : ℤ), toRat a * toRat b = unit (signBit a != signBit b) * (m * (2 : ℚ) ^ e) ∧
      mul a b = roundDyadic (signBit a != signBit b) m e := by
  obtain ⟨m, e, hm⟩ := unpack_fin_of_finite ha
  obtain ⟨m', e', hm'⟩ := unpack_fin_of_finite hb
  refine ⟨m * m', e + e', ?_, by simp only [mul, hm, hm']⟩
  rw [toRat_of_unpack hm, toRat_of_unpack hm', ← unit_mul_unit, zpow_add₀ two_ne_zero]
  push_cast
  ring

/-- A finite word is a zero exactly when its significand is. -/
theorem toRat_eq_zero_iff {v : Word} {s : Bool} {m : Nat} {e : ℤ} (h : unpack v = .fin s m e) :
    toRat v = 0 ↔ m = 0 := by
  rw [toRat_of_unpack h]
  cases s <;> simp [unit, zpow_ne_zero]

/-- `div` of finite words by a nonzero one: the exact quotient, rounded; its sign is the exclusive or. -/
theorem div_finite {a b : Word} (ha : isFinite a = true) (hb : isFinite b = true) (h0 : toRat b ≠ 0) :
    ∃ n d : Nat, 0 < d ∧ toRat a / toRat b = unit (signBit a != signBit b) * ((n : ℚ) / d) ∧
      div a b = roundRat (signBit a != signBit b) n d := by
  obtain ⟨m, e, hm⟩ := unpack_fin_of_finite ha
  obtain ⟨m', e', hm'⟩ := unpack_fin_of_finite hb
  have nonzero : m' ≠ 0 := mt (toRat_eq_zero_iff hm').2 h0
  refine ⟨m * 2 ^ (e - e').toNat, m' * 2 ^ (e' - e).toNat, by positivity, ?_, by simp only [div, hm, hm', if_neg nonzero]⟩
  have frac := scale_frac m m' (Nat.pos_of_ne_zero nonzero) (e' - e)
  rw [neg_sub] at frac
  rw [frac, toRat_of_unpack hm, toRat_of_unpack hm', ← unit_mul_unit, zpow_sub₀ two_ne_zero]
  have m0 : (m' : ℚ) ≠ 0 := Nat.cast_ne_zero.2 nonzero
  cases signBit b <;> simp only [unit, if_true, if_false, Bool.false_eq_true] <;> field_simp

theorem roundsTo_add {a b : Word} (ha : isFinite a = true) (hb : isFinite b = true) :
    RoundsTo (toRat a + toRat b) (add a b) := by
  obtain ⟨x, e, value, result⟩ := add_finite ha hb
  rw [value, result]
  split
  · next zero => rw [zero, Int.cast_zero, zero_mul]; exact roundsTo_signedZero _
  · exact roundsTo_roundInt _ _

theorem roundsTo_sub {a b : Word} (ha : isFinite a = true) (hb : isFinite b = true) :
    RoundsTo (toRat a - toRat b) (sub a b) := by
  rw [sub_eq_add_neg, ← toRat_flipSign hb]
  exact roundsTo_add ha (by rwa [isFinite_flipSign])

theorem roundsTo_mul {a b : Word} (ha : isFinite a = true) (hb : isFinite b = true) :
    RoundsTo (toRat a * toRat b) (mul a b) := by
  obtain ⟨m, e, value, result⟩ := mul_finite ha hb
  rw [value, result]
  exact roundsTo_roundDyadic _ _ _

theorem roundsTo_div {a b : Word} (ha : isFinite a = true) (hb : isFinite b = true) (h0 : toRat b ≠ 0) :
    RoundsTo (toRat a / toRat b) (div a b) := by
  obtain ⟨n, d, hd, value, result⟩ := div_finite ha hb h0
  rw [value, result]
  exact roundsTo_roundRat _ hd

/-! ## Signed zeros, infinities and invalid operations -/

theorem roundRat_zero (neg : Bool) (d : Nat) : roundRat neg 0 d = withSign neg 0 := by
  rw [roundRat, roundMag, if_pos rfl]

theorem unpack_infinity (s : Bool) : unpack (withSign s infMag) = .inf s := by cases s <;> decide

theorem unit_ne_zero (s : Bool) : unit s ≠ 0 := by cases s <;> norm_num [unit]

/-- An exact zero sum is +0.0, but for two zeros of negative sign -0.0 (log 19). -/
theorem add_of_zero_sum {a b : Word} (ha : isFinite a = true) (hb : isFinite b = true) (h : toRat a + toRat b = 0) :
    add a b = withSign (signBit a && signBit b) 0 := by
  obtain ⟨x, e, value, result⟩ := add_finite ha hb
  rw [h, eq_comm, mul_eq_zero, Int.cast_eq_zero, or_iff_left (zpow_ne_zero e two_ne_zero)] at value
  rw [result, if_pos value]

/-- A zero product carries the exclusive or of the signs (log 19). -/
theorem mul_of_zero_product {a b : Word} (ha : isFinite a = true) (hb : isFinite b = true) (h : toRat a * toRat b = 0) :
    mul a b = withSign (signBit a != signBit b) 0 := by
  obtain ⟨m, e, value, result⟩ := mul_finite ha hb
  have zero : m = 0 := by simpa [h, unit_ne_zero, zpow_ne_zero] using value
  rw [result, zero, roundDyadic, Nat.zero_mul, roundRat_zero]

/-- A zero quotient carries the exclusive or of the signs (log 19). -/
theorem div_of_zero_dividend {a b : Word} (ha : isFinite a = true) (hb : isFinite b = true) (h0 : toRat b ≠ 0)
    (h : toRat a = 0) : div a b = withSign (signBit a != signBit b) 0 := by
  obtain ⟨n, d, hd, value, result⟩ := div_finite ha hb h0
  have zero : n = 0 := by simpa [h, unit_ne_zero, hd.ne'] using value
  rw [result, zero, roundRat_zero]

/-- Division of a finite word by a zero: an infinity, or CNAN for 0 over 0 (log 19). -/
theorem div_of_zero_divisor {a b : Word} (ha : isFinite a = true) (hb : isFinite b = true) (h0 : toRat b = 0) :
    div a b = if toRat a = 0 then Config.cnan else withSign (signBit a != signBit b) infMag := by
  obtain ⟨m, e, hm⟩ := unpack_fin_of_finite ha
  obtain ⟨m', e', hm'⟩ := unpack_fin_of_finite hb
  simp only [div, hm, hm', if_pos ((toRat_eq_zero_iff hm').1 h0), toRat_eq_zero_iff hm]

/-- An infinity and a finite word (log 19). -/
theorem infinity_with_finite (s : Bool) {b : Word} (hb : isFinite b = true) :
    add (withSign s infMag) b = withSign s infMag ∧ add b (withSign s infMag) = withSign s infMag ∧
    (toRat b ≠ 0 → mul (withSign s infMag) b = withSign (s != signBit b) infMag ∧
      mul b (withSign s infMag) = withSign (s != signBit b) infMag) ∧
    (toRat b = 0 → mul (withSign s infMag) b = Config.cnan ∧ mul b (withSign s infMag) = Config.cnan) ∧
    div (withSign s infMag) b = withSign (s != signBit b) infMag ∧
    div b (withSign s infMag) = withSign (s != signBit b) 0 := by
  obtain ⟨m, e, hm⟩ := unpack_fin_of_finite hb
  have comm : (signBit b != s) = (s != signBit b) := bne_comm
  by_cases zero : m = 0
  · simp [add, mul, div, unpack_infinity, hm, toRat_eq_zero_iff hm, comm, zero]
  · simp [add, mul, div, unpack_infinity, hm, toRat_eq_zero_iff hm, comm, zero]

/-- Two infinities (log 19). -/
theorem infinity_with_infinity (s t : Bool) :
    add (withSign s infMag) (withSign t infMag) = (if s = t then withSign s infMag else Config.cnan) ∧
    mul (withSign s infMag) (withSign t infMag) = withSign (s != t) infMag ∧
    div (withSign s infMag) (withSign t infMag) = Config.cnan := by
  simp [add, mul, div, unpack_infinity]

/-- Subtraction is the addition of neg (00 R12, R13). -/
theorem sub_eq_add_of_neg {b : Word} (hb : isNaN b = false) (a : Word) : sub a b = add a (neg b) := by
  rw [sub, neg, if_neg (Bool.eq_false_iff.1 hb)]

end Sys2Proof.Machine.F64

namespace Sys2Proof.Proofs

open Sys2Proof.Machine

/-- Settles O48: each primitive rounds its exact value once. -/
theorem arithmeticRoundsToNearestEven : Obligations.ArithmeticRoundsToNearestEven := by
  unfold Obligations.ArithmeticRoundsToNearestEven
  exact fun a b ha hb => ⟨F64.roundsTo_add ha hb, F64.roundsTo_sub ha hb, F64.roundsTo_mul ha hb, F64.roundsTo_div ha hb⟩

/-- Settles O49: the zeros and infinities of the statement are signs over a zero magnitude and over infinity's. -/
theorem specialOperands : Obligations.SpecialOperands := by
  unfold Obligations.SpecialOperands
  intro sign inf
  have hsign : sign = fun neg => F64.withSign neg 0 := by funext neg; cases neg <;> decide
  have hinf : inf = fun neg => F64.withSign neg F64.infMag := by funext neg; cases neg <;> decide
  rw [hsign, hinf]
  refine ⟨fun a b ha hb => ⟨F64.add_of_zero_sum ha hb, F64.mul_of_zero_product ha hb, F64.div_of_zero_dividend ha hb, fun h0 h => ?byZero,
    fun h0 h => ?invalid⟩, fun s b hb => F64.infinity_with_finite s hb, F64.infinity_with_infinity, fun a b hb => ?sub⟩
  case byZero => rw [F64.div_of_zero_divisor ha hb h0, if_neg h]
  case invalid => rw [F64.div_of_zero_divisor ha hb h0, if_pos h]
  case sub =>
    refine F64.sub_eq_add_of_neg ?_ a
    rcases hb with finite | infinite
    · exact F64.isNaN_of_isFinite finite
    · rw [infinite]; exact F64.isNaN_withSign _ le_rfl

end Sys2Proof.Proofs

end

section
/-! PROOFS. The statements about FSIN and FCOS (00 R17), the coefficient (40 R133), the regimes (40 R132) and the ends of the grid
(41 R173). First what the rounding keeps of order and bounds, then one theorem for each obligation. -/

namespace Sys2Proof.Machine.F64

/-! ## Order and bounds under rounding -/

theorem toRat_roundRat (neg : Bool) {n d : Nat} (h : roundMag n d < infMag) :
    toRat (roundRat neg n d) = unit neg * magValue (roundMag n d) := toRat_withSign neg h

theorem roundMag_of_nonpos {n d : Nat} (hd : 0 < d) (h : (n : ℚ) / d ≤ 0) : roundMag n d = 0 :=
  Nat.le_zero.1 (roundMag_le_of hd (Nat.zero_le _) (by rwa [magValue_zero]))

theorem roundMag_lt_of_isFinite {neg : Bool} {n d : Nat} (h : isFinite (roundRat neg n d) = true) :
    roundMag n d < infMag := by
  rwa [roundRat, isFinite_withSign neg (roundMag_le n d), decide_eq_true_eq] at h

/-- Rounding keeps the order of the exact values. -/
theorem toRat_roundRat_mono {s t : Bool} {n d n' d' : Nat} (hd : 0 < d) (hd' : 0 < d')
    (h : unit s * ((n : ℚ) / d) ≤ unit t * ((n' : ℚ) / d')) (fin : isFinite (roundRat s n d) = true)
    (fin' : isFinite (roundRat t n' d') = true) : toRat (roundRat s n d) ≤ toRat (roundRat t n' d') := by
  rw [toRat_roundRat s (roundMag_lt_of_isFinite fin), toRat_roundRat t (roundMag_lt_of_isFinite fin')]
  have nonneg : 0 ≤ (n : ℚ) / d := by positivity
  have nonneg' : 0 ≤ (n' : ℚ) / d' := by positivity
  have value := magValue_nonneg (roundMag n d)
  have value' := magValue_nonneg (roundMag n' d')
  cases s <;> cases t <;> simp only [unit, if_true, if_false, Bool.false_eq_true, one_mul, neg_mul] at h ⊢
  · exact magValue_le_iff.2 (roundMag_mono hd hd' h)
  · rw [roundMag_of_nonpos hd (by linarith), roundMag_of_nonpos hd' (by linarith), magValue_zero, neg_zero]
  · linarith
  · exact neg_le_neg (magValue_le_iff.2 (roundMag_mono hd' hd (neg_le_neg_iff.1 h)))

theorem toRat_mul_mono {a b a' b' : Word} (ha : isFinite a = true) (hb : isFinite b = true) (ha' : isFinite a' = true)
    (hb' : isFinite b' = true) (h : toRat a * toRat b ≤ toRat a' * toRat b') (fin : isFinite (mul a b) = true)
    (fin' : isFinite (mul a' b') = true) : toRat (mul a b) ≤ toRat (mul a' b') := by
  obtain ⟨m, e, value, result⟩ := mul_finite ha hb
  obtain ⟨m', e', value', result'⟩ := mul_finite ha' hb'
  rw [value, value', ← roundDyadic_frac, ← roundDyadic_frac] at h
  rw [result] at fin ⊢
  rw [result'] at fin' ⊢
  exact toRat_roundRat_mono (by positivity) (by positivity) h fin fin'

theorem toRat_div_mono {a b a' b' : Word} (ha : isFinite a = true) (hb : isFinite b = true) (ha' : isFinite a' = true)
    (hb' : isFinite b' = true) (h0 : toRat b ≠ 0) (h0' : toRat b' ≠ 0) (h : toRat a / toRat b ≤ toRat a' / toRat b')
    (fin : isFinite (div a b) = true) (fin' : isFinite (div a' b') = true) : toRat (div a b) ≤ toRat (div a' b') := by
  obtain ⟨n, d, hd, value, result⟩ := div_finite ha hb h0
  obtain ⟨n', d', hd', value', result'⟩ := div_finite ha' hb' h0'
  rw [value, value'] at h
  rw [result] at fin ⊢
  rw [result'] at fin' ⊢
  exact toRat_roundRat_mono hd hd' h fin fin'

theorem abs_toRat {v : Word} (h : isFinite v = true) : |toRat v| = magValue (v.toNat % 2 ^ 63) := by
  rw [toRat_eq_unit_mul h, abs_unit_mul, abs_of_nonneg (magValue_nonneg _)]

/-- Every finite word is below the bound from which a rounding is infinite. -/
theorem abs_toRat_lt {v : Word} (h : isFinite v = true) : |toRat v| < overflowBound := by
  have largest := magValue_le_iff.2 (Nat.le_sub_one_of_lt (isFinite_iff.1 h))
  rw [magValue_largest] at largest
  rw [abs_toRat h, overflowBound_eq]
  refine lt_of_le_of_lt largest ?_
  have pos : (0 : ℚ) < 2 ^ 970 := by positivity
  generalize (2 : ℚ) ^ 970 = half at pos ⊢
  linarith

/-- The two finite words of a finite word's magnitude. -/
theorem exists_toRat_eq_abs {u : Word} (hu : isFinite u = true) :
    (∃ v, isFinite v = true ∧ toRat v = |toRat u|) ∧ ∃ v, isFinite v = true ∧ toRat v = -|toRat u| := by
  have flipped : isFinite (flipSign u) = true := by rwa [isFinite_flipSign]
  rcases abs_cases (toRat u) with ⟨e, -⟩ | ⟨e, -⟩ <;> rw [e]
  · exact ⟨⟨u, hu, rfl⟩, flipSign u, flipped, toRat_flipSign hu⟩
  · exact ⟨⟨flipSign u, flipped, toRat_flipSign hu⟩, u, hu, (neg_neg _).symm⟩

/-- A value within the bound of a finite word rounds within it. -/
theorem RoundsTo.within {x : ℚ} {v u : Word} (h : RoundsTo x v) (hu : isFinite u = true) (hx : |x| ≤ |toRat u|) :
    isFinite v = true ∧ |toRat v| ≤ |toRat u| := by
  have small : |x| < overflowBound := lt_of_le_of_lt hx (abs_toRat_lt hu)
  refine ⟨h.finite small, ?_⟩
  obtain ⟨⟨p, hp, valueP⟩, q, hq, valueQ⟩ := exists_toRat_eq_abs hu
  obtain ⟨low, high⟩ := abs_le.1 hx
  have nearP := h.nearest small p hp
  have nearQ := h.nearest small q hq
  rw [valueP, abs_of_nonneg (a := |toRat u| - x) (by linarith)] at nearP
  rw [valueQ, abs_of_nonpos (a := -|toRat u| - x) (by linarith)] at nearQ
  have upper := (le_abs_self _).trans nearP
  have lower := (neg_abs_le (toRat v - x)).trans' (neg_le_neg nearQ)
  exact abs_le.2 ⟨by linarith, by linarith⟩

/-! ## FSIN and FCOS -/

theorem toRat_one : toRat Config.one = 1 := by
  rw [toRat_of_unpack (show unpack Config.one = .fin false (2 ^ 52) (-52) by decide)]; norm_num [unit]

theorem toRat_two : toRat Config.two = 2 := by
  rw [toRat_of_unpack (show unpack Config.two = .fin false (2 ^ 52) (-51) by decide)]; norm_num [unit]

theorem toRat_four : toRat Config.four = 4 := by
  rw [toRat_of_unpack (show unpack Config.four = .fin false (2 ^ 52) (-50) by decide)]; norm_num [unit]

/-- Every rounding of FSIN and FCOS is a finite word within [-1, 1] (00 R17). -/
theorem trigValue_within_one (m : Nat) (e : ℤ) (pick : Trig.Estimate → ℤ) :
    isFinite (Trig.value m e pick) = true ∧ |toRat (Trig.value m e pick)| ≤ 1 := by
  obtain ⟨s, mag, value, bound⟩ := Trig.value_range m e pick
  have one : magValue (0x3FF * 2 ^ 52) = 1 := by norm_num [magValue]
  have lt : mag < infMag := lt_of_le_of_lt bound (by norm_num [infMag])
  have fin : isFinite (withSign s mag) = true := by rw [isFinite_withSign s lt.le, decide_eq_true lt]
  rw [value, abs_toRat fin, mag_withSign s (lt_trans lt infMag_lt), ← one]
  exact ⟨fin, magValue_le_iff.2 bound⟩

/-- FSIN of a finite argument: a zero itself, else one of the roundings. -/
theorem fsin_finite {a : Word} (h : isFinite a = true) :
    (toRat a = 0 ∧ fsin a = a) ∨ ∃ m e pick, fsin a = Trig.value m e pick := by
  obtain ⟨m, e, hm⟩ := unpack_fin_of_finite h
  rw [toRat_eq_zero_iff hm]
  simp only [fsin, hm]
  split
  · next zero => exact .inl ⟨zero, rfl⟩
  · exact .inr ⟨_, _, _, rfl⟩

theorem fcos_finite {a : Word} (h : isFinite a = true) :
    (toRat a = 0 ∧ fcos a = Config.one) ∨ ∃ m e pick, fcos a = Trig.value m e pick := by
  obtain ⟨m, e, hm⟩ := unpack_fin_of_finite h
  rw [toRat_eq_zero_iff hm]
  simp only [fcos, hm]
  split
  · next zero => exact .inl ⟨zero, rfl⟩
  · exact .inr ⟨_, _, _, rfl⟩

theorem fsin_within_one {a : Word} (h : isFinite a = true) : isFinite (fsin a) = true ∧ |toRat (fsin a)| ≤ 1 := by
  rcases fsin_finite h with ⟨zero, e⟩ | ⟨m, x, pick, e⟩ <;> rw [e]
  · exact ⟨h, by rw [zero, abs_zero]; exact zero_le_one⟩
  · exact trigValue_within_one m x pick

theorem fcos_within_one {a : Word} (h : isFinite a = true) : isFinite (fcos a) = true ∧ |toRat (fcos a)| ≤ 1 := by
  rcases fcos_finite h with ⟨-, e⟩ | ⟨m, x, pick, e⟩ <;> rw [e]
  · exact ⟨by decide, by rw [toRat_one, abs_one]⟩
  · exact trigValue_within_one m x pick

/-- A NaN or an infinity has no sine and no cosine (00 R17). -/
theorem fsin_fcos_of_not_finite {a : Word} (h : isFinite a = false) : fsin a = Config.cnan ∧ fcos a = Config.cnan := by
  rcases unpack_cases a with ⟨hu, -⟩ | ⟨hu, -⟩ | ⟨c, m, -, -, fin, -⟩
  · simp [fsin, fcos, hu]
  · simp [fsin, fcos, hu]
  · rw [h] at fin; cases fin

/-! ## The coefficient -/

theorem signBit_roundRat (neg : Bool) (n d : Nat) : signBit (roundRat neg n d) = neg :=
  signBit_withSign neg (lt_of_le_of_lt (roundMag_le n d) infMag_lt)

theorem signBit_mul {a b : Word} (ha : isFinite a = true) (hb : isFinite b = true) :
    signBit (mul a b) = (signBit a != signBit b) := by
  obtain ⟨m, e, -, result⟩ := mul_finite ha hb
  rw [result, roundDyadic, signBit_roundRat]

/-- The product of words within two bounds is within any finite word not below the bounds' product. -/
theorem mul_within {a b u : Word} {A B : ℚ} (ha : isFinite a = true ∧ |toRat a| ≤ A)
    (hb : isFinite b = true ∧ |toRat b| ≤ B) (hu : isFinite u = true) (hAB : A * B ≤ |toRat u|) :
    isFinite (mul a b) = true ∧ |toRat (mul a b)| ≤ |toRat u| := by
  refine (roundsTo_mul ha.1 hb.1).within hu (le_trans ?_ hAB)
  rw [abs_mul]
  exact mul_le_mul ha.2 hb.2 (abs_nonneg _) ((abs_nonneg _).trans ha.2)

theorem isFinite_half {w : Word} (h : isFinite w = true) : isFinite (half w) = true := by
  have two : isFinite Config.two = true := by decide
  refine ((roundsTo_div h two (by rw [toRat_two]; norm_num)).within h ?_).1
  rw [toRat_two, abs_div, abs_two]
  linarith [abs_nonneg (toRat w)]

theorem neg_finite {v : Word} (h : isFinite v = true) :
    isFinite (neg v) = true ∧ signBit (neg v) = !signBit v ∧ toRat (neg v) = -toRat v := by
  rw [neg, if_neg (Bool.eq_false_iff.1 (isNaN_of_isFinite h))]
  exact ⟨by rwa [isFinite_flipSign], signBit_flipSign v, toRat_flipSign h⟩

/-- 4.0 times the rounded square of a word within [-1, 1]: within 4.0, and of positive sign (40 R133). -/
theorem four_mul_square {c : Word} (h : isFinite c = true ∧ |toRat c| ≤ 1) :
    isFinite (mul Config.four (mul c c)) = true ∧ |toRat (mul Config.four (mul c c))| ≤ 4 ∧
      signBit (mul Config.four (mul c c)) = false := by
  have one : isFinite Config.one = true := by decide
  have four : isFinite Config.four = true := by decide
  have square := mul_within h h one (by rw [toRat_one, abs_one, mul_one])
  have scaled := mul_within ⟨four, le_refl |toRat Config.four|⟩ square four
    (by rw [toRat_one, abs_one, mul_one])
  rw [show |toRat Config.four| = 4 by rw [toRat_four, abs_of_pos (by norm_num)]] at scaled
  refine ⟨scaled.1, scaled.2, ?_⟩
  rw [signBit_mul four square.1, signBit_mul h.1 h.1, bne_self_eq_false]
  decide

end Sys2Proof.Machine.F64

namespace Sys2Proof.Machine

open F64

theorem coefficient_low {w : Word} (h : isFinite w = true) :
    isFinite (coefficient .low w) = true ∧ signBit (coefficient .low w) = true ∧ -4 ≤ toRat (coefficient .low w) := by
  obtain ⟨fin, bound, sign⟩ := four_mul_square (fsin_within_one (isFinite_half h))
  obtain ⟨finNeg, signNeg, valueNeg⟩ := neg_finite fin
  rw [coefficient, signNeg, sign, valueNeg]
  exact ⟨finNeg, rfl, neg_le_neg (abs_le.1 bound).2⟩

theorem coefficient_mid {w : Word} (h : isFinite w = true) :
    isFinite (coefficient .mid w) = true ∧ -2 ≤ toRat (coefficient .mid w) ∧ toRat (coefficient .mid w) ≤ 2 := by
  have two : isFinite Config.two = true := by decide
  have scaled := mul_within ⟨two, le_refl |toRat Config.two|⟩ (fcos_within_one h) two (by rw [mul_one])
  rw [toRat_two, abs_two] at scaled
  exact ⟨scaled.1, abs_le.1 scaled.2⟩

theorem coefficient_high {w : Word} (h : isFinite w = true) :
    isFinite (coefficient .high w) = true ∧ signBit (coefficient .high w) = false ∧
      toRat (coefficient .high w) ≤ 4 := by
  obtain ⟨fin, bound, sign⟩ := four_mul_square (fcos_within_one (isFinite_half h))
  exact ⟨fin, sign, (abs_le.1 bound).2⟩

end Sys2Proof.Machine

namespace Sys2Proof.Proofs

open Sys2Proof.Machine

/-- Settles O53: the zeros by evaluation, the rest by the range of every rounding. -/
theorem sineAndCosineProperties : Obligations.SineAndCosineProperties := by
  unfold Obligations.SineAndCosineProperties
  refine ⟨by decide, by decide, by decide, by decide, fun a h => ?finite, fun a h => F64.fsin_fcos_of_not_finite h⟩
  case finite =>
    obtain ⟨finS, boundS⟩ := F64.fsin_within_one h
    obtain ⟨finC, boundC⟩ := F64.fcos_within_one h
    exact ⟨finS, boundS, finC, boundC⟩

/-- Settles O28: each regime's coefficient is built of words within [-1, 1]. -/
theorem coefficientRanges : Obligations.CoefficientRanges := by
  unfold Obligations.CoefficientRanges
  exact ⟨fun w h => ⟨coefficient_low h, coefficient_mid h, coefficient_high h⟩, by decide, by decide⟩

/-- Settles O47: seven evaluations. -/
theorem gridEndPoints : Obligations.GridEndPoints := by
  unfold Obligations.GridEndPoints
  decide +kernel

end Sys2Proof.Proofs

end

section
/-! PROOFS. The regimes of the accepted frequencies (40 R132) and the correct rounding of FSIN and FCOS (00 R17; log 7). First the
regime quotient and its order, then the certified roundings, then one theorem for each obligation. -/

namespace Sys2Proof.Machine

open F64

/-! ## The regime quotient -/

/-- r = div(mul(6.0, w), TWO_PI64), whose floor is the regime index (40 R132). -/
def regimeQuotient (w : Word) : Word := F64.div (F64.mul Config.six w) Config.twoPi64

theorem toRat_six : toRat Config.six = 6 := by
  rw [toRat_of_unpack (show unpack Config.six = .fin false (3 * 2 ^ 51) (-50) by decide)]; norm_num [unit]

theorem toRat_twoPi64 : toRat Config.twoPi64 = 7074237752028440 / 2 ^ 50 := by
  rw [toRat_of_unpack (show unpack Config.twoPi64 = .fin false 7074237752028440 (-50) by decide)]; norm_num [unit]

/-- On the number line the legal frequencies lie between +0.0 and the word below TWO_PI64 (40 R131). -/
theorem toRat_of_omegaLegal {w : Word} (h : omegaLegal w) :
    0 ≤ toRat w ∧ toRat w ≤ toRat 0x401921FB54442D17#64 := by
  obtain ⟨low, high⟩ := (omegaLegal_iff_orderKey w).1 h
  have fin := isFinite_of_omegaLegal h
  have zero : isFinite 0#64 = true ∧ orderKey 0#64 = 0 := by decide
  have top : isFinite 0x401921FB54442D17#64 = true ∧ orderKey 0x401921FB54442D17#64 = 0x401921FB54442D17 := by decide
  have toRatZero : toRat 0#64 = 0 := by
    rw [toRat_of_unpack (show unpack 0#64 = .fin false 0 (-1074) by decide)]; norm_num
  rw [← toRatZero, ← orderKey_le_iff zero.1 fin, ← orderKey_le_iff fin top.1, zero.2, top.2]
  exact ⟨low, by omega⟩

/-- 37.75, above 6 · TWO_PI64: a bound for the product and the quotient. -/
def quotientBound : Word := 0x4042E00000000000#64

theorem toRat_quotientBound : toRat quotientBound = 151 / 4 := by
  rw [toRat_of_unpack (show unpack quotientBound = .fin false (151 * 2 ^ 45) (-47) by decide)]; norm_num [unit]

theorem abs_toRat_of_omegaLegal {w : Word} (h : omegaLegal w) : |6 * toRat w| ≤ 151 / 4 := by
  obtain ⟨low, high⟩ := toRat_of_omegaLegal h
  rw [toRat_of_unpack (show unpack 0x401921FB54442D17#64 = .fin false 7074237752028439 (-50) by decide)] at high
  norm_num [unit] at high
  rw [abs_of_nonneg (by linarith)]
  linarith

theorem regimeProduct_within {w : Word} (h : omegaLegal w) :
    isFinite (F64.mul Config.six w) = true ∧ |toRat (F64.mul Config.six w)| ≤ 151 / 4 := by
  have bound : isFinite quotientBound = true := by decide
  have value : |toRat quotientBound| = 151 / 4 := by rw [toRat_quotientBound]; norm_num
  have product := roundsTo_mul (show isFinite Config.six = true by decide) (isFinite_of_omegaLegal h)
  rw [toRat_six] at product
  rw [← value]
  exact product.within bound (by rw [value]; exact abs_toRat_of_omegaLegal h)

theorem isFinite_regimeQuotient {w : Word} (h : omegaLegal w) : isFinite (regimeQuotient w) = true := by
  obtain ⟨fin, bound⟩ := regimeProduct_within h
  have pi : isFinite Config.twoPi64 = true := by decide
  refine ((roundsTo_div fin pi (by rw [toRat_twoPi64]; norm_num)).within fin ?_).1
  rw [abs_div, toRat_twoPi64]
  refine div_le_self (abs_nonneg _) ?_
  norm_num

/-- r never decreases as w grows (40 R132). -/
theorem regimeQuotient_mono {w w' : Word} (h : omegaLegal w) (h' : omegaLegal w') (le : toRat w ≤ toRat w') :
    toRat (regimeQuotient w) ≤ toRat (regimeQuotient w') := by
  have six : isFinite Config.six = true := by decide
  have pi : isFinite Config.twoPi64 = true := by decide
  have pi0 : toRat Config.twoPi64 ≠ 0 := by rw [toRat_twoPi64]; norm_num
  obtain ⟨fin, -⟩ := regimeProduct_within h
  obtain ⟨fin', -⟩ := regimeProduct_within h'
  have products : toRat (F64.mul Config.six w) ≤ toRat (F64.mul Config.six w') :=
    toRat_mul_mono six (isFinite_of_omegaLegal h) six (isFinite_of_omegaLegal h')
      (by rw [toRat_six]; linarith) fin fin'
  refine toRat_div_mono fin pi fin' pi pi0 pi0 ?_ (isFinite_regimeQuotient h) (isFinite_regimeQuotient h')
  rw [toRat_twoPi64]
  exact div_le_div_of_nonneg_right products (by norm_num)

/-- On legal frequencies the order is that of the positions on the number line. -/
theorem regimeQuotient_mono_key {w w' : Word} (h : omegaLegal w) (h' : omegaLegal w') (le : orderKey w ≤ orderKey w') :
    toRat (regimeQuotient w) ≤ toRat (regimeQuotient w') :=
  regimeQuotient_mono h h' ((orderKey_le_iff (isFinite_of_omegaLegal h) (isFinite_of_omegaLegal h')).1 le)

/-- A bound between two neighbouring frequencies, with r below it at the first and not below it at the second, cuts the
legal frequencies there. -/
theorem regimeQuotient_lt_iff {w low high bound : Word} (h : omegaLegal w) (hlow : omegaLegal low)
    (hhigh : omegaLegal high) (neighbours : orderKey high = orderKey low + 1) (fin : isFinite bound = true)
    (below : F64.lt (regimeQuotient low) bound = true) (above : F64.le bound (regimeQuotient high) = true) :
    toRat (regimeQuotient w) < toRat bound ↔ orderKey w ≤ orderKey low := by
  rw [lt_iff (isFinite_regimeQuotient hlow) fin] at below
  rw [le_iff fin (isFinite_regimeQuotient hhigh)] at above
  constructor
  · intro lt
    by_contra beyond
    have := regimeQuotient_mono_key hhigh h (by omega)
    linarith
  · exact fun le => lt_of_le_of_lt (regimeQuotient_mono_key h hlow le) below

/-- r is below 1.0 exactly up to 0x3FF0C152382D7364 (40 R132). -/
theorem regimeQuotient_lt_one_iff {w : Word} (h : omegaLegal w) :
    toRat (regimeQuotient w) < 1 ↔ orderKey w ≤ 0x3FF0C152382D7364 := by
  rw [← toRat_one]
  exact regimeQuotient_lt_iff (low := 0x3FF0C152382D7364#64) (high := 0x3FF0C152382D7365#64) h (.inr (by decide))
    (.inr (by decide)) (by decide) (by decide) (by decide) (by decide)

/-- r is below 2.0 exactly up to 0x4000C152382D7364 (40 R132). -/
theorem regimeQuotient_lt_two_iff {w : Word} (h : omegaLegal w) :
    toRat (regimeQuotient w) < 2 ↔ orderKey w ≤ 0x4000C152382D7364 := by
  rw [← toRat_two]
  exact regimeQuotient_lt_iff (low := 0x4000C152382D7364#64) (high := 0x4000C152382D7365#64) h (.inr (by decide))
    (.inr (by decide)) (by decide) (by decide) (by decide) (by decide)

theorem regimeQuotient_largest : regimeQuotient 0x401921FB54442D17#64 = 0x4017FFFFFFFFFFFF#64 := by decide

/-- r lies from 0 to below 6.0 (40 R132). -/
theorem regimeQuotient_range {w : Word} (h : omegaLegal w) :
    0 ≤ toRat (regimeQuotient w) ∧ toRat (regimeQuotient w) < 6 := by
  obtain ⟨low, high⟩ := (omegaLegal_iff_orderKey w).1 h
  have bottom : omegaLegal 0#64 := .inr (by decide)
  have top : omegaLegal 0x401921FB54442D17#64 := .inr (by decide)
  have zero : toRat (regimeQuotient 0#64) = 0 :=
    (toRat_eq_zero_iff (show unpack (regimeQuotient 0#64) = .fin false 0 (-1074) by decide)).2 rfl
  constructor
  · rw [← zero]
    exact regimeQuotient_mono_key bottom h (by rw [show orderKey 0#64 = 0 by decide]; exact low)
  · refine lt_of_le_of_lt (regimeQuotient_mono_key h top ?_) ?_
    · rw [show orderKey 0x401921FB54442D17#64 = 0x401921FB54442D17 by decide]; omega
    · rw [← toRat_six, ← lt_iff (isFinite_regimeQuotient top) (by decide), regimeQuotient_largest]
      decide

/-! ## The regimes -/

/-- A legal frequency is -0.0, at position 0, or its bits are its position on the number line (40 R131). -/
theorem omegaLegal_position {w : Word} (h : omegaLegal w) :
    (w = 0x8000000000000000#64 ∧ orderKey w = 0) ∨ (w ≠ 0x8000000000000000#64 ∧ orderKey w = w.toNat) := by
  rcases h with rfl | h
  · exact .inl ⟨rfl, by decide⟩
  · refine .inr ⟨by rintro rfl; simp at h, ?_⟩
    have positive : signBit w = false := by rw [signBit_eq, decide_eq_false_iff_not]; omega
    rw [orderKey_eq, positive, signed, Nat.mod_eq_of_lt (by omega)]
    simp

/-- The regime index is the floor of r, and r decides it (40 R132). -/
theorem regimeIndex_eq_floor {w : Word} (h : omegaLegal w) : regimeIndex w = ⌊toRat (regimeQuotient w)⌋ :=
  floorInt_eq_floor (isFinite_regimeQuotient h)

theorem regimeIndex_range {w : Word} (h : omegaLegal w) : 0 ≤ regimeIndex w ∧ regimeIndex w ≤ 5 := by
  obtain ⟨nonneg, lt⟩ := regimeQuotient_range h
  rw [regimeIndex_eq_floor h]
  refine ⟨Int.floor_nonneg.2 nonneg, Int.lt_add_one_iff.1 (Int.floor_lt.2 ?_)⟩
  norm_num
  exact lt

/-- Index n or more is r at n or more. -/
theorem le_regimeIndex_iff {w : Word} (h : omegaLegal w) (n : ℤ) : n ≤ regimeIndex w ↔ (n : ℚ) ≤ toRat (regimeQuotient w) := by
  rw [regimeIndex_eq_floor h, Int.le_floor]

theorem regimeOf_eq_low_iff {w : Word} : regimeOf w = .low ↔ regimeIndex w = 0 := by
  unfold regimeOf; split_ifs <;> simp [*]

theorem regimeOf_eq_mid_iff {w : Word} : regimeOf w = .mid ↔ regimeIndex w = 1 := by
  unfold regimeOf; split_ifs <;> simp [*]

theorem regimeOf_eq_high_iff {w : Word} : regimeOf w = .high ↔ regimeIndex w ≠ 0 ∧ regimeIndex w ≠ 1 := by
  unfold regimeOf; split_ifs <;> simp [*]

/-- The three regimes as intervals of r. -/
theorem regimeOf_intervals {w : Word} (h : omegaLegal w) :
    (regimeOf w = .low ↔ toRat (regimeQuotient w) < 1) ∧
    (regimeOf w = .mid ↔ 1 ≤ toRat (regimeQuotient w) ∧ toRat (regimeQuotient w) < 2) ∧
    (regimeOf w = .high ↔ 2 ≤ toRat (regimeQuotient w)) := by
  have one := le_regimeIndex_iff h 1
  have two := le_regimeIndex_iff h 2
  have nonneg := (regimeIndex_range h).1
  rw [Int.cast_one] at one
  rw [Int.cast_ofNat] at two
  rw [regimeOf_eq_low_iff, regimeOf_eq_mid_iff, regimeOf_eq_high_iff, ← not_le, ← not_le, ← one, ← two]
  omega

/-- The three regimes as intervals of the frequency's word. -/
theorem regimeOf_words {w : Word} (h : omegaLegal w) :
    (regimeOf w = .low ↔ w = 0x8000000000000000#64 ∨ w.toNat ≤ 0x3FF0C152382D7364) ∧
    (regimeOf w = .mid ↔ 0x3FF0C152382D7365 ≤ w.toNat ∧ w.toNat < 0x4000C152382D7365) ∧
    (regimeOf w = .high ↔ 0x4000C152382D7365 ≤ w.toNat ∧ w.toNat < 0x401921FB54442D18) := by
  obtain ⟨low, mid, high⟩ := regimeOf_intervals h
  have one := regimeQuotient_lt_one_iff h
  have two := regimeQuotient_lt_two_iff h
  have bound := ((omegaLegal_iff_orderKey w).1 h).2
  rw [← not_lt, one, two] at mid
  rw [← not_lt, two] at high
  rw [low, one, mid, high]
  rcases omegaLegal_position h with ⟨rfl, key⟩ | ⟨notZero, key⟩
  · rw [key]; decide
  · rw [key] at bound ⊢
    simp only [notZero, false_or]
    omega

theorem toRat_zero : toRat Config.zero = 0 :=
  (toRat_eq_zero_iff (show unpack Config.zero = .fin false 0 (-1074) by decide)).2 rfl

/-! ## The certified roundings -/

/-- What is nearest at both ends of an interval is nearest in it. -/
theorem abs_sub_le_of_ends {w u l h x : ℝ} (low : |w - l| ≤ |u - l|) (high : |w - h| ≤ |u - h|) (hl : l ≤ x) (hh : x ≤ h) :
    |w - x| ≤ |u - x| := by
  rw [← sq_le_sq] at *
  rcases le_total u w with le | le
  · have := mul_le_mul_of_nonneg_left hl (sub_nonneg.2 le)
    nlinarith
  · have := mul_le_mul_of_nonneg_left hh (sub_nonneg.2 le)
    nlinarith

/-- A number of units of 2^-P brought into [-1, 1], as `Trig.roundFixed` does before it rounds. -/
def clampFixed (P : Nat) (z : ℤ) : ℤ := max (-(2 ^ P : Nat)) (min z (2 ^ P : Nat))

theorem clampFixed_mono {P : Nat} {z z' : ℤ} (h : z ≤ z') : clampFixed P z ≤ clampFixed P z' :=
  max_le_max le_rfl (min_le_min h le_rfl)

theorem abs_clampFixed_le (P : Nat) (z : ℤ) : |clampFixed P z| ≤ (2 ^ P : Nat) := by
  have := Nat.two_pow_pos P
  rw [abs_le]; unfold clampFixed; omega

/-- The exact value that `Trig.roundFixed` rounds, in the form of `F64.roundRat`. -/
theorem clampFixed_eq_unit_mul (P : Nat) (z : ℤ) :
    (clampFixed P z : ℚ) / 2 ^ P =
      unit (decide (clampFixed P z < 0)) * (((clampFixed P z).natAbs : ℚ) / (2 ^ P : Nat)) := by
  rw [← mul_div_assoc, unit_mul_natAbs]
  push_cast
  rfl

theorem roundsTo_roundFixed (P : Nat) (z : ℤ) : RoundsTo ((clampFixed P z : ℚ) / 2 ^ P) (Trig.roundFixed P z) := by
  rw [clampFixed_eq_unit_mul]
  exact roundsTo_roundRat _ (by positivity)

theorem abs_clampFixed_div_le_one (P : Nat) (z : ℤ) : |(clampFixed P z : ℚ) / 2 ^ P| ≤ 1 := by
  have bound : |(clampFixed P z : ℚ)| ≤ 2 ^ P := by exact_mod_cast abs_clampFixed_le P z
  rw [abs_div, abs_of_pos (show (0 : ℚ) < 2 ^ P by positivity)]
  exact div_le_one_of_le₀ bound (by positivity)

theorem isFinite_roundFixed (P : Nat) (z : ℤ) : isFinite (Trig.roundFixed P z) = true := by
  refine ((roundsTo_roundFixed P z).within (u := Config.one) (by decide) ?_).1
  rw [toRat_one, abs_one]
  exact abs_clampFixed_div_le_one P z

theorem toRat_roundFixed_mono {P : Nat} {z z' : ℤ} (h : z ≤ z') :
    toRat (Trig.roundFixed P z) ≤ toRat (Trig.roundFixed P z') := by
  refine toRat_roundRat_mono (by positivity) (by positivity) ?_ (isFinite_roundFixed P z) (isFinite_roundFixed P z')
  have le : (clampFixed P z : ℚ) ≤ clampFixed P z' := by exact_mod_cast clampFixed_mono h
  have := div_le_div_of_nonneg_right le (show (0 : ℚ) ≤ 2 ^ P by positivity)
  rwa [clampFixed_eq_unit_mul, clampFixed_eq_unit_mul] at this

/-- No finite word is nearer than the rounding to the number of units that is rounded. -/
theorem nearest_roundFixed (P : Nat) (z : ℤ) {u : Word} (hu : isFinite u = true) :
    |((toRat (Trig.roundFixed P z) : ℚ) : ℝ) - (clampFixed P z : ℝ) / 2 ^ P| ≤
      |((toRat u : ℚ) : ℝ) - (clampFixed P z : ℝ) / 2 ^ P| := by
  have small : |(clampFixed P z : ℚ) / 2 ^ P| < overflowBound := by
    refine lt_of_le_of_lt (abs_clampFixed_div_le_one P z) ?_
    have := abs_toRat_lt (show isFinite Config.one = true by decide)
    rwa [toRat_one, abs_one] at this
  exact_mod_cast (roundsTo_roundFixed P z).nearest small u hu

/-- When both ends of an enclosure round to one word, that word is nearest to what is enclosed (log 7). -/
theorem nearest_of_agreed {P : Nat} {z : ℤ} {err : Nat} {w u : Word} {x : ℝ} (agree : Trig.agreed P z err = some w)
    (enc : |(z : ℝ) - 2 ^ P * x| ≤ err) (hx : |x| ≤ 1) (hu : isFinite u = true) :
    |((toRat w : ℚ) : ℝ) - x| ≤ |((toRat u : ℚ) : ℝ) - x| := by
  unfold Trig.agreed at agree
  split at agree
  case isFalse => cases agree
  next same =>
  obtain rfl := Option.some.inj agree
  have lower := toRat_roundFixed_mono (P := P) (show z - err ≤ z by omega)
  have upper := toRat_roundFixed_mono (P := P) (show z ≤ z + err by omega)
  have low : toRat (Trig.roundFixed P z) = toRat (Trig.roundFixed P (z - err)) :=
    le_antisymm (upper.trans_eq (by rw [same])) lower
  have high : toRat (Trig.roundFixed P z) = toRat (Trig.roundFixed P (z + err)) := by rw [low, same]
  obtain ⟨e1, e2⟩ := abs_le.1 enc
  obtain ⟨x1, x2⟩ := abs_le.1 hx
  have p0 : (0 : ℝ) < 2 ^ P := by positivity
  have x1' : -(2 : ℝ) ^ P ≤ 2 ^ P * x := by nlinarith
  have x2' : 2 ^ P * x ≤ (2 : ℝ) ^ P := by nlinarith
  have nearLow := nearest_roundFixed P (z - err) hu
  have nearHigh := nearest_roundFixed P (z + err) hu
  rw [← low] at nearLow
  rw [← high] at nearHigh
  refine abs_sub_le_of_ends nearLow nearHigh ?_ ?_
  · rw [div_le_iff₀ p0]
    unfold clampFixed
    push_cast
    rw [mul_comm]
    exact max_le x1' ((min_le_left _ _).trans (by linarith))
  · rw [le_div_iff₀ p0]
    unfold clampFixed
    push_cast
    rw [mul_comm]
    exact le_max_of_le_right (le_min (by linarith) x2')

/-- A certified rounding is the agreed one of some precision. -/
theorem exists_agreed_of_certified {m : Nat} {e : ℤ} {pick : Trig.Estimate → ℤ} {ps : List Nat} {w : Word}
    (h : Trig.certified m e pick ps = some w) :
    ∃ p, Trig.agreed (Trig.fracBits m e p) (pick (Trig.estimate m e p)) (Trig.estimate m e p).err = some w := by
  induction ps with
  | nil => cases h
  | cons p ps ih =>
    unfold Trig.certified at h
    split at h
    · next agree => exact ⟨p, agree.trans h⟩
    · exact ih h

/-- Where a precision decides, the rounding of the estimates of x is nearest to x. -/
theorem nearest_of_certified {m : Nat} {e : ℤ} {pick : Trig.Estimate → ℤ} {x : ℝ} {u : Word}
    (enc : ∀ p, |(pick (Trig.estimate m e p) : ℝ) - 2 ^ Trig.fracBits m e p * x| ≤ (Trig.estimate m e p).err)
    (hx : |x| ≤ 1) (decides : Trig.certified m e pick Trig.precisions ≠ none) (hu : isFinite u = true) :
    |((toRat (Trig.value m e pick) : ℚ) : ℝ) - x| ≤ |((toRat u : ℚ) : ℝ) - x| := by
  obtain ⟨w, hw⟩ := Option.ne_none_iff_exists'.1 decides
  obtain ⟨p, agree⟩ := exists_agreed_of_certified hw
  rw [show Trig.value m e pick = w by simp only [Trig.value, hw]]
  exact nearest_of_agreed agree (enc p) hx hu

/-- The signed estimates enclose the sine of ±m·2^e. -/
theorem sine_enclosed (s : Bool) (m : Nat) (e : ℤ) (p : Nat) :
    |(((if s then -(Trig.estimate m e p).sin else (Trig.estimate m e p).sin : ℤ)) : ℝ) -
        2 ^ Trig.fracBits m e p * Real.sin ((unit s * m * (2 : ℚ) ^ e : ℚ) : ℝ)| ≤ (Trig.estimate m e p).err := by
  have enc := (Trig.estimate_encloses m e p).2
  cases s
  · simpa [unit] using enc
  · rw [← abs_neg] at enc
    simpa [unit, sub_eq_add_neg, add_comm] using enc

/-- The estimates enclose the cosine of ±m·2^e. -/
theorem cosine_enclosed (s : Bool) (m : Nat) (e : ℤ) (p : Nat) :
    |((Trig.estimate m e p).cos : ℝ) - 2 ^ Trig.fracBits m e p * Real.cos ((unit s * m * (2 : ℚ) ^ e : ℚ) : ℝ)| ≤
      (Trig.estimate m e p).err := by
  have enc := (Trig.estimate_encloses m e p).1
  cases s <;> simpa [unit] using enc

end Sys2Proof.Machine

namespace Sys2Proof.Proofs

open Sys2Proof.Machine

/-- Settles O27: the regimes are intervals of r, r is monotone in ω, and its bounds are evaluated at the frequencies around
them. -/
theorem regimeIntervals : Obligations.RegimeIntervals := by
  unfold Obligations.RegimeIntervals
  intro r
  refine ⟨fun w h => ?intervals, fun w w' h h' le => ?monotone, regimeQuotient_largest⟩
  case monotone =>
    rw [F64.le_iff (isFinite_of_omegaLegal h) (isFinite_of_omegaLegal h')] at le
    exact (F64.le_iff (isFinite_regimeQuotient h) (isFinite_regimeQuotient h')).2 (regimeQuotient_mono h h' le)
  case intervals =>
    have fin : F64.isFinite (r w) = true := isFinite_regimeQuotient h
    obtain ⟨nonneg, lt6⟩ := regimeQuotient_range h
    obtain ⟨i0, i5⟩ := regimeIndex_range h
    have index : F64.floorInt (r w) = regimeIndex w := rfl
    have value : r w = regimeQuotient w := rfl
    rw [F64.le_iff (by decide) fin, F64.lt_iff fin (by decide), F64.lt_iff fin (by decide), F64.le_iff (by decide) fin,
      F64.lt_iff fin (by decide), F64.le_iff (by decide) fin, toRat_zero, toRat_six, F64.toRat_one, F64.toRat_two, index, value]
    obtain ⟨low, mid, high⟩ := regimeOf_intervals h
    refine ⟨i0, i5, nonneg, lt6, regimeOf_eq_low_iff, regimeOf_eq_mid_iff, ?_, low, mid, high, regimeOf_words h⟩
    rw [regimeOf_eq_high_iff]
    omega

/-- Settles O54: both ends of the enclosure that decides round to one word, which is then nearest to all between them; at a
zero the value is exact. -/
theorem sineAndCosineAreCorrectlyRounded : Obligations.SineAndCosineAreCorrectlyRounded := by
  unfold Obligations.SineAndCosineAreCorrectlyRounded
  intro a s m e ha
  have value := F64.toRat_of_unpack ha
  by_cases zero : m = 0
  · have value0 := (F64.toRat_eq_zero_iff ha).2 zero
    have sine : F64.fsin a = a := by simp only [F64.fsin, ha, zero, if_true]
    have cosine : F64.fcos a = Config.one := by simp only [F64.fcos, ha, zero, if_true]
    rw [sine, cosine, value0, F64.toRat_one]
    simp
  · have sine : F64.fsin a = Trig.value m e (fun t => if s then -t.sin else t.sin) := by
      simp only [F64.fsin, ha, zero, if_false]
    have cosine : F64.fcos a = Trig.value m e (fun t => t.cos) := by simp only [F64.fcos, ha, zero, if_false]
    rw [sine, cosine, value]
    exact ⟨fun decides u hu => nearest_of_certified (sine_enclosed s m e) (Real.abs_sin_le_one _) decides hu,
      fun decides u hu => nearest_of_certified (cosine_enclosed s m e) (Real.abs_cos_le_one _) decides hu⟩

end Sys2Proof.Proofs
end

section
/-! PROOFS. A running EVAL from its acceptance to its end (40 R134-R142). First the state after each iteration, then the words an
iteration keeps, then one theorem for each obligation. -/

namespace Sys2Proof.Machine

/-! ## The iterations in a row -/

theorem engineSteps_succ (m : Nat) (s : State) : engineSteps (m + 1) s = engineStep (engineSteps m s) := by
  induction m generalizing s with
  | zero => rfl
  | succ m ih => exact ih (engineStep s)

theorem nextEval_of_lt {n m : Nat} (h : m < n) : nextEval n m = .evalIt (m + 1) := if_pos h

theorem nextEval_self (n : Nat) : nextEval n n = .evalFin := if_neg (lt_irrefl n)

/-- Up to its last iteration an EVAL changes no flag, whatever its samples are (40 R135). -/
theorem engineSteps_evalIt_frame {t : State} (start : t.seq = nextEval t.eN 0) {m : Nat} (hm : m ≤ t.eN) :
    (engineSteps m t).seq = nextEval t.eN m ∧ (engineSteps m t).eN = t.eN ∧ (engineSteps m t).status = t.status := by
  induction m with
  | zero => exact ⟨start, rfl, rfl⟩
  | succ m ih =>
    obtain ⟨seq, eN, status⟩ := ih (Nat.le_of_succ_le hm)
    rw [nextEval_of_lt (Nat.lt_of_succ_le hm)] at seq
    obtain ⟨draws, step⟩ := engineStep_evalIt_frame seq
    rw [engineSteps_succ, step]
    exact ⟨congrArg (nextEval · (m + 1)) eN, eN, status⟩

/-- The recursion state after m iterations over the samples v 0, ..., v (n-1), the last one first (40 R135). -/
def recursionAfter (reg : Regime) (b : Word) (n : Nat) (v : Nat → Word) (m : Nat) : Recursion :=
  recursionOver reg b ((List.range m).map fun k => v (n - 1 - k))

theorem recursionAfter_zero (reg : Regime) (b : Word) (n : Nat) (v : Nat → Word) :
    recursionAfter reg b n v 0 = { acc := Config.zero, p1 := Config.zero, p2 := Config.zero } := rfl

theorem recursionAfter_succ (reg : Regime) (b : Word) (n : Nat) (v : Nat → Word) (m : Nat) :
    recursionAfter reg b n v (m + 1) = iterate reg b (v (n - 1 - m)) (recursionAfter reg b n v m) := by
  simp only [recursionAfter, recursionOver, List.range_succ, List.map_append, List.foldl_append, List.map_cons,
    List.map_nil, List.foldl_cons, List.foldl_nil]

/-- The state after m iterations over the samples v (40 R135). -/
def evalAfter (t : State) (v : Nat → Word) (m : Nat) : State :=
  { t with
    dbgAcc := (recursionAfter t.eReg t.dbgB t.eN v m).acc
    dbgP1 := (recursionAfter t.eReg t.dbgB t.eN v m).p1
    dbgP2 := (recursionAfter t.eReg t.dbgB t.eN v m).p2
    seq := nextEval t.eN m }

/-- Over written samples the iterations in a row are the recursion. -/
theorem engineSteps_evalIt {t : State} {v : Nat → Word} (start : t.seq = nextEval t.eN 0)
    (first : recursionOf t = { acc := Config.zero, p1 := Config.zero, p2 := Config.zero })
    (samples : ∀ j, j < t.eN → t.mem.readWord (sAddr j) = some (v j)) {m : Nat} (hm : m ≤ t.eN) :
    engineSteps m t = evalAfter t v m := by
  induction m with
  | zero => rw [evalAfter, recursionAfter_zero, ← first, ← start]; rfl
  | succ m ih =>
    have seq : (evalAfter t v m).seq = .evalIt (m + 1) := nextEval_of_lt (Nat.lt_of_succ_le hm)
    have sample : (evalAfter t v m).mem.readWord (sAddr (t.eN - (m + 1))) = some (v (t.eN - 1 - m)) := by
      rw [show t.eN - 1 - m = t.eN - (m + 1) by omega]
      exact samples _ (by omega)
    rw [engineSteps_succ, ih (Nat.le_of_succ_le hm), engineStep_evalIt seq rfl sample]
    conv_rhs => rw [evalAfter, recursionAfter_succ]
    rfl

/-- A ready EVAL is accepted (40 R131). -/
theorem EvalReady.exec {s : State} {n : Nat} {v : Nat → Word} (h : EvalReady s n v) :
    exec .eval s = .next (acceptEval n s.omega s) := by
  have len : lenOperand s = n := by rw [lenOperand_eq, h.len]
  rw [exec_eval_idle h.idle, evalCommand_of_legal (by rw [len]; exact h.atLeastOne) (by rw [len]; exact h.atMostNMax)
    h.omega, len]

/-- The recursion state at the end of an EVAL of the samples v 0, ..., v (n-1). -/
def finalRecursion (s : State) (n : Nat) (v : Nat → Word) : Recursion :=
  recursionAfter (regimeOf s.omega) (coefficient (regimeOf s.omega) s.omega) n v n

/-- The state at the end of an EVAL of n samples with the recursion state r (40 R134, R139). -/
def evalEnd (s : State) (n : Nat) (r : Recursion) : State :=
  evalFinal { acceptEval n s.omega s with dbgAcc := r.acc, dbgP1 := r.p1, dbgP2 := r.p2 }

/-- A ready EVAL ends after n + 1 engine steps (40 R135, R139). -/
theorem EvalReady.final {s : State} {n : Nat} {v : Nat → Word} (h : EvalReady s n v) :
    engineSteps (n + 1) (acceptEval n s.omega s) = evalEnd s n (finalRecursion s n v) := by
  have start : (acceptEval n s.omega s).seq = nextEval n 0 := (nextEval_of_lt h.atLeastOne).symm
  have iterations : engineSteps n (acceptEval n s.omega s) = evalAfter (acceptEval n s.omega s) v n :=
    engineSteps_evalIt start rfl h.samples le_rfl
  rw [engineSteps_succ, iterations, engineStep_evalFin (nextEval_self n)]
  rfl

/-! ## Zeros in an iteration -/

theorem iterate_p2 (reg : Regime) (b x : Word) (r : Recursion) : (iterate reg b x r).p2 = r.p1 := by
  cases reg <;> rfl

theorem isFinite_coefficient {w : Word} (h : F64.isFinite w = true) (reg : Regime) :
    F64.isFinite (coefficient reg w) = true := by
  cases reg
  case low => exact (coefficient_low h).1
  case mid => exact (coefficient_mid h).1
  case high => exact (coefficient_high h).1

end Sys2Proof.Machine

namespace Sys2Proof.Machine.F64

/-- A finite word times +0.0 is a zero. -/
theorem mul_zero_eq {b : Word} (hb : isFinite b = true) : mul b Config.zero = withSign (signBit b) 0 := by
  rw [mul_of_zero_product hb (by decide) (by rw [toRat_zero, mul_zero]), show signBit Config.zero = false by decide,
    Bool.bne_false]

theorem add_zero_signedZero (neg : Bool) : add Config.zero (withSign neg 0) = Config.zero := by
  cases neg <;> decide

/-- The word of SIN_OUT when DBG_P2 is +0.0 (40 R142). -/
theorem mul_neg_zero {v : Word} (h : isFinite v = true) :
    mul (neg v) Config.zero = if signBit v then 0x0000000000000000#64 else 0x8000000000000000#64 := by
  obtain ⟨fin, sign, -⟩ := neg_finite h
  rw [mul_zero_eq fin, sign]
  cases signBit v <;> decide

/-- Words that are no zeros lie at a position of their own on the number line. -/
theorem eq_of_orderKey_eq {a b : Word} (h : orderKey a = orderKey b) (h0 : b.toNat % 2 ^ 63 ≠ 0) : a = b := by
  rw [orderKey_eq, orderKey_eq] at h
  have same : signBit a = signBit b ∧ a.toNat % 2 ^ 63 = b.toNat % 2 ^ 63 := by
    generalize a.toNat % 2 ^ 63 = m at h ⊢
    generalize b.toNat % 2 ^ 63 = n at h h0 ⊢
    generalize signBit a = s at h ⊢
    generalize signBit b = t at h ⊢
    cases s <;> cases t <;> simp [signed] at h ⊢ <;> omega
  rw [eq_withSign a, eq_withSign b, same.1, same.2]

theorem toRat_signedZero (neg : Bool) : toRat (withSign neg 0) = 0 := by
  rw [toRat_withSign neg (by norm_num [infMag]), magValue_zero, mul_zero]

/-- Adding a zero keeps every word that is neither a NaN nor a zero. -/
theorem add_signedZero {x : Word} (hx : isNaN x = false) (h0 : x.toNat % 2 ^ 63 ≠ 0) (neg : Bool) :
    add x (withSign neg 0) = x := by
  have zero : isFinite (withSign neg 0) = true := by cases neg <;> decide
  rcases unpack_cases x with ⟨-, nan, -⟩ | ⟨-, -, -, e⟩ | ⟨-, -, -, -, fin, -⟩
  · rw [hx] at nan; cases nan
  · rw [e]; exact (infinity_with_finite _ zero).1
  · have sum := roundsTo_add fin zero
    rw [toRat_signedZero, add_zero] at sum
    have small := abs_toRat_lt fin
    have near := sum.nearest small x fin
    rw [sub_self, abs_zero] at near
    have value : toRat (add x (withSign neg 0)) = toRat x := sub_eq_zero.1 (abs_nonpos_iff.1 near)
    refine eq_of_orderKey_eq (le_antisymm ?_ ?_) h0
    · exact (orderKey_le_iff (sum.finite small) fin).2 value.le
    · exact (orderKey_le_iff fin (sum.finite small)).2 value.ge

theorem sub_signedZero {x : Word} (hx : isNaN x = false) (h0 : x.toNat % 2 ^ 63 ≠ 0) (neg : Bool) :
    sub x (withSign neg 0) = x := by
  rw [sub, flipSign_withSign neg (by norm_num), add_signedZero hx h0]

end Sys2Proof.Machine.F64

namespace Sys2Proof.Machine

/-- An iteration over a +0.0 keeps the zero recursion state. -/
theorem iterate_zero (reg : Regime) {b : Word} (hb : F64.isFinite b = true) :
    iterate reg b 0 { acc := Config.zero, p1 := Config.zero, p2 := Config.zero } =
      { acc := Config.zero, p1 := Config.zero, p2 := Config.zero } := by
  have product : F64.add 0 (F64.mul b Config.zero) = Config.zero := by
    rw [F64.mul_zero_eq hb]; exact F64.add_zero_signedZero _
  have sum : F64.add Config.zero Config.zero = Config.zero := by decide
  have difference : F64.sub Config.zero Config.zero = Config.zero := by decide
  cases reg <;> simp only [iterate, iterLow, iterMid, iterHigh, product, sum, difference]

theorem recursionAfter_of_zeros (reg : Regime) {b : Word} (hb : F64.isFinite b = true) (n m : Nat) :
    recursionAfter reg b n (fun _ => 0) m = { acc := Config.zero, p1 := Config.zero, p2 := Config.zero } := by
  induction m with
  | zero => rfl
  | succ m ih => rw [recursionAfter_succ, ih, iterate_zero reg hb]

/-- The first iteration takes a sample that is neither a NaN nor a zero as it stands. -/
theorem iterate_first (reg : Regime) {b x : Word} (hb : F64.isFinite b = true) (hx : F64.isNaN x = false)
    (h0 : x.toNat % 2 ^ 63 ≠ 0) :
    iterate reg b x { acc := Config.zero, p1 := Config.zero, p2 := Config.zero } =
      { acc := x, p1 := x, p2 := Config.zero } := by
  have product : F64.add x (F64.mul b Config.zero) = x := by
    rw [F64.mul_zero_eq hb]; exact F64.add_signedZero hx h0 _
  have sum : F64.add x Config.zero = x := F64.add_signedZero hx h0 false
  have difference : F64.sub x Config.zero = x := F64.sub_signedZero hx h0 false
  cases reg <;> simp only [iterate, iterLow, iterMid, iterHigh, product, sum, difference]

/-- DBG_B · DBG_P2 / 2 of the final step is a zero when DBG_P2 is +0.0. -/
theorem half_product_zero {b : Word} (hb : F64.isFinite b = true) :
    F64.div (F64.mul b Config.zero) Config.two = F64.withSign (F64.signBit b) 0 := by
  rw [F64.mul_zero_eq hb]
  cases F64.signBit b <;> decide

/-! ## NaNs in an iteration -/

/-- A NaN sample, or a NaN in DBG_P1, makes DBG_ACC and DBG_P1 CNAN (00 R14). -/
theorem iterate_of_isNaN (reg : Regime) (b : Word) {x : Word} {r : Recursion}
    (h : F64.isNaN x = true ∨ F64.isNaN r.p1 = true) :
    iterate reg b x r = { acc := Config.cnan, p1 := Config.cnan, p2 := r.p1 } := by
  have nan : F64.isNaN Config.cnan = true := by decide
  have sum : F64.add x (F64.mul b r.p1) = Config.cnan :=
    F64.add_of_isNaN (h.imp_right fun h => by rwa [F64.mul_of_isNaN (.inr h)])
  have add (y : Word) : F64.add Config.cnan y = Config.cnan := F64.add_of_isNaN (.inl nan)
  have sub (y : Word) : F64.sub Config.cnan y = Config.cnan := F64.sub_of_isNaN (.inl nan)
  cases reg <;> simp only [iterate, iterLow, iterMid, iterHigh, sum, add, sub]

/-- From the iteration over a NaN sample on, DBG_ACC and DBG_P1 are CNAN. -/
theorem recursionAfter_of_isNaN (reg : Regime) (b : Word) {n j m : Nat} {v : Nat → Word} (hj : j < n)
    (nan : F64.isNaN (v j) = true) (hm : n - j ≤ m) :
    (recursionAfter reg b n v m).acc = Config.cnan ∧ (recursionAfter reg b n v m).p1 = Config.cnan := by
  induction m, hm using Nat.le_induction with
  | base =>
    obtain ⟨i, hi⟩ : ∃ i, n - j = i + 1 := ⟨n - j - 1, by omega⟩
    rw [hi, recursionAfter_succ, show n - 1 - i = j by omega, iterate_of_isNaN reg b (.inl nan)]
    exact ⟨rfl, rfl⟩
  | succ m _ ih =>
    rw [recursionAfter_succ, iterate_of_isNaN reg b (.inr (by rw [ih.2]; decide))]
    exact ⟨rfl, rfl⟩

end Sys2Proof.Machine

namespace Sys2Proof.Proofs

open Sys2Proof.Machine

/-- Settles O32: both steps compute with the same word. -/
theorem unwrittenSampleIsAnyValue : Obligations.UnwrittenSampleIsAnyValue := by
  unfold Obligations.UnwrittenSampleIsAnyValue
  intro s k hseq unwritten
  have written := engineStep_evalIt (k := k) (reg := s.eReg)
    (s := { s with mem := s.mem.writeWord (sAddr (s.eN - k)) (Config.anyWord s.draws) }) hseq rfl
    (Memory.readWord_writeWord _ _ _)
  rw [show 0x10000 + 8 * (s.eN - k) = sAddr (s.eN - k) from rfl] at unwritten ⊢
  rw [written]
  simp only [engineStep, hseq, evalIter, readEntry_of_none unwritten]
  rfl

/-- Settles O34: the flags stand through the iterations, and the final step sets them. -/
theorem evalCompletesInItsSteps : Obligations.EvalCompletesInItsSteps := by
  unfold Obligations.EvalCompletesInItsSteps
  intro s t idle run busy
  rw [exec_eval_idle idle] at run
  obtain rfl : evalCommand s = t := by simpa using run
  have rejected (code : BitVec 4) : evalCommand s ≠ rejectEval code s := by
    intro e
    rw [e] at busy
    exact Bool.noConfusion (idle.symm.trans busy)
  obtain ⟨code, -, e⟩ | e := evalCommand_cases s
  · exact absurd e (rejected code)
  have len : 0 < lenOperand s := Nat.pos_of_ne_zero fun zero => rejected 3 (evalCommand_of_len_zero zero)
  rw [e]
  set t := acceptEval (lenOperand s) (omegaOperand s) s with ht
  have start : t.seq = nextEval t.eN 0 := (nextEval_of_lt len).symm
  obtain ⟨seq, eN, status⟩ := engineSteps_evalIt_frame start (le_refl t.eN)
  rw [nextEval_self] at seq
  refine ⟨fun m hm => ?_, ?_, ?_, rfl, rfl⟩
  · rw [(engineSteps_evalIt_frame start hm).2.2]; rfl
  · rw [engineSteps_succ, engineStep_evalFin seq]; rfl
  · rw [engineSteps_succ, engineStep_evalFin seq, evalFinal, status]; rfl

/-- Settles O35: the acceptance, the iterations in a row and the final step. -/
theorem evalResult : Obligations.EvalResult := by
  unfold Obligations.EvalResult
  intro s n v ready
  exact ⟨_, ready.exec, ready.final⟩

/-- Settles O36: zeros keep the recursion at zero, and the sign of SIN_OUT is the sine's. -/
theorem allZeroSamplesGiveZeros : Obligations.AllZeroSamplesGiveZeros := by
  unfold Obligations.AllZeroSamplesGiveZeros
  intro s n ready
  have finB := isFinite_coefficient (isFinite_of_omegaLegal ready.omega) (regimeOf s.omega)
  have zeros : finalRecursion s n (fun _ => 0) = ⟨Config.zero, Config.zero, Config.zero⟩ :=
    recursionAfter_of_zeros _ finB n n
  have cosine : F64.sub Config.zero (F64.div (F64.mul (coefficient (regimeOf s.omega) s.omega) Config.zero) Config.two)
      = Config.zero := by
    rw [half_product_zero finB]
    cases F64.signBit (coefficient (regimeOf s.omega) s.omega) <;> decide
  have sine := F64.mul_neg_zero (F64.fsin_within_one (isFinite_of_omegaLegal ready.omega)).1
  have sign := F64.signBit_fsin ready.omega
  refine ⟨_, ready.exec, ?_⟩
  rw [ready.final, zeros]
  refine ⟨rfl, rfl, rfl, cosine, sine, fun low => sine.trans ?_, fun high => sine.trans ?_⟩
  · have positive : ¬(s.omega = 0x8000000000000000#64 ∨ 0x400921FB54442D18 < s.omega.toNat) := by
      rintro (e | above)
      · rw [e] at low; exact absurd low (by decide)
      · omega
    rw [sign, decide_eq_false positive]
    rfl
  · rw [sign, decide_eq_true high]
    rfl

/-- Settles O37: the one iteration keeps the sample, and DBG_P2 stays +0.0. -/
theorem oneSampleIsItsOwnCosine : Obligations.OneSampleIsItsOwnCosine := by
  unfold Obligations.OneSampleIsItsOwnCosine
  intro s x ready notNaN notZero
  have finB := isFinite_coefficient (isFinite_of_omegaLegal ready.omega) (regimeOf s.omega)
  have one : finalRecursion s 1 (fun _ => x) = ⟨x, x, Config.zero⟩ := iterate_first _ finB notNaN notZero
  have cosine : F64.sub x (F64.div (F64.mul (coefficient (regimeOf s.omega) s.omega) Config.zero) Config.two) = x := by
    rw [half_product_zero finB, F64.sub_signedZero notNaN notZero]
  have sine := F64.mul_neg_zero (F64.fsin_within_one (isFinite_of_omegaLegal ready.omega)).1
  refine ⟨_, ready.exec, ?_⟩
  rw [ready.final, one]
  exact ⟨rfl, cosine, sine⟩

/-- Settles O38: a NaN stays in DBG_ACC and DBG_P1, and reaches DBG_P2 with one more iteration. -/
theorem nanSamplePropagates : Obligations.NanSamplePropagates := by
  unfold Obligations.NanSamplePropagates
  intro s n v j ready hj nan
  have nanC : F64.isNaN Config.cnan = true := by decide
  obtain ⟨m, rfl⟩ : ∃ m, n = m + 1 := ⟨n - 1, by omega⟩
  set b := coefficient (regimeOf s.omega) s.omega with hb
  have last := recursionAfter_of_isNaN (regimeOf s.omega) b hj nan (Nat.sub_le (m + 1) j)
  have p2 : (finalRecursion s (m + 1) v).p2 = (recursionAfter (regimeOf s.omega) b (m + 1) v m).p1 := by
    rw [finalRecursion, recursionAfter_succ, iterate_p2]
  refine ⟨_, ready.exec, ?_⟩
  rw [ready.final]
  refine ⟨last.1, last.2, ?_, fun h1 => ?_, fun _ => ⟨p2, congrArg (F64.mul (F64.neg (F64.fsin s.omega))) p2, fun fin => ?_⟩⟩
  · exact F64.sub_of_isNaN (.inl (by rw [show (finalRecursion s (m + 1) v).acc = _ from last.1]; exact nanC))
  · have before := (recursionAfter_of_isNaN (regimeOf s.omega) b hj nan (show m + 1 - j ≤ m by omega)).2
    exact ⟨p2.trans before, F64.mul_of_isNaN (.inr (by rw [p2.trans before]; exact nanC))⟩
  · obtain ⟨finS, boundS⟩ := F64.fsin_within_one (isFinite_of_omegaLegal ready.omega)
    obtain ⟨finN, -, valueN⟩ := F64.neg_finite finS
    have boundN : |F64.toRat (F64.neg (F64.fsin s.omega))| ≤ 1 := by rwa [valueN, abs_neg]
    have finP2 : F64.isFinite (finalRecursion s (m + 1) v).p2 = true := by rw [p2]; exact fin
    exact ⟨finP2, (F64.mul_within ⟨finN, boundN⟩ ⟨finP2, le_rfl⟩ finP2 (by rw [one_mul])).1⟩

end Sys2Proof.Proofs
end

section
/-! PROOFS. A running GEN from its acceptance to its end (41 R161-R172), and the end of every running command under the default
schedule (70 R250). First the order of the grid points, then what the tables hold after some of them, then one theorem for each
obligation. -/

namespace Sys2Proof.Machine

/-! ## The order of the grid points -/

theorem halfPoints_eq (l : Nat) : halfPoints l = 2 * 2 ^ l := by unfold halfPoints npt; omega

/-- How many grid points come before (l, i) (41 R162). -/
def pointIndex (l i : Nat) : Nat := 2 * (2 ^ l - 1) + l + i

/-- A level starts right after the end of the one before it. -/
theorem pointIndex_succ_zero (l : Nat) : pointIndex (l + 1) 0 = pointIndex l (halfPoints l) + 1 := by
  have pos := Nat.two_pow_pos l
  rw [halfPoints_eq]
  unfold pointIndex
  omega

theorem pointIndex_mono {l l' : Nat} (h : l ≤ l') (i : Nat) : pointIndex l i ≤ pointIndex l' i := by
  have := Nat.pow_le_pow_right two_pos h
  unfold pointIndex
  omega

theorem pointIndex_lt_of_level_lt {l l' i : Nat} (hl : l < l') (hi : i ≤ halfPoints l) (i' : Nat) :
    pointIndex l i < pointIndex l' i' := by
  have next := pointIndex_succ_zero l
  have mono := pointIndex_mono hl i'
  unfold pointIndex at *
  omega

/-- Points of the grid stand at different indices. -/
theorem pointIndex_inj {l i l' i' : Nat} (hi : i ≤ halfPoints l) (hi' : i' ≤ halfPoints l')
    (h : pointIndex l i = pointIndex l' i') : l = l' ∧ i = i' := by
  rcases lt_trichotomy l l' with lt | rfl | lt
  · exact absurd h (pointIndex_lt_of_level_lt lt hi i').ne
  · exact ⟨rfl, by unfold pointIndex at h; omega⟩
  · exact absurd h (pointIndex_lt_of_level_lt lt hi' i).ne'

/-- The grid has 518 points (41 R162). -/
theorem pointIndex_lt {l i : Nat} (hl : l ≤ 7) (hi : i ≤ halfPoints l) : pointIndex l i < 518 :=
  pointIndex_lt_of_level_lt (l' := 8) (Nat.lt_succ_of_le hl) hi 0 |>.trans_le (by decide)

/-- SEQ after n grid points (41 R163). -/
def atPoint (n : Nat) : Seq → Prop
  | .genPt l i => l ≤ 7 ∧ i ≤ halfPoints l ∧ pointIndex l i = n
  | .genFin => n = 518
  | _ => False

theorem atPoint_nextPoint {l i : Nat} (hl : l ≤ 7) (hi : i ≤ halfPoints l) :
    atPoint (pointIndex l i + 1) (nextPoint l i) := by
  unfold nextPoint
  split_ifs with inner more
  · exact ⟨hl, inner, rfl⟩
  · obtain rfl : i = halfPoints l := by omega
    exact ⟨more, Nat.zero_le _, pointIndex_succ_zero l⟩
  · obtain rfl : l = 7 := by omega
    obtain rfl : i = halfPoints 7 := by omega
    rfl

/-- After 518 points GEN is at its final step. -/
theorem atPoint_last {q : Seq} (h : atPoint 518 q) : q = .genFin := by
  cases q with
  | genFin => rfl
  | genPt l i =>
    obtain ⟨hl, hi, index⟩ := h
    exact absurd index (pointIndex_lt hl hi).ne
  | idle | evalIt k | evalFin => exact h.elim

/-- Before that it is at the point of that index. -/
theorem atPoint_inner {n : Nat} (hn : n < 518) {q : Seq} (h : atPoint n q) :
    ∃ l i, q = .genPt l i ∧ l ≤ 7 ∧ i ≤ halfPoints l ∧ pointIndex l i = n := by
  cases q with
  | genFin => exact absurd h hn.ne
  | genPt l i => exact ⟨l, i, rfl, h⟩
  | idle | evalIt k | evalFin => exact h.elim

/-! ## The tables after some of the points -/

/-- The weight GEN stores at a grid point (41 R166-R168). -/
def tableWeight (k : BitVec 32) (l i : Nat) : Word :=
  if k = 1 then sineWeight (pointSum l i) (npt l)
  else if k = 2 then cosineWeight (gridAngle l i) (pointSum l i) (npt l) else Config.zero

/-- The abscissa GEN stores at a grid point (41 R166-R168). -/
def tableAbscissa (k : BitVec 32) (l i : Nat) : Word :=
  if k = 1 then sineAbscissa (gridAngle l i) else if k = 2 then cosineAbscissa (gridAngle l i) else Config.zero

theorem tableWeight_of_unselected {k : BitVec 32} (h : ¬ (k = 1 ∨ k = 2)) (l i : Nat) : tableWeight k l i = Config.zero := by
  rw [tableWeight, if_neg (mt .inl h), if_neg (mt .inr h)]

theorem tableAbscissa_of_unselected {k : BitVec 32} (h : ¬ (k = 1 ∨ k = 2)) (l i : Nat) :
    tableAbscissa k l i = Config.zero := by
  rw [tableAbscissa, if_neg (mt .inl h), if_neg (mt .inr h)]

theorem pointWrites_of_selected {s : State} (h : s.gKind = 1 ∨ s.gKind = 2) (l i : Nat) :
    pointWrites l i s = writeW l i (tableWeight s.gKind l i) (writeX i (tableAbscissa s.gKind l i) s) := by
  rcases h with kind | kind
  · rw [pointWrites_of_sine kind, tableWeight, tableAbscissa, if_pos kind, if_pos kind]; rfl
  · rw [pointWrites_of_cosine kind, tableWeight, tableAbscissa, kind]; rfl

/-- A grid point leaves every word that shares no byte with X[i] and W[l][i]. -/
theorem readWord_pointWrites_other {l i b : Nat} (s : State) (hx : b + 8 ≤ xAddr i ∨ xAddr i + 8 ≤ b)
    (hw : b + 8 ≤ wAddr l i ∨ wAddr l i + 8 ≤ b) : (pointWrites l i s).mem.readWord b = s.mem.readWord b :=
  Memory.readWord_congr fun j hj => readByte_pointWrites_other s (by omega) (by omega)

/-- What the tables of kind k hold after the first n grid points over the memory m0 (41 R161, R163): W the weights of these
points and zeros, X the abscissae of level 7's points among them; for an unselected kind zeros. -/
structure TablesAfter (k : BitVec 32) (m0 : Memory) (n : Nat) (m : Memory) : Prop where
  weight : ∀ l i, l ≤ 7 → i ≤ 256 →
    m.readWord (wAddr l i) =
      some (if i ≤ halfPoints l ∧ pointIndex l i < n then tableWeight k l i else Config.zero)
  abscissa : ∀ i, i ≤ 256 → ¬ (k = 1 ∨ k = 2) ∨ pointIndex 7 i < n →
    m.readWord (xAddr i) = some (tableAbscissa k 7 i)
  other : ∀ a, ¬ (0x1000 ≤ a ∧ a < 0x1808) → ¬ (0x8000 ≤ a ∧ a < 0x10000 ∧ a % 0x1000 < 0x808) →
    m.readByte a = m0.readByte a

/-- The zero fill of the acceptance (41 R161). -/
theorem tablesAfter_zeroTables (k : BitVec 32) (m0 : Memory) : TablesAfter k m0 0 (zeroTables m0) where
  weight l i hl hi := by
    rw [readWord_zeroTables_w m0 (Nat.lt_succ_of_le hl) (Nat.lt_succ_of_le hi), if_neg (by omega)]
  abscissa i hi h := by
    rw [tableAbscissa_of_unselected (h.resolve_right (Nat.not_lt_zero _)),
      readWord_zeroTables_x m0 (Nat.lt_succ_of_le hi)]
  other a hx hw := readByte_zeroTables_other m0 hx hw

/-- A grid point lies in X and W. -/
theorem readByte_pointWrites_outside {l i a : Nat} (s : State) (hl : l ≤ 7) (hi : i ≤ 256)
    (hx : ¬ (0x1000 ≤ a ∧ a < 0x1808)) (hw : ¬ (0x8000 ≤ a ∧ a < 0x10000 ∧ a % 0x1000 < 0x808)) :
    (pointWrites l i s).mem.readByte a = s.mem.readByte a :=
  readByte_pointWrites_other s (by unfold xAddr; omega) (by unfold wAddr; omega)

/-- A grid point adds its weight to W, and its abscissa to X. -/
theorem TablesAfter.succ {s : State} {m0 : Memory} {l i : Nat} (hl : l ≤ 7) (hi : i ≤ halfPoints l)
    (h : TablesAfter s.gKind m0 (pointIndex l i) s.mem) :
    TablesAfter s.gKind m0 (pointIndex l i + 1) (pointWrites l i s).mem where
  weight l' i' hl' hi' := by
    have hi256 := hi.trans (halfPoints_le hl)
    by_cases selected : s.gKind = 1 ∨ s.gKind = 2
    · by_cases here : l' = l ∧ i' = i
      · obtain ⟨rfl, rfl⟩ := here
        rw [pointWrites_of_selected selected, (readWord_writeW_writeX hi256 _ _ _ _).2,
          if_pos ⟨hi, Nat.lt_succ_self _⟩]
      · have apart : i' ≤ halfPoints l' → pointIndex l' i' ≠ pointIndex l i := fun le e => here (pointIndex_inj le hi e)
        rw [readWord_pointWrites_other s (by unfold xAddr wAddr; omega) (by unfold wAddr; omega), h.weight l' i' hl' hi']
        congr 2
        rw [eq_iff_iff]
        omega
    · have same : pointWrites l i s = s := pointWrites_of_unselected (mt .inl selected) (mt .inr selected) l i
      rw [same, h.weight l' i' hl' hi', tableWeight_of_unselected selected, ite_self, ite_self]
  abscissa i' hi' done := by
    have hi256 := hi.trans (halfPoints_le hl)
    by_cases selected : s.gKind = 1 ∨ s.gKind = 2
    · have index : pointIndex 7 i' < pointIndex l i + 1 := done.resolve_left (not_not_intro selected)
      by_cases here : i' = i
      · subst here
        obtain rfl : l = 7 := by
          by_contra ne
          have := pointIndex_lt_of_level_lt (show l < 7 by omega) hi i'
          omega
        rw [pointWrites_of_selected selected, (readWord_writeW_writeX hi256 _ _ _ _).1]
      · have apart : pointIndex 7 i' ≠ pointIndex l i := fun e => here (pointIndex_inj (by exact hi') hi e).2
        rw [readWord_pointWrites_other s (by unfold xAddr; omega) (by unfold xAddr wAddr; omega)]
        exact h.abscissa i' hi' (.inr (by omega))
    · have same : pointWrites l i s = s := pointWrites_of_unselected (mt .inl selected) (mt .inr selected) l i
      rw [same]
      exact h.abscissa i' hi' (.inl selected)
  other a hx hw := by
    rw [readByte_pointWrites_outside s hl (hi.trans (halfPoints_le hl)) hx hw]
    exact h.other a hx hw

/-! ## The points in a row -/

/-- After n points an accepted GEN has changed SEQ and the tables alone (41 R163). -/
theorem engineSteps_acceptGen (s : State) {n : Nat} (hn : n ≤ 518) :
    ∃ m q, engineSteps n (acceptGen s) = { acceptGen s with mem := m, seq := q } ∧ atPoint n q ∧
      TablesAfter (kindOperand s) s.mem n m := by
  induction n with
  | zero => exact ⟨_, _, rfl, ⟨Nat.zero_le _, Nat.zero_le _, rfl⟩, tablesAfter_zeroTables _ _⟩
  | succ n ih =>
    obtain ⟨m, q, run, at_, tables⟩ := ih (Nat.le_of_succ_le hn)
    obtain ⟨l, i, rfl, hl, hi, rfl⟩ := atPoint_inner hn at_
    refine ⟨_, _, ?_, atPoint_nextPoint hl hi,
      TablesAfter.succ (s := { acceptGen s with mem := m, seq := .genPt l i }) hl hi tables⟩
    rw [engineSteps_succ, run, engineStep_genPt rfl]

/-- The state at the end of a GEN over the memory m (41 R161, R170). -/
def genEnd (s : State) (m : Memory) : State := genFinal { acceptGen s with mem := m }

/-- An accepted GEN ends after 519 engine steps, with all its points in the tables (41 R163, R170). -/
theorem engineSteps_genEnd (s : State) :
    ∃ m, engineSteps 519 (acceptGen s) = genEnd s m ∧ TablesAfter (kindOperand s) s.mem 518 m := by
  obtain ⟨m, q, run, last, tables⟩ := engineSteps_acceptGen s le_rfl
  obtain rfl := atPoint_last last
  refine ⟨m, ?_, tables⟩
  rw [engineSteps_succ, run, engineStep_genFin rfl]
  rfl

/-- All the weights of a finished GEN. -/
theorem TablesAfter.weight_final {k : BitVec 32} {m0 m : Memory} (h : TablesAfter k m0 518 m) {l i : Nat} (hl : l ≤ 7)
    (hi : i ≤ 256) : m.readWord (wAddr l i) = some (if i ≤ halfPoints l then tableWeight k l i else Config.zero) := by
  rw [h.weight l i hl hi]
  congr 2
  rw [eq_iff_iff]
  exact and_iff_left_of_imp (pointIndex_lt hl)

/-- All the abscissae of a finished GEN. -/
theorem TablesAfter.abscissa_final {k : BitVec 32} {m0 m : Memory} (h : TablesAfter k m0 518 m) {i : Nat} (hi : i ≤ 256) :
    m.readWord (xAddr i) = some (tableAbscissa k 7 i) :=
  h.abscissa i hi (.inr (pointIndex_lt le_rfl hi))

/-- The kind as a number (41 R161). -/
theorem kindOperand_eq_iff (s : State) (k : Nat) (hk : k < 2 ^ 32) :
    kindOperand s = BitVec.ofNat 32 k ↔ s.kind.toNat % 2 ^ 32 = k := by
  rw [kindOperand_eq, ← BitVec.toNat_inj, BitVec.toNat_ofNat, BitVec.toNat_ofNat, Nat.mod_eq_of_lt hk]

/-! ## The end of a running command -/

/-- How many engine steps a running command still takes (40 R135, 41 R163). -/
def stepsLeft (s : State) : Nat :=
  match s.seq with
  | .idle => 0
  | .evalIt k => s.eN - k + 2
  | .evalFin => 1
  | .genPt l i => 519 - pointIndex l i
  | .genFin => 1

theorem State.Inv.stepsLeft_le {s : State} (h : s.Inv) : stepsLeft s ≤ 4097 := by
  have range := h.seqOk
  unfold stepsLeft
  unfold seqInRange at range
  cases hq : s.seq <;> rw [hq] at range <;> simp only [Config.nMax] at range ⊢ <;> omega

theorem State.Inv.stepsLeft_pos {s : State} (h : s.Inv) (running : s.seq ≠ .idle) : 0 < stepsLeft s := by
  have range := h.seqOk
  unfold stepsLeft
  unfold seqInRange at range
  cases hq : s.seq with
  | idle => exact absurd hq running
  | genPt l i =>
    rw [hq] at range
    obtain ⟨hl, hi⟩ := range
    exact Nat.sub_pos_of_lt ((pointIndex_lt hl hi).trans (by norm_num))
  | evalIt k | evalFin | genFin => simp

/-- A command's end, as its final step leaves it (70 R250). -/
structure Finished (t : State) : Prop where
  idle : t.seq = .idle
  done : t.status.done = true
  err : t.status.err = false

/-- An engine step of a running command ends it, or leaves fewer steps to take; the host's queue, the schedule and the pin
stand. -/
theorem State.Inv.engineStep_running {s : State} (h : s.Inv) (running : s.seq ≠ .idle) :
    ((engineStep s).host = s.host ∧ (engineStep s).turns = s.turns ∧ (engineStep s).rstN = s.rstN) ∧
      (Finished (engineStep s) ∨ ((engineStep s).seq ≠ .idle ∧ stepsLeft (engineStep s) < stepsLeft s)) := by
  have range := h.seqOk
  obtain ⟨-, -, err, -⟩ := h.running_flags running
  unfold seqInRange at range
  obtain ⟨q, hq⟩ : ∃ q, s.seq = q := ⟨_, rfl⟩
  rw [hq] at range
  cases q with
  | idle => exact absurd hq running
  | evalFin => rw [engineStep_evalFin hq]; exact ⟨⟨rfl, rfl, rfl⟩, .inl ⟨rfl, rfl, err⟩⟩
  | genFin => rw [engineStep_genFin hq]; exact ⟨⟨rfl, rfl, rfl⟩, .inl ⟨rfl, rfl, err⟩⟩
  | evalIt k =>
    obtain ⟨draws, step⟩ := engineStep_evalIt_frame hq
    rw [step]
    refine ⟨⟨rfl, rfl, rfl⟩, .inr ?_⟩
    simp only [stepsLeft, hq, nextEval]
    split_ifs with more
    · exact ⟨Seq.noConfusion, by simp only; omega⟩
    · exact ⟨Seq.noConfusion, by simp only; omega⟩
  | genPt l i =>
    obtain ⟨hl, hi⟩ := range
    have index := pointIndex_lt hl hi
    have next := atPoint_nextPoint hl hi
    rw [engineStep_genPt hq]
    refine ⟨⟨rfl, rfl, rfl⟩, .inr ?_⟩
    simp only [stepsLeft, hq]
    generalize nextPoint l i = q' at next ⊢
    cases q' with
    | genPt l' i' =>
      obtain ⟨-, -, index'⟩ := next
      exact ⟨Seq.noConfusion, by simp only; omega⟩
    | genFin => exact ⟨Seq.noConfusion, show 1 < 519 - pointIndex l i by change _ = 518 at next; omega⟩
    | idle | evalIt k | evalFin => exact next.elim

/-- With nothing scheduled the engine moves while a command runs (log 1). -/
theorem step_of_running {s : State} (hr : s.rstN = true) (noTurns : s.turns = []) (running : s.seq ≠ .idle) :
    step s = .next (engineStep s) := by
  have turn : nextTurn s = .engine := by
    unfold nextTurn
    rw [noTurns]
    exact if_neg running
  have unscheduled : { s with turns := s.turns.tail } = s := by rw [noTurns, List.tail_nil, ← noTurns]
  rw [nextIsEngine_step ⟨hr, turn⟩, unscheduled]

/-- A running command finishes within the steps it has left. -/
theorem exists_run_finished (n : Nat) : ∀ s : State, s.Inv → s.rstN = true → s.turns = [] → s.seq ≠ .idle →
    stepsLeft s ≤ n → ∃ k t, k ≤ n ∧ Host.Core.run Sys2Proof.core k s = .next t ∧ Finished t ∧ t.host = s.host := by
  induction n with
  | zero => exact fun s h _ _ running left => absurd (h.stepsLeft_pos running) (by omega)
  | succ n ih =>
    intro s h hr noTurns running left
    have step := step_of_running hr noTurns running
    have run (k : Nat) : Host.Core.run Sys2Proof.core (k + 1) s = Host.Core.run Sys2Proof.core k (engineStep s) := by
      simp only [Host.Core.run, show Sys2Proof.core.step s = .next (engineStep s) from step]
    obtain ⟨⟨host, turns, rstN⟩, finished | ⟨still, fewer⟩⟩ := h.engineStep_running running
    · exact ⟨1, engineStep s, by omega, run 0, finished, host⟩
    · obtain ⟨k, t, hk, rest, finished, host'⟩ := ih (engineStep s) (engineStep_inv h hr) (rstN.trans hr)
        (turns.trans noTurns) still (by omega)
      exact ⟨k + 1, t, by omega, (run k).trans rest, finished, host'.trans host⟩

end Sys2Proof.Machine

namespace Sys2Proof.Proofs

open Sys2Proof.Machine

/-- Settles O44: the points change no flag, and the final step sets them. -/
theorem genCompletesInItsSteps : Obligations.GenCompletesInItsSteps := by
  unfold Obligations.GenCompletesInItsSteps
  intro s t idle run
  rw [exec_gen_idle idle] at run
  obtain rfl : acceptGen s = t := by simpa using run
  obtain ⟨m, final, -⟩ := engineSteps_genEnd s
  rw [final]
  refine ⟨fun n hn => ?_, rfl, rfl, rfl, rfl⟩
  obtain ⟨m, q, steps, -⟩ := engineSteps_acceptGen s hn
  rw [steps]
  rfl

/-- Settles O45: the tables after all 518 points, and the state of the final step. -/
theorem genTables : Obligations.GenTables := by
  unfold Obligations.GenTables
  intro s idle
  obtain ⟨m, final, tables⟩ := engineSteps_genEnd s
  have one : kindOperand s = 1 ↔ s.kind.toNat % 2 ^ 32 = 1 := kindOperand_eq_iff s 1 (by norm_num)
  have two : kindOperand s = 2 ↔ s.kind.toNat % 2 ^ 32 = 2 := kindOperand_eq_iff s 2 (by norm_num)
  refine ⟨acceptGen s, exec_gen_idle idle, ?_⟩
  rw [final]
  refine ⟨fun l i hl hi => ?weight, fun i hi => ?abscissa, tables.other, ?state⟩
  case weight =>
    refine (tables.weight_final hl hi).trans ?_
    rw [tableWeight, halfPoints_eq]
    simp only [one, two]
    by_cases inside : i ≤ 2 * 2 ^ l
    · simp only [inside, and_true, if_true]; rfl
    · simp only [inside, and_false, if_false]; rfl
  case abscissa =>
    refine (tables.abscissa_final hi).trans ?_
    rw [tableAbscissa]
    simp only [one, two]
    rfl
  case state =>
    have kind : BitVec.ofNat 32 (s.kind.toNat % 2 ^ 32) = kindOperand s :=
      ((kindOperand_eq_iff s _ (Nat.mod_lt _ (by norm_num))).2 rfl).symm
    simp only [← one, ← two]
    rw [kind, ← tkindOf_eq_ite, ← not_selected_eq_ite]
    rfl

/-- Settles O46: the finished tables are a function of the kind. -/
theorem repeatedGenIsIdentical : Obligations.RepeatedGenIsIdentical := by
  unfold Obligations.RepeatedGenIsIdentical
  intro s s' t t' idle idle' kinds run run'
  rw [exec_gen_idle idle] at run
  rw [exec_gen_idle idle'] at run'
  obtain rfl : acceptGen s = t := by simpa using run
  obtain rfl : acceptGen s' = t' := by simpa using run'
  have kind : kindOperand s' = kindOperand s := by
    rw [kindOperand_eq, kindOperand_eq, ← BitVec.toNat_inj, BitVec.toNat_ofNat, BitVec.toNat_ofNat, kinds]
  obtain ⟨m, final, tables⟩ := engineSteps_genEnd s
  obtain ⟨m', final', tables'⟩ := engineSteps_genEnd s'
  rw [kind] at tables'
  rw [final, final']
  exact ⟨fun l i hl hi => (tables.weight_final hl hi).trans (tables'.weight_final hl hi).symm,
    fun i hi => (tables.abscissa_final hi).trans (tables'.abscissa_final hi).symm⟩

/-- Settles O60: every engine step leaves fewer steps to take. -/
theorem runningCommandCompletesByDefault : Obligations.RunningCommandCompletesByDefault := by
  unfold Obligations.RunningCommandCompletesByDefault
  intro s h hr noTurns busy
  have running : s.seq ≠ .idle := h.busySeq.1 busy
  obtain ⟨k, t, hk, run, finished, host⟩ := exists_run_finished 4097 s h hr noTurns running h.stepsLeft_le
  exact ⟨k, t, hk, run, finished.idle, finished.done, finished.err, host⟩

end Sys2Proof.Proofs
end
